-- ==== Sys2Proof/Word.lean ====
section
/-! DEFINITION. The word types of the PX codec engine and the nine-entry table shape.

A byte is 8 bits, a nibble 4 bits (R7); every register and counter is 32 bits (R5, decision D2). -/

namespace Sys2Proof

/-- A 32-bit register or counter (R5, R10). -/
abbrev Word := BitVec 32

/-- A byte (R7). -/
abbrev Byte := BitVec 8

/-- A nibble, "a 4-bit half-byte value, 0–15" (R7). -/
abbrev Nibble := BitVec 4

/-- Nine like things, indexed by a flag index 0..8: `N_FLAGS` = 9 (R4). -/
structure Nine (α : Type) where
  e0 : α
  e1 : α
  e2 : α
  e3 : α
  e4 : α
  e5 : α
  e6 : α
  e7 : α
  e8 : α
deriving DecidableEq, Repr

/-- Entry `k` (R7: `x[i]` on a register file reads entry `i`). -/
def Nine.get {α : Type} (t : Nine α) (k : Fin 9) : α :=
  match k with
  | 0 => t.e0
  | 1 => t.e1
  | 2 => t.e2
  | 3 => t.e3
  | 4 => t.e4
  | 5 => t.e5
  | 6 => t.e6
  | 7 => t.e7
  | 8 => t.e8

/-- The entries in index order. -/
def Nine.toList {α : Type} (t : Nine α) : List α :=
  [t.e0, t.e1, t.e2, t.e3, t.e4, t.e5, t.e6, t.e7, t.e8]

/-- The first nine members of a list, `d` where it is shorter. -/
def Nine.ofList {α : Type} (d : α) (l : List α) : Nine α :=
  ⟨l.getD 0 d, l.getD 1 d, l.getD 2 d, l.getD 3 d, l.getD 4 d,
   l.getD 5 d, l.getD 6 d, l.getD 7 d, l.getD 8 d⟩

/-- `f` of every entry. -/
def Nine.map {α β : Type} (f : α → β) (t : Nine α) : Nine β :=
  ⟨f t.e0, f t.e1, f t.e2, f t.e3, f t.e4, f t.e5, f t.e6, f t.e7, f t.e8⟩

/-- The latched flag table `FT[0..8]`: nine 8-bit entries (R21). -/
abbrev FlagTable := Nine Byte

end Sys2Proof
end

