-- ==== Sys2Proof/Config.lean ====
section
/-! DEFINITION. The codec's fixed constants (R4), the implementation parameters (R5), and the free
values: constants without a body, so that nothing can be proved about the value they give. -/

namespace Sys2Proof

/-- `ENCODER_MODEL` (R5, R159, decision D33). -/
inductive EncoderModel where
  /-- The deterministic encoder of 43_encoder.md. -/
  | reference
  /-- Any output that satisfies R9, or SIZE_OVERFLOW. -/
  | anyValid
deriving DecidableEq, Repr

/-- The implementation parameters of R5. "A model takes each as an argument": they stand in the
state as a field that no step changes, so that every claim about all states is a claim about all
parameter values (log entry 1). -/
structure Config where
  /-- `IN_CAP`: bytes in the IN buffer. -/
  inCap : Nat
  /-- `OUT_CAP`: bytes in the OUT buffer. -/
  outCap : Nat
  /-- `STRICT_FLAGS`: refuse a malformed flag table at the start of DECODE. -/
  strictFlags : Bool
  /-- `ENCODER_MODEL`. -/
  encoderModel : EncoderModel
  /-- `MAGIC_A`: the five bytes that tag a Variant A container (host side, R204). -/
  magicA : List Byte
  /-- `MAGIC_B`: the five bytes that tag a Variant B container (host side, R204). -/
  magicB : List Byte
deriving DecidableEq, Repr

/-- What R5, R204, R228 and R229 ask of the parameters: both capacities at least 1 and at most
2^32 − 1, two different five-byte tags. -/
def Config.wf (c : Config) : Bool :=
  decide (1 ≤ c.inCap) && decide (c.inCap < 2 ^ 32) && decide (1 ≤ c.outCap) && decide (c.outCap < 2 ^ 32) &&
  decide (c.magicA.length = 5) && decide (c.magicB.length = 5) && decide (c.magicA ≠ c.magicB)

/-- The parameters of the machine at reset: the defaults the spec names for `STRICT_FLAGS` and
`ENCODER_MODEL` (R5); capacities at decision D5's guidance (log entry 2, DESIGN CHOICE); the tags of
X4 (log entry 3, PRESUMED). -/
def Config.initial : Config where
  inCap := 65535
  outCap := 65535
  strictFlags := false
  encoderModel := .reference
  magicA := [0x41#8, 0x54#8, 0x34#8, 0x50#8, 0x58#8]
  magicB := [0x50#8, 0x4B#8, 0x44#8, 0x50#8, 0x58#8]

/-- `LS_CAP` (R4). -/
def Config.lsCap : Nat := 7
/-- `WINDOW` (R4). -/
def Config.window : Nat := 4096
/-- `MIN_MATCH` (R4). -/
def Config.minMatch : Nat := 3
/-- `MAX_MATCH` (R4). -/
def Config.maxMatch : Nat := 18
/-- `GROUP` (R4). -/
def Config.group : Nat := 8
/-- `MAX_COMPRESSED` (R4). -/
def Config.maxCompressed : Nat := 65535
/-- `LS_SEED` = {0, 15} as a 16-bit mask (R4, R120). -/
def Config.lsSeed : BitVec 16 := 0x8001#16

/-- A free 32-bit value: what the host reads from a progress register while BUSY (R25, X7), drawn
by the counter `State.draws` (log entry 5). -/
opaque Config.freeWord : Nat → Word

/-- A free byte: what the host reads from a buffer byte that nothing has written (R53, X12), or from
OUT while BUSY (R256), drawn by the counter `State.draws` (log entries 5 and 6). -/
opaque Config.freeByte : Nat → Byte

/-- A free encoder result for `ENCODER_MODEL = ANY_VALID` (R159, X13): a candidate table, stream and
LengthSet mask, or no candidate, drawn by the counter `State.encodes` and the input (log entry 7). -/
opaque Config.freeEncoding : Nat → List Byte → Option (Nine Nibble × List Byte)

/-- The free LSET value of an ENCODE under ANY_VALID (R159, X13; log entry 7). -/
opaque Config.freeLset : Nat → List Byte → BitVec 16

end Sys2Proof
end

