-- ==== Sys2Proof/Syntax.lean ====
section
/-! DEFINITION. The instructions of the PX codec engine: one constructor for each row of
spec/opcode_table.json. The stream operations are the engine's "instruction set" (R1); the three
commands are the CTRL-register writes that start the engine. -/

namespace Sys2Proof

/-- One constructor a row of the opcode table. -/
inductive Instr where
  /-- CTRL: a control byte; slot `i` of its group uses bit `7 − i` (R61, R173). -/
  | ctrl (c : Byte)
  /-- LIT: a literal byte (R63, R175). -/
  | lit (v : Byte)
  /-- NIB0 with payload `p`: all four nibbles equal (R64, R81). -/
  | nib0 (p : Nibble)
  /-- NIB1 with payload `p`: all four incremented (R82). -/
  | nib1 (p : Nibble)
  /-- NIB2 with payload `p`: nibble 1 decremented (R83). -/
  | nib2 (p : Nibble)
  /-- NIB3 with payload `p`: nibble 2 decremented (R84). -/
  | nib3 (p : Nibble)
  /-- NIB4 with payload `p`: nibble 3 decremented (R85). -/
  | nib4 (p : Nibble)
  /-- NIB5 with payload `p`: all four decremented (R86). -/
  | nib5 (p : Nibble)
  /-- NIB6 with payload `p`: nibble 1 incremented (R87). -/
  | nib6 (p : Nibble)
  /-- NIB7 with payload `p`: nibble 2 incremented (R88). -/
  | nib7 (p : Nibble)
  /-- NIB8 with payload `p`: nibble 3 incremented (R89). -/
  | nib8 (p : Nibble)
  /-- BREF with length delta `d` and encoded offset `x` (R65): length `d + 3`, offset `4096 − x`. -/
  | bref (d : Nibble) (x : BitVec 12)
  /-- CMD.DECODE: a write of CTRL with START = 1, MODE = 0, and EXP_VALID (R11, R170). -/
  | cmdDecode (expValid : Bool)
  /-- CMD.ENCODE: a write of CTRL with START = 1, MODE = 1, and EXP_VALID (R11, R140). -/
  | cmdEncode (expValid : Bool)
  /-- CMD.RESERVED: a write of CTRL with START = 1 and MODE = 2 or 3, and EXP_VALID (R11, R225). -/
  | cmdReserved (mode : BitVec 2) (expValid : Bool)
deriving DecidableEq, Repr

end Sys2Proof
end

