-- ==== Sys2Proof/WellFormed.lean ====
section
/-! DEFINITION. Where a term of Instr is an instruction. Decoding is modal (R69): the same byte is
a control byte, a literal, a nibble pattern or the first byte of a back-reference according to where
it stands and to the flag table, so an instruction is well formed in a context. -/

namespace Sys2Proof

/-- Where the engine reads an instruction. -/
inductive Context where
  /-- A host write of the CTRL register (32 bits) while the engine is IDLE (R11, R23). -/
  | command
  /-- The first byte of the stream, or the byte after a completed group (R172, DEC_CTRL). -/
  | control
  /-- A slot of a group, with its control bit and the flag table in force (R62, DEC_SLOT). -/
  | slot (literal : Bool) (ft : FlagTable)
deriving DecidableEq, Repr

/-- Flag index `k` is the least index whose entry equals the nibble it holds: the entry is a nibble
value and no earlier entry repeats it (R64, R68). -/
def nibbleFlagOk (ft : FlagTable) (k : Fin 9) : Bool :=
  decide ((ft.get k).toNat ≤ 15) && decide (∀ j : Fin 9, j < k → ft.get j ≠ ft.get k)

/-- No entry of the flag table equals the length delta, so that the byte is not a nibble pattern (R65). -/
def deltaOk (ft : FlagTable) (d : Nibble) : Bool :=
  decide (∀ j : Fin 9, ft.get j ≠ d.setWidth 8)

/-- The flag table of a slot whose control bit is 0 ("special", R61). -/
def Context.special : Context → Option FlagTable
  | .command => none
  | .control => none
  | .slot true _ => none
  | .slot false ft => some ft

/-- The slot's control bit is 1 (R61). -/
def Context.isLiteral : Context → Bool
  | .command => false
  | .control => false
  | .slot l _ => l

/-- A nibble pattern of flag index `k` may stand here. -/
def Context.admitsNib (c : Context) (k : Fin 9) : Bool :=
  match c.special with
  | some ft => nibbleFlagOk ft k
  | none => false

/-- A back-reference of length delta `d` may stand here. -/
def Context.admitsBref (c : Context) (d : Nibble) : Bool :=
  match c.special with
  | some ft => deltaOk ft d
  | none => false

/-- Instruction `i` is well formed in context `c` (R61, R62, R64, R65, R11). -/
def wellFormed (c : Context) (i : Instr) : Bool :=
  match i with
  | .ctrl _ => decide (c = .control)
  | .lit _ => c.isLiteral
  | .nib0 _ => c.admitsNib 0
  | .nib1 _ => c.admitsNib 1
  | .nib2 _ => c.admitsNib 2
  | .nib3 _ => c.admitsNib 3
  | .nib4 _ => c.admitsNib 4
  | .nib5 _ => c.admitsNib 5
  | .nib6 _ => c.admitsNib 6
  | .nib7 _ => c.admitsNib 7
  | .nib8 _ => c.admitsNib 8
  | .bref d _ => c.admitsBref d
  | .cmdDecode _ => decide (c = .command)
  | .cmdEncode _ => decide (c = .command)
  | .cmdReserved m _ => decide (c = .command) && decide (2 ≤ m.toNat)

end Sys2Proof
end

