-- ==== Sys2Proof/Decode.lean ====
section
/-! DEFINITION. From bytes to instructions and back (30_encoding.md). Decoding is total: on any bytes
it answers an instruction and the bytes after it, or a rejection by name. The encoder after it is
written from the same tables of the spec. -/

namespace Sys2Proof

/-! ## Bit fields (R7) -/

/-- `hi(b) = b[7:4]` (R7). -/
def hi (b : Byte) : Nibble := b.extractLsb' 4 4

/-- `lo(b) = b[3:0]` (R7). -/
def lo (b : Byte) : Nibble := b.extractLsb' 0 4

/-- `a ++ b`, the byte `(a<<4 | b)` (R7). -/
def joinNibbles (a b : Nibble) : Byte := a ++ b

/-- The four bytes of a register word, byte 0 = bits 7:0 first (R44(d)). -/
def wordBytes (w : Word) : List Byte :=
  [w.extractLsb' 0 8, w.extractLsb' 8 8, w.extractLsb' 16 8, w.extractLsb' 24 8]

/-- The register word of four bytes, byte 0 = bits 7:0 first (R44(d)). -/
def wordOfBytes (b0 b1 b2 b3 : Byte) : Word := b3 ++ b2 ++ b1 ++ b0

/-! ## Fields of a CTRL register write (R11) -/

/-- CTRL.START, bit 0. -/
def ctrlStart (w : Word) : Bool := w.getLsbD 0

/-- CTRL.MODE, bits 2:1. -/
def ctrlMode (w : Word) : BitVec 2 := w.extractLsb' 1 2

/-- CTRL.EXP_VALID, bit 3. -/
def ctrlExpValid (w : Word) : Bool := w.getLsbD 3

/-- A CTRL word with the given fields and its reserved bits 31:4 zero. -/
def ctrlWord (start : Bool) (mode : BitVec 2) (expValid : Bool) : Word :=
  (0#28) ++ (BitVec.ofBool expValid) ++ mode ++ (BitVec.ofBool start)

/-! ## Decoding -/

/-- Why bytes are no instruction in a context. -/
inductive Reject where
  /-- There is no byte. -/
  | noByte
  /-- A back-reference's second byte is missing (R72(b)). -/
  | missingSecondByte
  /-- A CTRL write has four bytes (R45). -/
  | shortCommandWord
  /-- A CTRL write with START = 0 starts no command (R11). -/
  | notAStart
deriving DecidableEq, Repr

/-- The flag index of a special operation's high nibble: the least `k` with
`FT[k] == zext_8(h)`, none where no entry matches (R62, R68). -/
def flagIndex (ft : FlagTable) (h : Nibble) : Option (Fin 9) :=
  if ft.e0 = h.setWidth 8 then some 0
  else if ft.e1 = h.setWidth 8 then some 1
  else if ft.e2 = h.setWidth 8 then some 2
  else if ft.e3 = h.setWidth 8 then some 3
  else if ft.e4 = h.setWidth 8 then some 4
  else if ft.e5 = h.setWidth 8 then some 5
  else if ft.e6 = h.setWidth 8 then some 6
  else if ft.e7 = h.setWidth 8 then some 7
  else if ft.e8 = h.setWidth 8 then some 8
  else none

/-- The NIB instruction of a flag index (R64). -/
def nibInstr (k : Fin 9) (p : Nibble) : Instr :=
  match k with
  | 0 => .nib0 p
  | 1 => .nib1 p
  | 2 => .nib2 p
  | 3 => .nib3 p
  | 4 => .nib4 p
  | 5 => .nib5 p
  | 6 => .nib6 p
  | 7 => .nib7 p
  | 8 => .nib8 p

/-- How many bytes the operation takes, known from its context and its first byte (R62). -/
def opLength (c : Context) (b : Byte) : Nat :=
  match c with
  | .command => 4
  | .control => 1
  | .slot true _ => 1
  | .slot false ft => if (flagIndex ft (hi b)).isSome then 1 else 2

/-- The command that a CTRL write starts (R11). -/
def decodeCommand (w : Word) : Except Reject Instr :=
  if ctrlStart w then
    if ctrlMode w = 0#2 then .ok (.cmdDecode (ctrlExpValid w))
    else if ctrlMode w = 1#2 then .ok (.cmdEncode (ctrlExpValid w))
    else .ok (.cmdReserved (ctrlMode w) (ctrlExpValid w))
  else .error .notAStart

/-- A special operation (control bit 0): NIB where the high nibble is in the flag table, else BREF,
whose encoded offset is `lo(b) ++ b2` (R62, R64, R65). -/
def decodeSpecial (ft : FlagTable) (b : Byte) (rest : List Byte) : Except Reject (Instr × List Byte) :=
  match flagIndex ft (hi b) with
  | some k => .ok (nibInstr k (lo b), rest)
  | none =>
    match rest with
    | [] => .error .missingSecondByte
    | b2 :: rest' => .ok (.bref (hi b) (lo b ++ b2), rest')

/-- The instruction at the head of `bytes` in context `c`, and the bytes after it. -/
def decode (c : Context) (bytes : List Byte) : Except Reject (Instr × List Byte) :=
  match c, bytes with
  | .command, b0 :: b1 :: b2 :: b3 :: rest =>
    match decodeCommand (wordOfBytes b0 b1 b2 b3) with
    | .ok i => .ok (i, rest)
    | .error r => .error r
  | .command, _ => .error .shortCommandWord
  | .control, b :: rest => .ok (.ctrl b, rest)
  | .slot true _, b :: rest => .ok (.lit b, rest)
  | .slot false ft, b :: rest => decodeSpecial ft b rest
  | .control, [] => .error .noByte
  | .slot _ _, [] => .error .noByte

/-! ## Encoding -/

/-- The byte of a NIB: the flag table's value at the index, then the payload (R64, R153). -/
def nibByte (ft : FlagTable) (k : Fin 9) (p : Nibble) : Byte :=
  joinNibbles ((ft.get k).setWidth 4) p

/-- The two bytes of a BREF, the high part of the offset in the first (R65, R44(b)). -/
def brefBytes (d : Nibble) (x : BitVec 12) : List Byte :=
  [joinNibbles d (x.extractLsb' 8 4), x.extractLsb' 0 8]

/-- The bytes of an instruction under a flag table (a command's table does not matter). -/
def encode (ft : FlagTable) (i : Instr) : List Byte :=
  match i with
  | .ctrl c => [c]
  | .lit v => [v]
  | .nib0 p => [nibByte ft 0 p]
  | .nib1 p => [nibByte ft 1 p]
  | .nib2 p => [nibByte ft 2 p]
  | .nib3 p => [nibByte ft 3 p]
  | .nib4 p => [nibByte ft 4 p]
  | .nib5 p => [nibByte ft 5 p]
  | .nib6 p => [nibByte ft 6 p]
  | .nib7 p => [nibByte ft 7 p]
  | .nib8 p => [nibByte ft 8 p]
  | .bref d x => brefBytes d x
  | .cmdDecode e => wordBytes (ctrlWord true 0#2 e)
  | .cmdEncode e => wordBytes (ctrlWord true 1#2 e)
  | .cmdReserved m e => wordBytes (ctrlWord true m e)

/-- The flag table in force in a context; a context without one gets a table that is never read. -/
def Context.table (c : Context) : FlagTable :=
  match c with
  | .command => ⟨0, 0, 0, 0, 0, 0, 0, 0, 0⟩
  | .control => ⟨0, 0, 0, 0, 0, 0, 0, 0, 0⟩
  | .slot _ ft => ft

/-! ## Words of the opcode table

A table row does not say in which context its word stands (the "select" text does), so one is
chosen here, the same for `decodeTableWord` and for `State.withFetchWord` (log entry 8). -/

/-- The table `[1, 2, ..., 9]`, the encoder's table when no match is taken (R124, R157). -/
def tableF9 : FlagTable := ⟨1, 2, 3, 4, 5, 6, 7, 8, 9⟩

/-- A table none of whose entries is a nibble: every special operation is a BREF (R186(a)). -/
def tableNone : FlagTable := ⟨0xFF, 0xFF, 0xFF, 0xFF, 0xFF, 0xFF, 0xFF, 0xFF, 0xFF⟩

/-- The context a table word of `nbits` bits is read in (log entry 8): 32 bits, or 8 bits with bit 0
set (the three bits the table fixes of a command, the bits above them 0), a CTRL write; 16 bits a
BREF; an even byte by its high nibble: 0 a control byte, 1..9 a special operation under `tableF9`,
10..15 a literal. -/
def tableContext (nbits w : Nat) : Context :=
  if nbits ≤ 8 then
    if w % 2 = 1 then .command
    else if w / 16 % 16 = 0 then .control
    else if w / 16 % 16 ≤ 9 then .slot false tableF9
    else .slot true tableF9
  else if nbits ≤ 16 then .slot false tableNone
  else .command

/-- The bytes of a table word as the hardware stores them, zeros after them up to the longest
instruction of the context: a register word little-endian (R44(d)); of a BREF the bits 15:8 first
(the table's "byte_order"; R44(b)). -/
def tableBytes (nbits w : Nat) : List Byte :=
  match tableContext nbits w with
  | .command => wordBytes (BitVec.ofNat 32 w)
  | .control => [BitVec.ofNat 8 w, 0]
  | .slot _ _ =>
    if nbits ≤ 8 then [BitVec.ofNat 8 w, 0] else [BitVec.ofNat 8 (w / 256), BitVec.ofNat 8 w]

/-- The instruction the decoder reads from a table word. -/
def decodeTableWord (nbits w : Nat) : Option Instr :=
  match decode (tableContext nbits w) (tableBytes nbits w) with
  | .ok (i, _) => some i
  | .error _ => none

end Sys2Proof
end

