-- ==== Sys2Proof/Machine/State.lean ====
section
/-! DEFINITION. The state of one PX codec engine with its host: the register file (R10 to R19), the
two buffers (R40), the engine's internal state (R20 to R22, R27), the host's moves still to come
(R6, R51) and the model's own counters of free values. Plain data throughout. -/

namespace Sys2Proof.Machine

/-- A buffer: pairs of address and byte, addresses strictly rising. An address that is not listed
holds no value: nothing has written it since reset (R53). -/
abbrev Memory := List Host.Cell

/-- The engine phase: IDLE, or within RUN one of the sub-states of R27. -/
inductive Phase where
  | idle
  | decCtrl
  | decSlot
  | decCopy
  | encParse
  | encCheck
  | encEmit
deriving DecidableEq, Repr

/-- An entry of OPBUF: "`LIT(byte)`, `NIB(f, p)` with `f` the flag index, or `BREF(length, offset)`" (R147). -/
inductive Op where
  | lit (v : Byte)
  | nib (f : Fin 9) (p : Nibble)
  | bref (length offset : Nat)
deriving DecidableEq, Repr

/-- A move of the host (R51), or a turn given to the engine. The list of moves in the state says
which agent moves next (log entry 4). -/
inductive Move where
  /-- Write `value` to REG at a byte offset, with an access width in bytes (R45). -/
  | regWrite (offset width : Nat) (value : Word)
  /-- Read REG at a byte offset, with an access width in bytes (R45). -/
  | regRead (offset width : Nat)
  /-- Write a byte of the IN buffer (R40). -/
  | inWrite (a : Nat) (v : Byte)
  /-- Read a byte of the IN buffer (R40). -/
  | inRead (a : Nat)
  /-- Write a byte of the OUT buffer (R40). -/
  | outWrite (a : Nat) (v : Byte)
  /-- Read a byte of the OUT buffer (R40). -/
  | outRead (a : Nat)
  /-- Assert reset (R250). -/
  | reset
  /-- The host does nothing and the engine takes one step. -/
  | engineTurn
  /-- The host polls until STATUS.BUSY = 0 (R206). -/
  | waitIdle
  /-- The host polls until STATUS shows DONE = 1 and BUSY = 0 (R233). -/
  | waitDone
deriving DecidableEq, Repr

/-- The whole state. -/
structure State where
  /-- The implementation parameters (R5); no step changes them. -/
  cfg : Config
  /-- CTRL, offset 0x00 (R11). START is never stored: it reads 0. -/
  ctrl : Word
  /-- STATUS, offset 0x04 (R12). -/
  status : Word
  /-- IN_LEN, offset 0x08 (R13). -/
  inLen : Word
  /-- EXP_LEN, offset 0x0C (R14). -/
  expLen : Word
  /-- OUT_LEN, offset 0x10 (R15). -/
  outLen : Word
  /-- IN_POS, offset 0x14 (R16). -/
  inPos : Word
  /-- ERR_POS, offset 0x18 (R17). -/
  errPos : Word
  /-- LSET, offset 0x1C (R18). -/
  lset : Word
  /-- FLAGS0, offset 0x20 (R19). -/
  flags0 : Word
  /-- FLAGS1, offset 0x24 (R19). -/
  flags1 : Word
  /-- FLAGS2, offset 0x28 (R19). -/
  flags2 : Word
  /-- The IN buffer (R40). -/
  inBuf : Memory
  /-- The OUT buffer (R40). -/
  outBuf : Memory
  /-- The engine phase (R27). -/
  phase : Phase
  /-- MODE as latched at START (R23). -/
  mode : BitVec 2
  /-- The decoder's input cursor, the stream's program counter (R20). -/
  ip : Word
  /-- Bytes appended to OUT (R21). -/
  olen : Word
  /-- The current control byte, `ctrl` in R21. -/
  ctrlByte : Byte
  /-- The next operation slot, 0..8 (R21). -/
  slot : Nat
  /-- The flag table latched at START (R21). -/
  ft : FlagTable
  /-- CTRL.EXP_VALID as latched (R21). -/
  xv : Bool
  /-- EXP_LEN as latched (R21). -/
  xl : Word
  /-- IN_LEN as latched (R21). -/
  il : Word
  /-- IN address of the first byte of the operation in progress (R21). -/
  opstart : Word
  /-- Base address of the copy in progress (R21, R179). -/
  copyBase : Word
  /-- Offset of the copy in progress, 1..4096 (R21). -/
  copyOffset : BitVec 13
  /-- Length of the copy in progress, 3..18 (R21). -/
  copyLength : BitVec 5
  /-- Bytes already copied (R21). -/
  copyCount : BitVec 5
  /-- IN address of the next byte to encode (R22). -/
  pos : Word
  /-- IN_LEN as latched by ENCODE (R22). -/
  n : Word
  /-- The LengthSet, bit `v` set iff `v ∈ LS` (R22, R120). -/
  ls : BitVec 16
  /-- The operation list (R22, R147). -/
  opbuf : List Op
  /-- The final ControlFlags (R22, R124). -/
  cf : Nine Nibble
  /-- The host's moves still to come, the next one first (log entry 4). -/
  schedule : List Move
  /-- What the host's last read returned (log entry 4). -/
  readData : Option Word
  /-- How many free values host reads have drawn: the model's own (log entry 5). -/
  draws : Nat
  /-- How many ENCODE commands have started: the model's own index of ANY_VALID results (log entry 7). -/
  encodes : Nat
deriving DecidableEq, Repr

/-- `nops`, the number of entries in OPBUF (R22), a view of `opbuf`. -/
def State.nops (s : State) : Nat := s.opbuf.length

/-- Why the machine stops with a fault. -/
inductive Fault where
  /-- The engine read an IN byte that the host has not written since reset (R53, X6). Safe. -/
  | unwrittenIn (a : Nat)
  /-- The engine read an OUT byte that nothing has written since reset; R43 says no command does.
  Raised by a back-reference copy in states that no run reaches. Safe. -/
  | unwrittenOut (a : Nat)
  /-- A host access to REG at or above offset 0x40: the space has 64 bytes (R40). Safe. -/
  | noSuchRegister (offset : Nat)
  /-- A host access to IN at or above IN_CAP (R40). Safe. -/
  | noSuchInAddress (a : Nat)
  /-- A host access to OUT at or above OUT_CAP (R40). Safe. -/
  | noSuchOutAddress (a : Nat)
deriving DecidableEq, Repr

/-- Why the machine has no transition. -/
inductive Refusal where
  /-- The instruction has no meaning yet; raised by exec's arms alone. Safe. -/
  | notModelled (mnemonic : String)
  /-- A host access to REG of another width than 32 bits or at an offset that is not a multiple
  of 4: "a model refuses it" (R45, X8). Safe. -/
  | badRegAccess (offset width : Nat)
  /-- A host access to IN, or a host write of OUT, while BUSY: "a model gives it no move"
  (R50, R51, R255). Safe. -/
  | bufferAccessWhileBusy
deriving DecidableEq, Repr

/-- The three outcomes of a step. -/
abbrev Result := Host.Outcome State Fault Refusal

/-- What part of an operation leaves behind: the operation goes on, the command has ended, or the
machine faults. -/
inductive Flow where
  | go (s : State)
  | ended (s : State)
  | fault (f : Fault)
deriving DecidableEq, Repr

/-- The machine right after reset (R26): every register 0, the engine IDLE, both buffers unwritten.
The internal state is "unspecified; not observable": 0 here (log entry 9, DESIGN CHOICE). No host
move is waiting. -/
def State.reset : State where
  cfg := Config.initial
  ctrl := 0
  status := 0
  inLen := 0
  expLen := 0
  outLen := 0
  inPos := 0
  errPos := 0
  lset := 0
  flags0 := 0
  flags1 := 0
  flags2 := 0
  inBuf := []
  outBuf := []
  phase := .idle
  mode := 0
  ip := 0
  olen := 0
  ctrlByte := 0
  slot := 0
  ft := ⟨0, 0, 0, 0, 0, 0, 0, 0, 0⟩
  xv := false
  xl := 0
  il := 0
  opstart := 0
  copyBase := 0
  copyOffset := 0
  copyLength := 0
  copyCount := 0
  pos := 0
  n := 0
  ls := 0
  opbuf := []
  cf := ⟨0, 0, 0, 0, 0, 0, 0, 0, 0⟩
  schedule := []
  readData := none
  draws := 0
  encodes := 0

end Sys2Proof.Machine
end

