-- ==== Sys2Proof/Machine/Flags.lean ====
section
/-! DEFINITION. The status flags (R12, R28): the STATUS word's fields, its value at START and at the
two ends of a command, and the length-mismatch warning. The engine has no condition codes. -/

namespace Sys2Proof.Machine

/-- The error codes of R221. Codes 8 to 15 are reserved and have no constructor. -/
def errNone : BitVec 4 := 0
/-- Code 1, raised by DECODE at a BREF's second byte (R222). -/
def errTruncatedInput : BitVec 4 := 1
/-- Code 2, raised by DECODE at a BREF's offset check (R223). -/
def errInvalidBackref : BitVec 4 := 2
/-- Code 3, raised by ENCODE's size check (R224). -/
def errSizeOverflow : BitVec 4 := 3
/-- Code 4, raised by DECODE's Append and ENCODE's capacity check (R229). -/
def errOutputOverflow : BitVec 4 := 4
/-- Code 5, raised at START when IN_LEN > IN_CAP (R228). -/
def errInputOverflow : BitVec 4 := 5
/-- Code 6, raised at START with MODE 2 or 3 (R225). -/
def errBadCommand : BitVec 4 := 6
/-- Code 7, raised at START of DECODE with `STRICT_FLAGS` (R226). -/
def errBadFlagTable : BitVec 4 := 7

/-- STATUS.BUSY, bit 0 (R12). -/
def statusBusy (w : Word) : Bool := w.getLsbD 0

/-- STATUS.DONE, bit 1 (R12). -/
def statusDone (w : Word) : Bool := w.getLsbD 1

/-- STATUS.WARN_LEN, bit 2 (R12). -/
def statusWarn (w : Word) : Bool := w.getLsbD 2

/-- STATUS.ERR, bits 11:8 (R12). -/
def statusErr (w : Word) : BitVec 4 := w.extractLsb' 8 4

/-- STATUS from START on: BUSY = 1, all else 0 (R12, R23). -/
def statusStarted : Word := 0x00000001#32

/-- STATUS at the end of a command: BUSY = 0, DONE = 1, WARN_LEN and ERR as given, reserved bits 0
(R12, R231, R232). -/
def statusEnded (warn : Bool) (err : BitVec 4) : Word :=
  (0#20) ++ err ++ (0#5) ++ (BitVec.ofBool warn) ++ (0b10#2)

/-- STATUS.BUSY of the state. -/
def State.busy (s : State) : Bool := statusBusy s.status

/-- STATUS.DONE of the state. -/
def State.done (s : State) : Bool := statusDone s.status

/-- The command has ended: STATUS reads BUSY = 0 and DONE = 1 (R260). -/
def State.ended (s : State) : Bool := !s.busy && s.done

/-- The expected length was supplied and is reached (R172, R180). -/
def State.expReached (s : State) : Bool := s.xv && decide (s.olen = s.xl)

/-- The input is exhausted (R172). -/
def State.inputDone (s : State) : Bool := decide (s.ip = s.il)

/-- WARN_LEN of a decode that ends because its input is exhausted: an expected length was supplied
and not reached (R181, R227). -/
def State.lengthMismatch (s : State) : Bool := s.xv && decide (s.olen.toNat < s.xl.toNat)

/-- The stop tests made before every control byte and before every operation: `some w` when the
command ends with `finish(w)`, the expected length first (R172, R181, R182). -/
def State.stopTest (s : State) : Option Bool :=
  if s.expReached then some false
  else if s.inputDone then some s.lengthMismatch
  else none

end Sys2Proof.Machine
end

