-- ==== Sys2Proof/Machine/Operands.lean ====
section
/-! DEFINITION. Operand forms: a back-reference's length and offset (R66, R67), the flag-table
packing of FLAGS0..2 (R19), the flag table's contract (R186, R226), the control bit of a slot
(R61), and the nibble arithmetic modulo 16 (R7). -/

namespace Sys2Proof.Machine

/-- `length = hi(b) + 3`, 3..18 (R67). -/
def brefLength (d : Nibble) : Nat := d.toNat + 3

/-- `offset = 4096 − (lo(b) ++ b2)`, 1..4096 (R66). -/
def brefOffset (x : BitVec 12) : Nat := 4096 - x.toNat

/-- The length delta of a length, `d = length − 3` (R65). -/
def lengthDelta (length : Nat) : Nibble := BitVec.ofNat 4 (length - 3)

/-- The encoded offset `x = 4096 − offset` (R65, R154). -/
def encodedOffset (offset : Nat) : BitVec 12 := BitVec.ofNat 12 (4096 - offset)

/-- Byte `i` of a register word, byte 0 = bits 7:0 (R44(d)). -/
def wordByte (w : Word) (i : Nat) : Byte := w.extractLsb' (8 * i) 8

/-- The nine flag entries of the FLAGS registers (R19). -/
def flagEntries (flags0 flags1 flags2 : Word) : FlagTable :=
  ⟨wordByte flags0 0, wordByte flags0 1, wordByte flags0 2, wordByte flags0 3,
   wordByte flags1 0, wordByte flags1 1, wordByte flags1 2, wordByte flags1 3,
   wordByte flags2 0⟩

/-- FLAGS0 = F[3] ++ F[2] ++ F[1] ++ F[0] (R19). -/
def packFlags0 (t : FlagTable) : Word := wordOfBytes t.e0 t.e1 t.e2 t.e3

/-- FLAGS1 = F[7] ++ F[6] ++ F[5] ++ F[4] (R19). -/
def packFlags1 (t : FlagTable) : Word := wordOfBytes t.e4 t.e5 t.e6 t.e7

/-- FLAGS2 bits 7:0 = F[8], bits 31:8 zero (R19). -/
def packFlags2 (t : FlagTable) : Word := t.e8.setWidth 32

/-- A ControlFlags table as flag entries, each nibble zero-extended to a byte (R19, R124). -/
def flagTableOfNibbles (cf : Nine Nibble) : FlagTable := cf.map (fun v => v.setWidth 8)

/-- The table meets the source's contract: nine distinct values 0..15 (R186). -/
def legalFlags (t : FlagTable) : Bool :=
  t.toList.all (fun v => decide (v.toNat ≤ 15)) && decide t.toList.Nodup

/-- The control bit of slot `i`, `ctrl[7 − i]` (R61, R174). -/
def slotBit (ctrlByte : Byte) (slot : Nat) : Bool := ctrlByte.getLsbD (7 - slot)

/-- `p +4 1` (R7). -/
def nibbleInc (p : Nibble) : Nibble := p + 1#4

/-- `p -4 1` (R7). -/
def nibbleDec (p : Nibble) : Nibble := p - 1#4

end Sys2Proof.Machine
end

