-- ==== Sys2Proof/Machine/Ops.lean ====
section
/-! DEFINITION. The named operations over the buffers, the cursor, the output and the registers, and
the two ends of a command: `raise` (the engine's exception entry, R231) and `finish` (R232). There is
no return from an exception (R234): after either end the engine is IDLE and the next START runs
independently. -/

namespace Sys2Proof.Machine

/-! ## Buffers -/

/-- The byte at address `a`, none where nothing has been written (R53). -/
def Memory.read (m : Memory) (a : Nat) : Option Byte :=
  match m with
  | [] => none
  | (b, v) :: rest => if a = b then some v else Memory.read rest a

/-- Write `v` at address `a`, keeping addresses strictly rising. -/
def Memory.write (m : Memory) (a : Nat) (v : Byte) : Memory :=
  match m with
  | [] => [(a, v)]
  | (b, w) :: rest =>
    if a < b then (a, v) :: (b, w) :: rest
    else if a = b then (a, v) :: rest
    else (b, w) :: Memory.write rest a v

/-- The canonical form: addresses strictly rising. -/
abbrev Memory.wf (m : Memory) : Prop := List.Pairwise (fun x y : Host.Cell => x.1 < y.1) m

/-- Every listed address is below `cap`. -/
def Memory.below (m : Memory) (cap : Nat) : Bool := m.all (fun c => decide (c.1 < cap))

/-- The bytes at addresses `a .. a+k−1`, or the first address among them that holds no value. -/
def Memory.readBytes (m : Memory) (a k : Nat) : Except Nat (List Byte) :=
  match k with
  | 0 => .ok []
  | k + 1 =>
    match Memory.read m a with
    | none => .error a
    | some v =>
      match Memory.readBytes m (a + 1) k with
      | .ok vs => .ok (v :: vs)
      | .error b => .error b

/-- A buffer that holds the bytes `vs` from address `a` on. -/
def Memory.ofBytes (a : Nat) (vs : List Byte) : Memory :=
  match vs with
  | [] => []
  | v :: rest => (a, v) :: Memory.ofBytes (a + 1) rest

/-! ## The two ends of a command -/

/-- The end of a command (R231, R232): STATUS gets BUSY = 0, DONE = 1, WARN_LEN and ERR; ERR_POS,
OUT_LEN and IN_POS are written and the engine returns to IDLE. -/
def State.endCommand (s : State) (warn : Bool) (err : BitVec 4) (errPos outLen inPos : Word) : State :=
  { s with
    status := statusEnded warn err
    errPos := errPos
    outLen := outLen
    inPos := inPos
    phase := .idle }

/-- `raise E(p)`, taking an exception (R231): ERR = the code of E, WARN_LEN = 0, ERR_POS <- `p`;
OUT_LEN and IN_POS as the cause's rule says. There is no vector: the engine returns to IDLE. -/
def State.raise (s : State) (err : BitVec 4) (p outLen inPos : Word) : State :=
  s.endCommand false err p outLen inPos

/-- `finish(w)` (R232): WARN_LEN = `w`, ERR = 0, ERR_POS <- 0. -/
def State.finish (s : State) (w : Bool) (outLen inPos : Word) : State :=
  s.endCommand w errNone 0 outLen inPos

/-- An error of DECODE: ERR_POS = the operation's first byte, OUT_LEN = `olen`, IN_POS = `ip`
(R172, R222, R223, R229). -/
def State.raiseDecode (s : State) (err : BitVec 4) : State := s.raise err s.opstart s.olen s.ip

/-- A successful end of DECODE: OUT_LEN = `olen`, IN_POS = `ip` (R172, R232). -/
def State.finishDecode (s : State) (w : Bool) : State := s.finish w s.olen s.ip

/-- An ENCODE size or capacity error: ERR_POS = IN_POS = IN_LEN, OUT_LEN = 0 (R224, R229). -/
def State.raiseEncode (s : State) (err : BitVec 4) : State := s.raise err s.n 0 s.n

/-! ## The cursor and the slots -/

/-- `ip <- ip + k` after `k` stream bytes are read (R20). -/
def State.advance (s : State) (k : Word) : State := { s with ip := s.ip + k }

/-- The slot loop of R172: the next slot, or after slot 7 the next control byte (R174). -/
def State.nextSlot (s : State) : State :=
  { s with
    slot := if s.slot + 1 < Config.group then s.slot + 1 else Config.group
    phase := if s.slot + 1 < Config.group then .decSlot else .decCtrl }

/-! ## Appending output -/

/-- `MemWrite(OUT, olen, 1, v); olen <- olen + 1; OUT_LEN <- olen` (R42, R151, R180). -/
def State.putByte (s : State) (v : Byte) : State :=
  { s with
    outBuf := Memory.write s.outBuf s.olen.toNat v
    olen := s.olen + 1
    outLen := s.olen + 1 }

/-- `Append(v)`, the only way the decoder writes OUT: the expected length first, then the capacity (R180). -/
def append (v : Byte) (s : State) : Flow :=
  if s.expReached then .ended (s.finishDecode false)
  else if s.olen.toNat = s.cfg.outCap then .ended (s.raiseDecode errOutputOverflow)
  else .go (s.putByte v)

/-- Go on with `f` where the command has not ended. -/
def Flow.andThen (x : Flow) (f : State → Flow) : Flow :=
  match x with
  | .go s => f s
  | .ended s => .ended s
  | .fault r => .fault r

/-- The end of an operation: the next slot, unless the command has ended. -/
def Flow.endOp (x : Flow) : Result :=
  match x with
  | .go s => .next s.nextSlot
  | .ended s => .next s
  | .fault r => .fault r

/-! ## The back-reference copy (R179) -/

/-- The copy's base address, fixed at its start, its offset, its length, and no byte copied yet. -/
def State.beginCopy (s : State) (offset length : Nat) : State :=
  { s with
    phase := .decCopy
    copyBase := s.olen - BitVec.ofNat 32 offset
    copyOffset := BitVec.ofNat 13 offset
    copyLength := BitVec.ofNat 5 length
    copyCount := 0 }

/-- The source address of the copy's next byte, `base + (j mod offset)`. -/
def State.copySource (s : State) : Nat :=
  s.copyBase.toNat + s.copyCount.toNat % s.copyOffset.toNat

/-- One more byte is copied. -/
def State.countCopy (s : State) : State := { s with copyCount := s.copyCount + 1 }

/-- `Append(MemRead(OUT, base + (j mod offset), 1))`. -/
def copyByte (s : State) : Flow :=
  match Memory.read s.outBuf s.copySource with
  | none => .fault (.unwrittenOut s.copySource)
  | some v => (append v s).andThen (fun t => .go t.countCopy)

/-- The copy's next `k` bytes. -/
def copyBytes (k : Nat) (s : State) : Flow :=
  match k with
  | 0 => .go s
  | k + 1 => (copyByte s).andThen (copyBytes k)

/-- The bytes the copy in progress still has to append. -/
def State.copyLeft (s : State) : Nat := s.copyLength.toNat - s.copyCount.toNat

/-- The copy in progress, to its end, and then the next slot. -/
def finishCopy (s : State) : Result := (copyBytes s.copyLeft s).endOp

/-! ## Emitting the encoder's stream (R151) -/

/-- `emit` of every byte of a list, in order. -/
def emitBytes (vs : List Byte) (s : State) : State :=
  match vs with
  | [] => s
  | v :: rest => emitBytes rest (s.putByte v)

end Sys2Proof.Machine
end

