-- ==== Sys2Proof/Machine/Commands.lean ====
section
/-! DEFINITION. The meanings of the three commands: a write of CTRL with START = 1 (R11, R23, R230). -/

namespace Sys2Proof.Machine

/-- CTRL after a write that is not ignored: MODE and EXP_VALID as written, START reads 0 (R11). -/
def State.writeCtrl (s : State) (mode : BitVec 2) (expValid : Bool) : State :=
  { s with ctrl := ctrlWord false mode expValid }

/-- What START writes and latches, in one step (R23). -/
def State.latch (s : State) (mode : BitVec 2) (expValid : Bool) : State :=
  { s with
    ctrl := ctrlWord false mode expValid
    status := statusStarted
    outLen := 0
    inPos := 0
    errPos := 0
    mode := mode
    xv := expValid
    xl := s.expLen
    il := s.inLen
    ft := flagEntries s.flags0 s.flags1 s.flags2 }

/-- An error found at START: ERR_POS = IN_POS = OUT_LEN = 0 (R225, R226, R228). -/
def State.raiseStart (s : State) (err : BitVec 4) : State := s.raise err 0 0 0

/-- The start checks of DECODE and ENCODE after BAD_COMMAND: INPUT_OVERFLOW, then BAD_FLAG_TABLE for
DECODE with `STRICT_FLAGS` (R230). -/
def startCheck (s : State) : Option (BitVec 4) :=
  if s.cfg.inCap < s.il.toNat then some errInputOverflow
  else if s.mode = 0#2 ∧ s.cfg.strictFlags = true ∧ legalFlags s.ft = false then some errBadFlagTable
  else none

/-- DECODE begins: `ip <- 0`, `olen <- 0`, DEC_CTRL (R171). -/
def State.beginDecode (s : State) : State :=
  { s with ip := 0, olen := 0, phase := .decCtrl }

/-- ENCODE begins: `n <- il`, `pos <- 0`, OPBUF empty, `LS <- {0, 15}`, LSET <- 0x00008001,
ENC_PARSE (R141). The encoder's scratch is its own (R257). -/
def State.beginEncode (s : State) : State :=
  { s with
    n := s.il
    pos := 0
    opbuf := []
    ls := Config.lsSeed
    lset := Config.lsSeed.setWidth 32
    phase := .encParse
    encodes := s.encodes + 1 }

/-- CMD.DECODE (R170, R171, R230); while BUSY the write is ignored (R11, R25). -/
def execCmdDecode (expValid : Bool) (s : State) : Result :=
  if s.busy then .next s
  else
    let t := s.latch 0#2 expValid
    match startCheck t with
    | some err => .next (t.raiseStart err)
    | none => .next t.beginDecode

/-- CMD.ENCODE (R140, R141, R230); while BUSY the write is ignored (R11, R25). -/
def execCmdEncode (expValid : Bool) (s : State) : Result :=
  if s.busy then .next s
  else
    let t := s.latch 1#2 expValid
    match startCheck t with
    | some err => .next (t.raiseStart err)
    | none => .next t.beginEncode

/-- CMD.RESERVED: BAD_COMMAND, checked first (R225, R230); while BUSY the write is ignored (R11, R25). -/
def execCmdReserved (mode : BitVec 2) (expValid : Bool) (s : State) : Result :=
  if s.busy then .next s
  else .next ((s.latch mode expValid).raiseStart errBadCommand)

end Sys2Proof.Machine
end

