-- ==== Sys2Proof/Machine/Lut.lean ====
section
/-! DEFINITION. The nibble-pattern LUT and its inverse (40_nibble_lut.md). -/

namespace Sys2Proof.Machine

/-- The four nibbles `n0, n1, n2, n3` of flag index `f` and payload `p` (R81 to R89). -/
def expandNibbles (f : Fin 9) (p : Nibble) : Nibble × Nibble × Nibble × Nibble :=
  match f with
  | 0 => (p, p, p, p)
  | 1 => (nibbleInc p, nibbleInc p, nibbleInc p, nibbleInc p)
  | 2 => (p, nibbleDec p, p, p)
  | 3 => (p, p, nibbleDec p, p)
  | 4 => (p, p, p, nibbleDec p)
  | 5 => (nibbleDec p, nibbleDec p, nibbleDec p, nibbleDec p)
  | 6 => (p, nibbleInc p, p, p)
  | 7 => (p, p, nibbleInc p, p)
  | 8 => (p, p, p, nibbleInc p)

/-- `b0 = n0 ++ n1`, `b1 = n2 ++ n3` (R80). -/
def packNibbles (n : Nibble × Nibble × Nibble × Nibble) : Byte × Byte :=
  (joinNibbles n.1 n.2.1, joinNibbles n.2.2.1 n.2.2.2)

/-- `expand(f, p) -> (b0, b1)` (R80). -/
def expand (f : Fin 9) (p : Nibble) : Byte × Byte := packNibbles (expandNibbles f p)

/-- The one test of R90 at odd position `k`, the three others being equal to `n0`: one less gives
index `k + 1`, one more gives index `k + 5`. -/
def classifyOdd (n0 nk : Nibble) (less more : Fin 9) : Option (Fin 9 × Nibble) :=
  if nk = nibbleDec n0 then some (less, n0)
  else if nk = nibbleInc n0 then some (more, n0)
  else none

/-- `classify` on the four nibbles (R90). -/
def classifyNibbles (n0 n1 n2 n3 : Nibble) : Option (Fin 9 × Nibble) :=
  if n1 = n0 ∧ n2 = n0 ∧ n3 = n0 then some (0, n0)
  else if n2 = n0 ∧ n3 = n0 then classifyOdd n0 n1 2 6
  else if n1 = n0 ∧ n3 = n0 then classifyOdd n0 n2 3 7
  else if n1 = n0 ∧ n2 = n0 then classifyOdd n0 n3 4 8
  else none

/-- `classify(b0, b1) -> none | (f, p)`, the encoder's inverse of `expand` (R90). -/
def classify (b0 b1 : Byte) : Option (Fin 9 × Nibble) :=
  classifyNibbles (hi b0) (lo b0) (hi b1) (lo b1)

end Sys2Proof.Machine
end

