-- ==== Sys2Proof/Machine/Nibbles.lean ====
section
/-! DEFINITION. The meanings of NIB0 to NIB8 (R176, with R81 to R89 through the LUT). -/

namespace Sys2Proof.Machine

/-- `Append(b0); Append(b1)` (R176). -/
def appendPair (b : Byte × Byte) (s : State) : Flow := (append b.1 s).andThen (append b.2)

/-- NIB with flag index `k`: its byte is read, its two bytes are appended, the next slot (R172, R176). -/
def nibOp (k : Fin 9) (p : Nibble) (s : State) : Result := (appendPair (expand k p) (s.advance 1)).endOp

/-- NIB0: all four nibbles equal `p` (R81, R176). -/
def execNib0 (p : Nibble) (s : State) : Result := nibOp 0 p s

/-- NIB1: all four nibbles `p +4 1` (R82, R176). -/
def execNib1 (p : Nibble) (s : State) : Result := nibOp 1 p s

/-- NIB2: nibble 1 is `p -4 1` (R83, R176). -/
def execNib2 (p : Nibble) (s : State) : Result := nibOp 2 p s

/-- NIB3: nibble 2 is `p -4 1` (R84, R176). -/
def execNib3 (p : Nibble) (s : State) : Result := nibOp 3 p s

/-- NIB4: nibble 3 is `p -4 1` (R85, R176). -/
def execNib4 (p : Nibble) (s : State) : Result := nibOp 4 p s

/-- NIB5: all four nibbles `p -4 1` (R86, R176). -/
def execNib5 (p : Nibble) (s : State) : Result := nibOp 5 p s

/-- NIB6: nibble 1 is `p +4 1` (R87, R176). -/
def execNib6 (p : Nibble) (s : State) : Result := nibOp 6 p s

/-- NIB7: nibble 2 is `p +4 1` (R88, R176). -/
def execNib7 (p : Nibble) (s : State) : Result := nibOp 7 p s

/-- NIB8: nibble 3 is `p +4 1` (R89, R176). -/
def execNib8 (p : Nibble) (s : State) : Result := nibOp 8 p s

end Sys2Proof.Machine
end

