-- ==== Sys2Proof/Machine/Stream.lean ====
section
/-! DEFINITION. The meanings of CTRL, LIT and BREF (R173, R175, R177 to R179). -/

namespace Sys2Proof.Machine

/-- CTRL: the control byte is read and its first slot is next (R172, R173). -/
def execCtrl (c : Byte) (s : State) : Result :=
  .next { s.advance 1 with ctrlByte := c, slot := 0, phase := .decSlot }

/-- LIT: the byte is read and appended (R175). -/
def execLit (v : Byte) (s : State) : Result := (append v (s.advance 1)).endOp

/-- A BREF whose second byte lies past the end of the input: its first byte has been read, and
TRUNCATED_INPUT is raised (R177, R222). -/
def truncatedBref (s : State) : Result := .next ((s.advance 1).raiseDecode errTruncatedInput)

/-- The offset check of R178. Its first disjunct never holds (R184). -/
def badOffset (offset : Nat) (s : State) : Bool := decide (offset = 0) || decide (s.olen.toNat < offset)

/-- BREF: the second byte is read (R177), the offset is checked (R178), the bytes are copied (R179). -/
def execBref (d : Nibble) (x : BitVec 12) (s : State) : Result :=
  if s.ip + 1 = s.il then truncatedBref s
  else
    let t := s.advance 2
    if badOffset (brefOffset x) t then .next (t.raiseDecode errInvalidBackref)
    else finishCopy (t.beginCopy (brefOffset x) (brefLength d))

end Sys2Proof.Machine
end

