-- ==== Sys2Proof/Machine/Dispatch.lean ====
section
/-! DEFINITION. One arm per instruction. -/

namespace Sys2Proof.Machine

def exec (i : Instr) (s : State) : Host.Outcome State Fault Refusal :=
  match i with
  | .ctrl c => Sys2Proof.Machine.execCtrl c s
  | .lit v => Sys2Proof.Machine.execLit v s
  | .nib0 p => Sys2Proof.Machine.execNib0 p s
  | .nib1 p => Sys2Proof.Machine.execNib1 p s
  | .nib2 p => Sys2Proof.Machine.execNib2 p s
  | .nib3 p => Sys2Proof.Machine.execNib3 p s
  | .nib4 p => Sys2Proof.Machine.execNib4 p s
  | .nib5 p => Sys2Proof.Machine.execNib5 p s
  | .nib6 p => Sys2Proof.Machine.execNib6 p s
  | .nib7 p => Sys2Proof.Machine.execNib7 p s
  | .nib8 p => Sys2Proof.Machine.execNib8 p s
  | .bref d x => Sys2Proof.Machine.execBref d x s
  | .cmdDecode e => Sys2Proof.Machine.execCmdDecode e s
  | .cmdEncode e => Sys2Proof.Machine.execCmdEncode e s
  | .cmdReserved m e => Sys2Proof.Machine.execCmdReserved m e s

end Sys2Proof.Machine
end

