-- ==== Sys2Proof/Machine/Decoder.lean ====
section
/-! DEFINITION. The decoder's main loop (R172), one pass a step, and the decoder as a function of a
stream (R8). -/

namespace Sys2Proof.Machine

/-- What the engine reads at its cursor. -/
inductive Fetched where
  /-- A whole instruction. -/
  | instr (i : Instr)
  /-- The first byte of a BREF at the end of the input (R72(b)). -/
  | truncated
  /-- An IN byte that nothing has written (R53). -/
  | fault (f : Fault)
deriving DecidableEq, Repr

/-- `MemRead(IN, ip + k, 1)` for the fetch (R41). -/
def State.streamByte (s : State) (k : Word) : Option Byte := Memory.read s.inBuf (s.ip + k).toNat

/-- The instruction that bytes give in a context. -/
def fetchedOf (c : Context) (bytes : List Byte) : Fetched :=
  match decode c bytes with
  | .ok (i, _) => .instr i
  | .error _ => .truncated

/-- Read the instruction at `ip`: its first byte, and its second where the first says there is one
and the input has it (R62, R172, R177). -/
def fetch (c : Context) (s : State) : Fetched :=
  match s.streamByte 0 with
  | none => .fault (.unwrittenIn s.ip.toNat)
  | some b =>
    if opLength c b = 1 then fetchedOf c [b]
    else if s.ip + 1 = s.il then .truncated
    else
      match s.streamByte 1 with
      | none => .fault (.unwrittenIn (s.ip + 1).toNat)
      | some b2 => fetchedOf c [b, b2]

/-- The context of a slot: its control bit and the latched flag table (R62, R171). -/
def State.slotContext (s : State) : Context := .slot (slotBit s.ctrlByte s.slot) s.ft

/-- `opstart <- ip` (R172). -/
def State.markOp (s : State) : State := { s with opstart := s.ip }

/-- Run what was fetched. -/
def runFetched (x : Fetched) (s : State) : Result :=
  match x with
  | .instr i => exec i s
  | .truncated => truncatedBref s
  | .fault f => .fault f

/-- DEC_CTRL: the stop tests, then a control byte (R172). -/
def decodeControl (s : State) : Result :=
  match s.stopTest with
  | some w => .next (s.finishDecode w)
  | none => runFetched (fetch .control s) s

/-- DEC_SLOT: the stop tests, then an operation (R172). -/
def decodeSlot (s : State) : Result :=
  match s.stopTest with
  | some w => .next (s.finishDecode w)
  | none => runFetched (fetch s.slotContext s) s.markOp

/-- One step of the decoder in its phase; no step in another phase. -/
def decoderStep (s : State) : Result :=
  match s.phase with
  | .decCtrl => decodeControl s
  | .decSlot => decodeSlot s
  | .decCopy => finishCopy s
  | .idle => .next s
  | .encParse => .next s
  | .encCheck => .next s
  | .encEmit => .next s

/-- At most `k` steps of the decoder, stopping when the command has ended. -/
def runDecoder (k : Nat) (s : State) : Result :=
  match k with
  | 0 => .next s
  | k + 1 =>
    match s.phase with
    | .idle => .next s
    | _ =>
      match decoderStep s with
      | .next t => runDecoder k t
      | .fault f => .fault f
      | .refused r => .refused r

/-! ## The decoder as a function (R8) -/

/-- The parameters under which the codec itself is run: buffers as large as 32-bit registers allow,
so that no capacity of an implementation enters the codec's own definition (R9). -/
def codecConfig : Config := { Config.initial with inCap := 2 ^ 32 - 1, outCap := 2 ^ 32 - 1 }

/-- An engine at the start of a DECODE of `C` with flag table `ft` and expected length `exp` (R170, R171). -/
def decodeSetup (C : List Byte) (ft : FlagTable) (exp : Option Nat) : State :=
  { State.reset with
    cfg := codecConfig
    status := statusStarted
    inBuf := Memory.ofBytes 0 C
    phase := .decCtrl
    ft := ft
    xv := exp.isSome
    xl := BitVec.ofNat 32 (exp.getD 0)
    il := BitVec.ofNat 32 C.length }

/-- The OUT bytes 0..OUT_LEN−1 of a state, none if one is unwritten. -/
def State.outBytes (s : State) : Option (List Byte) :=
  match Memory.readBytes s.outBuf 0 s.outLen.toNat with
  | .ok vs => some vs
  | .error _ => none

/-- `decompress(compressed, flags, expected_len)`: the decoded bytes and the warning, or the error
code (R8, R170). `none` only where the model faults. -/
def decompress (C : List Byte) (ft : FlagTable) (exp : Option Nat) : Option (Except (BitVec 4) (List Byte × Bool)) :=
  match runDecoder (C.length + 2) (decodeSetup C ft exp) with
  | .next t =>
    if t.done && decide (statusErr t.status = errNone) then t.outBytes.map (fun vs => .ok (vs, statusWarn t.status))
    else some (.error (statusErr t.status))
  | .fault _ => none
  | .refused _ => none

/-- The decoder returns exactly `D`, no error and no warning. -/
def decodesTo (C : List Byte) (ft : FlagTable) (exp : Option Nat) (D : List Byte) : Bool :=
  match decompress C ft exp with
  | some (.ok (vs, w)) => decide (vs = D) && !w
  | some (.error _) => false
  | none => false

/-- A valid encoder result for `D` (R9): nine distinct nibble values and at most 65535 bytes that the
decoder returns to `D`, with the expected length and without. -/
def validResult (cf : Nine Nibble) (C D : List Byte) : Bool :=
  decide cf.toList.Nodup && decide (C.length ≤ Config.maxCompressed) &&
  decodesTo C (flagTableOfNibbles cf) none D && decodesTo C (flagTableOfNibbles cf) (some D.length) D

end Sys2Proof.Machine
end

