-- ==== Sys2Proof/Machine/FlagAllocator.lean ====
section
/-! DEFINITION. The control-flag allocator (42_flag_allocator.md): the LengthSet as a 16-bit mask
and the final ControlFlags. -/

namespace Sys2Proof.Machine

/-- `v ∈ LS` (R120). -/
def lsMember (ls : BitVec 16) (v : Nat) : Bool := ls.getLsbD v

/-- `|LS|`. -/
def lsSize (ls : BitVec 16) : Nat := ((List.range 16).filter (lsMember ls)).length

/-- `LS ∪ {d}`. -/
def lsInsert (ls : BitVec 16) (d : Nat) : BitVec 16 := ls ||| (1#16 <<< d)

/-- `max { e ∈ LS : e ≤ d }`; 0 is always a member (R121, R122). -/
def clampDown (ls : BitVec 16) (d : Nat) : Nat :=
  match d with
  | 0 => 0
  | d + 1 => if lsMember ls (d + 1) then d + 1 else clampDown ls d

/-- `alloc(d) -> d'`, with the LengthSet after it (R121). -/
def alloc (ls : BitVec 16) (d : Nat) : BitVec 16 × Nat :=
  if lsMember ls d then (ls, d)
  else if lsSize ls < Config.lsCap then (lsInsert ls d, d)
  else (ls, clampDown ls d)

/-- The nibble values not in LS, ascending (R124). -/
def lsComplement (ls : BitVec 16) : List Nibble :=
  ((List.range 16).filter (fun v => !lsMember ls v)).map (BitVec.ofNat 4)

/-- `CF` = the first 9 values not in LS (R124). LS has at most 7 members, so there are 9. -/
def controlFlags (ls : BitVec 16) : Nine Nibble := Nine.ofList 0 (lsComplement ls)

end Sys2Proof.Machine
end

