-- ==== Sys2Proof/Machine/MatchFinder.lean ====
section
/-! DEFINITION. The sliding-window match finder (41_match_finder.md), over the latched input `D`. -/

namespace Sys2Proof.Machine

/-- `D[a]`; every read of the finder is at an address below `n` (R103). -/
def byteAt (D : List Byte) (a : Nat) : Byte := D.getD a 0

/-- Extend a match of length `L` at candidate `s` by at most `k` bytes while `D[s + L] == D[pos + L]`,
past `pos` too (R103, R104). -/
def extendMatch (D : List Byte) (s pos : Nat) (k L : Nat) : Nat :=
  match k with
  | 0 => L
  | k + 1 => if byteAt D (s + L) = byteAt D (pos + L) then extendMatch D s pos k (L + 1) else L

/-- The length of the match at candidate `s`: 0 where the 3-byte beginnings differ, else the
extension up to `maxlen` (R103). -/
def candidateLength (D : List Byte) (s pos maxlen : Nat) : Nat :=
  if byteAt D s = byteAt D pos ∧ byteAt D (s + 1) = byteAt D (pos + 1) ∧ byteAt D (s + 2) = byteAt D (pos + 2) then
    extendMatch D s pos (maxlen - Config.minMatch) Config.minMatch
  else 0

/-- The candidates `pos − k .. pos − 1` in ascending order, `best` = (offset, length) so far: a
strictly longer match replaces it, and the scan stops at length 18 (R101, R103, R105). -/
def scanWindow (D : List Byte) (pos maxlen : Nat) (k : Nat) (best : Nat × Nat) : Nat × Nat :=
  match k with
  | 0 => best
  | k + 1 =>
    let L := candidateLength D (pos - (k + 1)) pos maxlen
    if best.2 < L then
      if L = Config.maxMatch then (k + 1, L) else scanWindow D pos maxlen k (k + 1, L)
    else scanWindow D pos maxlen k best

/-- `find_match(pos) -> none | (offset, length)` (R100, R103). -/
def findMatch (D : List Byte) (pos : Nat) : Option (Nat × Nat) :=
  let maxlen := min Config.maxMatch (D.length - pos)
  if maxlen < Config.minMatch then none
  else
    let best := scanWindow D pos maxlen (min pos Config.window) (0, 0)
    if Config.minMatch ≤ best.2 then some best else none

end Sys2Proof.Machine
end

