-- ==== Sys2Proof/Machine/Encoder.lean ====
section
/-! DEFINITION. The encoder (43_encoder.md): the operation choices, the size formula, the stream's
bytes, and the three phases ENC_PARSE, ENC_CHECK and ENC_EMIT. -/

namespace Sys2Proof.Machine

/-! ## Choosing operations (R142 to R146) -/

/-- Input bytes an operation stands for: 1, 2, or the back-reference's length (R142). -/
def Op.width (o : Op) : Nat :=
  match o with
  | .lit _ => 1
  | .nib _ _ => 2
  | .bref length _ => length

/-- Choice 1, BREF: the match with its delta as the allocator allows it (R143). -/
def chooseBref (ls : BitVec 16) (m : Nat × Nat) : Op × BitVec 16 :=
  let a := alloc ls (m.2 - 3)
  (.bref (a.2 + 3) m.1, a.1)

/-- Choice 2, NIB0: the next two bytes' nibbles are all equal (R144). -/
def chooseNib0 (D : List Byte) (pos : Nat) : Option Op :=
  if pos + 2 ≤ D.length then
    match classify (byteAt D pos) (byteAt D (pos + 1)) with
    | some (f, p) => if f = 0 then some (.nib 0 p) else none
    | none => none
  else none

/-- Choice 3, NIB1..8: the inverse of the table, but for index 0 (R145). -/
def chooseNib (D : List Byte) (pos : Nat) : Option Op :=
  if pos + 2 ≤ D.length then
    match classify (byteAt D pos) (byteAt D (pos + 1)) with
    | some (f, p) => if f = 0 then none else some (.nib f p)
    | none => none
  else none

/-- Choice 4, LIT (R146). -/
def chooseLit (D : List Byte) (pos : Nat) : Op := .lit (byteAt D pos)

/-- The operation chosen at `pos`, in priority order, and the LengthSet after it (R142). -/
def chooseOp (D : List Byte) (pos : Nat) (ls : BitVec 16) : Op × BitVec 16 :=
  match findMatch D pos with
  | some m => chooseBref ls m
  | none =>
    match chooseNib0 D pos with
    | some o => (o, ls)
    | none =>
      match chooseNib D pos with
      | some o => (o, ls)
      | none => (chooseLit D pos, ls)

/-- The parse loop from `pos` on, at most `k` turns: the operations and the final LengthSet (R142). -/
def parseFrom (D : List Byte) (k pos : Nat) (ls : BitVec 16) : List Op × BitVec 16 :=
  match k with
  | 0 => ([], ls)
  | k + 1 =>
    if pos < D.length then
      let c := chooseOp D pos ls
      let r := parseFrom D k (pos + c.1.width) c.2
      (c.1 :: r.1, r.2)
    else ([], ls)

/-- The whole parse of `D`: the loop ends after at most `n` turns (R142). -/
def parse (D : List Byte) : List Op × BitVec 16 := parseFrom D D.length 0 Config.lsSeed

/-! ## The stream's bytes (R149, R151 to R155) -/

/-- An entry of OPBUF is a back-reference. -/
def Op.isBref (o : Op) : Bool :=
  match o with
  | .lit _ => false
  | .nib _ _ => false
  | .bref _ _ => true

/-- An entry of OPBUF is a literal. -/
def Op.isLit (o : Op) : Bool :=
  match o with
  | .lit _ => true
  | .nib _ _ => false
  | .bref _ _ => false

/-- The instruction that an operation is emitted as (R152 to R154). -/
def Op.toInstr (o : Op) : Instr :=
  match o with
  | .lit v => .lit v
  | .nib f p => nibInstr f p
  | .bref length offset => .bref (lengthDelta length) (encodedOffset offset)

/-- The bytes of one operation (R152 to R154). -/
def emitOp (ft : FlagTable) (o : Op) : List Byte := encode ft o.toInstr

/-- The control byte of a group: bit `7 − i` set exactly where operation `i` is a literal, bits of
missing slots 0 (R151, R155). -/
def controlByte (ops : List Op) : Byte :=
  let bit := fun i => (ops.map Op.isLit).getD i false
  BitVec.ofBool (bit 0) ++ BitVec.ofBool (bit 1) ++ BitVec.ofBool (bit 2) ++ BitVec.ofBool (bit 3) ++
  BitVec.ofBool (bit 4) ++ BitVec.ofBool (bit 5) ++ BitVec.ofBool (bit 6) ++ BitVec.ofBool (bit 7)

/-- A group flushed: its control byte and its operations; nothing for a group without operations (R151). -/
def flushGroup (ft : FlagTable) (ops : List Op) : List Byte :=
  match ops with
  | [] => []
  | o :: rest => controlByte (o :: rest) :: (o :: rest).flatMap (emitOp ft)

/-- "Operations are buffered in groups of 8, then flushed" (R151): `group` is the buffered group. -/
def emitGroups (ft : FlagTable) (group : List Op) (ops : List Op) : List Byte :=
  match ops with
  | [] => flushGroup ft group
  | o :: rest =>
    if group.length + 1 < Config.group then emitGroups ft (group ++ [o]) rest
    else flushGroup ft (group ++ [o]) ++ emitGroups ft [] rest

/-- The compressed stream of an operation list. -/
def emitStream (ft : FlagTable) (ops : List Op) : List Byte := emitGroups ft [] ops

/-- `nb`, the number of BREF entries (R149). -/
def brefCount (ops : List Op) : Nat := (ops.filter Op.isBref).length

/-- `total = ceil(nops / 8) + nops + nb` (R74, R149). -/
def streamSize (ops : List Op) : Nat := (ops.length + 7) / 8 + ops.length + brefCount ops

/-- The reference encoder's table and stream for `D` (R9, 43_encoder.md). -/
def referenceResult (D : List Byte) : Nine Nibble × List Byte :=
  let r := parse D
  let cf := controlFlags r.2
  (cf, emitStream (flagTableOfNibbles cf) r.1)

/-! ## The three phases -/

/-- The latched input `D[0..n−1]`, or the first address of it that holds no value (R53, R100). -/
def State.inputBytes (s : State) : Except Nat (List Byte) := Memory.readBytes s.inBuf 0 s.n.toNat

/-- One turn of the parse loop (R142): the operation is pushed and `pos` moves past it (R147). -/
def State.pushOp (s : State) (o : Op) (ls : BitVec 16) : State :=
  { s with
    opbuf := s.opbuf ++ [o]
    ls := ls
    pos := s.pos + BitVec.ofNat 32 o.width }

/-- The end of parsing (R148): CF from LS, LSET <- LS (R125), IN_POS <- `n`, ENC_CHECK. -/
def State.endParse (s : State) : State :=
  { s with
    cf := controlFlags s.ls
    lset := s.ls.setWidth 32
    inPos := s.n
    phase := .encCheck }

/-- ENC_PARSE on the input `D`. -/
def parseStep (D : List Byte) (s : State) : State :=
  if s.pos.toNat < s.n.toNat then
    let c := chooseOp D s.pos.toNat s.ls
    s.pushOp c.1 c.2
  else s.endParse

/-- ENC_PARSE (R142, R148); an unwritten input byte is a fault (R53). -/
def encParse (s : State) : Result :=
  match s.inputBytes with
  | .error a => .fault (.unwrittenIn a)
  | .ok D => .next (parseStep D s)

/-- The last writes of a successful ENCODE (R156): FLAGS <- CF, OUT_LEN <- `total`, `finish(0)`. -/
def State.publish (s : State) (cf : Nine Nibble) (total : Nat) : State :=
  let t := flagTableOfNibbles cf
  { s with
    flags0 := packFlags0 t
    flags1 := packFlags1 t
    flags2 := packFlags2 t }.finish false (BitVec.ofNat 32 total) s.n

/-- ENC_EMIT (R151, R156): the stream is written to OUT and the command ends. -/
def encEmit (s : State) : Result :=
  let bytes := emitStream (flagTableOfNibbles s.cf) s.opbuf
  .next ((emitBytes bytes s).publish s.cf bytes.length)

/-- ENC_CHECK of the reference encoder (R149, R150): SIZE_OVERFLOW, then OUTPUT_OVERFLOW, else
ENC_EMIT with `olen` = 0. -/
def encCheckReference (s : State) : State :=
  let total := streamSize s.opbuf
  if Config.maxCompressed < total then s.raiseEncode errSizeOverflow
  else if s.cfg.outCap < total then s.raiseEncode errOutputOverflow
  else { s with olen := 0, phase := .encEmit }

/-- A stream and table published in one step. -/
def State.publishStream (s : State) (cf : Nine Nibble) (bytes : List Byte) : State :=
  (emitBytes bytes { s with olen := 0, cf := cf }).publish cf bytes.length

/-- ENC_CHECK under `ENCODER_MODEL = ANY_VALID` (R159, X13): a free candidate, admitted only where it
is a valid result of R9, else SIZE_OVERFLOW; LSET any 16-bit value (log entry 7). -/
def encCheckAnyValid (D : List Byte) (s : State) : State :=
  let t := { s with lset := (Config.freeLset s.encodes D).setWidth 32 }
  match Config.freeEncoding s.encodes D with
  | none => t.raiseEncode errSizeOverflow
  | some (cf, bytes) =>
    if validResult cf bytes D then
      if s.cfg.outCap < bytes.length then t.raiseEncode errOutputOverflow
      else t.publishStream cf bytes
    else t.raiseEncode errSizeOverflow

/-- ENC_CHECK, by the encoder model (R5, R149, R150, R159). -/
def encCheck (s : State) : Result :=
  match s.cfg.encoderModel with
  | .reference => .next (encCheckReference s)
  | .anyValid =>
    match s.inputBytes with
    | .error a => .fault (.unwrittenIn a)
    | .ok D => .next (encCheckAnyValid D s)

end Sys2Proof.Machine
end

