-- ==== Sys2Proof/Machine/Engine.lean ====
section
/-! DEFINITION. The engine's step in every phase (R27), and its run to the end of a command, which
bounds what the host may read while BUSY (R25). -/

namespace Sys2Proof.Machine

/-- One step of the engine. IDLE it waits for a START (R251). -/
def engineStep (s : State) : Result :=
  match s.phase with
  | .idle => .next s
  | .decCtrl => decodeControl s
  | .decSlot => decodeSlot s
  | .decCopy => finishCopy s
  | .encParse => encParse s
  | .encCheck => encCheck s
  | .encEmit => encEmit s

/-- At most `k` steps of the engine, stopping when it is IDLE. -/
def runEngine (k : Nat) (s : State) : Result :=
  match k with
  | 0 => .next s
  | k + 1 =>
    match s.phase with
    | .idle => .next s
    | _ =>
      match engineStep s with
      | .next t => runEngine k t
      | .fault f => .fault f
      | .refused r => .refused r

/-- A bound on the steps a command still takes (R183, R259): each step but the last few reads a
stream byte or moves past an input byte. -/
def State.stepBound (s : State) : Nat :=
  match s.phase with
  | .idle => 0
  | .decCtrl => (s.il - s.ip).toNat + 2
  | .decSlot => (s.il - s.ip).toNat + 2
  | .decCopy => (s.il - s.ip).toNat + 2
  | .encParse => (s.n - s.pos).toNat + 3
  | .encCheck => 2
  | .encEmit => 1

/-- The state at the end of the command in progress, none where the run faults (R53). -/
def State.final (s : State) : Option State :=
  match runEngine s.stepBound s with
  | .next t => some t
  | .fault _ => none
  | .refused _ => none

end Sys2Proof.Machine
end

