-- ==== Sys2Proof/Machine/HostMoves.lean ====
section
/-! DEFINITION. The host's side of the interface: what each move of the host does (R10 to R19, R24,
R25, R40, R45, R46, R51, R250) and which agent moves next (R6). -/

namespace Sys2Proof.Machine

/-! ## Reading registers -/

/-- A register as its rule gives it, without the draws of R25: offsets of R10; reserved offsets read
0 (R24). -/
def State.regValue (s : State) (offset : Nat) : Word :=
  match offset with
  | 0x00 => s.ctrl
  | 0x04 => s.status
  | 0x08 => s.inLen
  | 0x0C => s.expLen
  | 0x10 => s.outLen
  | 0x14 => s.inPos
  | 0x18 => s.errPos
  | 0x1C => s.lset
  | 0x20 => s.flags0
  | 0x24 => s.flags1
  | 0x28 => s.flags2
  | _ => 0

/-- A free value between 0 and `bound` (R25). -/
def drawUpTo (bound : Word) (k : Nat) : Word :=
  BitVec.ofNat 32 ((Config.freeWord k).toNat % (bound.toNat + 1))

/-- A progress register read while BUSY: a free value between 0 and its final value; where the
command ends in a fault of the model there is no final value and the draw has no bound (R25, X7). -/
def State.drawProgress (s : State) (reg : State → Word) : Word :=
  match s.final with
  | some t => drawUpTo (reg t) s.draws
  | none => Config.freeWord s.draws

/-- What a read of REG returns while BUSY: CTRL, STATUS, IN_LEN and EXP_LEN exactly (R25); OUT_LEN and
IN_POS drawn within their bounds (R25); ERR_POS, LSET and FLAGS0..2 drawn, in either command, reserved
bits 0 (R256, X7; log entry 10). -/
def State.busyValue (s : State) (offset : Nat) : Word :=
  match offset with
  | 0x10 => s.drawProgress State.outLen
  | 0x14 => s.drawProgress State.inPos
  | 0x18 => Config.freeWord s.draws
  | 0x1C => Config.freeWord s.draws &&& 0x0000FFFF#32
  | 0x20 => Config.freeWord s.draws
  | 0x24 => Config.freeWord s.draws
  | 0x28 => Config.freeWord s.draws &&& 0x000000FF#32
  | _ => s.regValue offset

/-- The host receives a value. -/
def State.deliver (s : State) (v : Word) : State := { s with readData := some v }

/-- The host receives a value that may be drawn, and the next draw is another (log entry 5). -/
def State.deliverDraw (s : State) (v : Word) : State :=
  { s with readData := some v, draws := s.draws + 1 }

/-- An access the spec gives no meaning: another width than 32 bits, or an offset that is not a
multiple of 4 (R45, X8). -/
def badAccess (offset width : Nat) : Bool := decide (width ≠ 4) || decide (offset % 4 ≠ 0)

/-- A host read of REG. It has no side effect on the engine (R46). -/
def regRead (offset width : Nat) (s : State) : Result :=
  if badAccess offset width then .refused (.badRegAccess offset width)
  else if 64 ≤ offset then .fault (.noSuchRegister offset)
  else if s.busy then .next (s.deliverDraw (s.busyValue offset))
  else .next (s.deliver (s.regValue offset))

/-! ## Writing registers -/

/-- A write of CTRL while IDLE: a command where START = 1, else only MODE and EXP_VALID (R11, R23). -/
def writeCtrlReg (v : Word) (s : State) : Result :=
  match decodeCommand v with
  | .ok i => exec i s
  | .error _ => .next (s.writeCtrl (ctrlMode v) (ctrlExpValid v))

/-- A write of a register other than CTRL while IDLE: IN_LEN, EXP_LEN and FLAGS0..2; read-only
registers, reserved offsets and FLAGS2's reserved bits ignore it (R13, R14, R19, R24). -/
def State.writeReg (s : State) (offset : Nat) (v : Word) : State :=
  match offset with
  | 0x08 => { s with inLen := v }
  | 0x0C => { s with expLen := v }
  | 0x20 => { s with flags0 := v }
  | 0x24 => { s with flags1 := v }
  | 0x28 => { s with flags2 := v &&& 0x000000FF#32 }
  | _ => s

/-- A host write of REG; ignored entirely while BUSY (R25). -/
def regWrite (offset width : Nat) (v : Word) (s : State) : Result :=
  if badAccess offset width then .refused (.badRegAccess offset width)
  else if 64 ≤ offset then .fault (.noSuchRegister offset)
  else if s.busy then .next s
  else if offset = 0 then writeCtrlReg v s
  else .next (s.writeReg offset v)

/-! ## The buffers -/

/-- The byte a host read of a buffer returns: what was last written there, else any value (R53, X12). -/
def bufferValue (m : Memory) (a k : Nat) : Word :=
  match Memory.read m a with
  | some v => v.setWidth 32
  | none => (Config.freeByte k).setWidth 32

/-- A host write of an IN byte, while IDLE only (R40, R51). -/
def inWrite (a : Nat) (v : Byte) (s : State) : Result :=
  if s.busy then .refused .bufferAccessWhileBusy
  else if s.cfg.inCap ≤ a then .fault (.noSuchInAddress a)
  else .next { s with inBuf := Memory.write s.inBuf a v }

/-- A host read of an IN byte, while IDLE only (R40, R51). -/
def inRead (a : Nat) (s : State) : Result :=
  if s.busy then .refused .bufferAccessWhileBusy
  else if s.cfg.inCap ≤ a then .fault (.noSuchInAddress a)
  else .next (s.deliverDraw (bufferValue s.inBuf a s.draws))

/-- A host write of an OUT byte, while IDLE only (R40, R51). -/
def outWrite (a : Nat) (v : Byte) (s : State) : Result :=
  if s.busy then .refused .bufferAccessWhileBusy
  else if s.cfg.outCap ≤ a then .fault (.noSuchOutAddress a)
  else .next { s with outBuf := Memory.write s.outBuf a v }

/-- A host read of an OUT byte; while BUSY it is a draw (R256; log entry 6). -/
def outRead (a : Nat) (s : State) : Result :=
  if s.cfg.outCap ≤ a then .fault (.noSuchOutAddress a)
  else if s.busy then .next (s.deliverDraw ((Config.freeByte s.draws).setWidth 32))
  else .next (s.deliverDraw (bufferValue s.outBuf a s.draws))

/-! ## Reset and turns -/

/-- Reset (R250): every register and internal state at its value of R26, both buffers unwritten, the
engine IDLE, no outcome for a command in progress. The parameters, the host's own moves and what
it has read stay. -/
def State.afterReset (s : State) : State :=
  { State.reset with
    cfg := s.cfg
    schedule := s.schedule
    readData := s.readData
    draws := s.draws
    encodes := s.encodes }

/-- The host's next move, `s` with the move taken off the schedule and `s0` with it still there: a
poll that does not see what it waits for stays, and the engine takes a step (R6, R233, R259). -/
def hostTurn (m : Move) (s s0 : State) : Result :=
  match m with
  | .regWrite offset width v => regWrite offset width v s
  | .regRead offset width => regRead offset width s
  | .inWrite a v => inWrite a v s
  | .inRead a => inRead a s
  | .outWrite a v => outWrite a v s
  | .outRead a => outRead a s
  | .reset => .next s.afterReset
  | .engineTurn => engineStep s
  | .waitIdle => if s.busy then engineStep s0 else .next s
  | .waitDone => if s.ended then .next s else engineStep s0

/-- One step of the system: the host's next move where one is waiting, else the engine's. -/
def turn (s : State) : Result :=
  match s.schedule with
  | [] => engineStep s
  | m :: rest => hostTurn m { s with schedule := rest } s

/-! ## Placing one instruction (for `State.withFetchWord`) -/

/-- No command in progress. -/
def State.idled (s : State) : State :=
  if s.busy then { s with status := 0, phase := .idle } else { s with phase := .idle }

/-- A CTRL write as the host's next move, the engine IDLE. -/
def State.placeCommand (s : State) (w : Nat) : State :=
  { s.idled with schedule := .regWrite 0 4 (BitVec.ofNat 32 w) :: s.schedule }

/-- Two stream bytes at `ip`, inside the latched input, no expected length, the engine's turn. -/
def State.placeStream (s : State) (bytes : List Byte) : State :=
  { s with
    inBuf := Memory.write (Memory.write s.inBuf s.ip.toNat (bytes.getD 0 0)) (s.ip + 1).toNat (bytes.getD 1 0)
    il := s.ip + 2
    xv := false
    mode := 0
    status := statusStarted
    schedule := [] }

/-- The instruction of a table word placed where the next step reads one (log entry 8). -/
def State.placeWord (s : State) (nbits w : Nat) : State :=
  match tableContext nbits w with
  | .command => s.placeCommand w
  | .control => { s.placeStream (tableBytes nbits w) with phase := .decCtrl }
  | .slot literal ft =>
    { s.placeStream (tableBytes nbits w) with
      phase := .decSlot
      slot := 0
      ctrlByte := if literal then 0x80#8 else 0x00#8
      ft := ft }

end Sys2Proof.Machine
end

