-- ==== Sys2Proof/Machine/Step.lean ====
section
/-! DEFINITION. One step of the system, and the placing of one instruction. -/

namespace Sys2Proof.Machine

/-- One step: the host's next move where one is waiting in `State.schedule`, else the engine's (R6). -/
def step : State → Host.Outcome State Fault Refusal := fun s => turn s

/-- `s` with the instruction of a table word placed where the next step reads one (log entry 8). -/
def State.withFetchWord (s : State) (nbits w : Nat) : State := s.placeWord nbits w

end Sys2Proof.Machine
end

