-- ==== Sys2Proof/Machine/Container.lean ====
section
/-! DEFINITION. Container framing, the host's side (45_container_host.md): the two header variants,
`deserialize`, `serialize`, and the host's procedures around one command. -/

namespace Sys2Proof.Machine

/-- Header variants: A ("sprite", 18 bytes) and B ("general", 20 bytes) (R201, R202). -/
inductive Variant where
  | a
  | b
deriving DecidableEq, Repr

/-- Header errors (R205, R242). -/
inductive HeaderError where
  | badMagic
  | truncatedHeader
  | lengthExceedsBuffer
deriving DecidableEq, Repr

/-- `EncodeError`: SizeOverflow of `serialize` or of the engine (R208, R224), or an engine error of
the host's own naming (R242). -/
inductive EncodeError where
  | sizeOverflow
  | engine (code : BitVec 4)
deriving DecidableEq, Repr

/-- `DecodeError` (R242). -/
inductive DecodeError where
  | header (e : HeaderError)
  | truncatedInput
  | invalidBackReference
  | engine (code : BitVec 4)
deriving DecidableEq, Repr

/-- What `deserialize` returns (R205). -/
structure Unpacked where
  flags : FlagTable
  payload : List Byte
  expectedLen : Nat
deriving DecidableEq, Repr

/-- The header size of a variant (R201, R202). -/
def Variant.headerSize (k : Variant) : Nat :=
  match k with
  | .a => 18
  | .b => 20

/-- The magic of a variant (R204). -/
def Variant.magic (cfg : Config) (k : Variant) : List Byte :=
  match k with
  | .a => cfg.magicA
  | .b => cfg.magicB

/-- A little-endian number of bytes, least significant at the lowest offset (R203). -/
def leValue (vs : List Byte) : Nat :=
  match vs with
  | [] => 0
  | v :: rest => v.toNat + 256 * leValue rest

/-- The `k` little-endian bytes of a number (R203). -/
def leBytes (k x : Nat) : List Byte :=
  match k with
  | 0 => []
  | k + 1 => BitVec.ofNat 8 x :: leBytes k (x / 256)

/-- Bytes `a .. b−1` of a buffer. -/
def slice (buf : List Byte) (a b : Nat) : List Byte := (buf.drop a).take (b - a)

/-- The variant chosen by the magic (R205). -/
def variantOf (cfg : Config) (buf : List Byte) : Option Variant :=
  if slice buf 0 5 = cfg.magicA then some .a
  else if slice buf 0 5 = cfg.magicB then some .b
  else none

/-- The decompressed size field: u16 at 16..17 in Variant A, u32 at 16..19 in Variant B (R201, R202). -/
def sizeField (k : Variant) (buf : List Byte) : Nat := leValue (slice buf 16 k.headerSize)

/-- `deserialize(buf)`, its checks in the order of R205. -/
def deserialize (cfg : Config) (buf : List Byte) : Except HeaderError Unpacked :=
  if buf.length < 5 then .error .truncatedHeader
  else
    match variantOf cfg buf with
    | none => .error .badMagic
    | some k =>
      let CL := leValue (slice buf 5 7)
      if buf.length < k.headerSize then .error .truncatedHeader
      else if buf.length < CL then .error .lengthExceedsBuffer
      else if CL < k.headerSize then .error .truncatedHeader
      else .ok {
        flags := Nine.ofList 0 (slice buf 7 16)
        payload := slice buf k.headerSize CL
        expectedLen := sizeField k buf }

/-- The bytes of the decompressed-size field of a variant (R201, R202). -/
def Variant.sizeBytes (k : Variant) : Nat := k.headerSize - 16

/-- `serialize(kind, flags, compressed, decompressed_len)` with the limits of R208 (R207). -/
def serialize (cfg : Config) (k : Variant) (flags : FlagTable) (compressed : List Byte) (size : Nat) :
    Except EncodeError (List Byte) :=
  let CL := k.headerSize + compressed.length
  if 65535 < CL then .error .sizeOverflow
  else if 256 ^ k.sizeBytes ≤ size then .error .sizeOverflow
  else .ok (k.magic cfg ++ leBytes 2 CL ++ flags.toList ++ leBytes k.sizeBytes size ++ compressed)

/-! ## The host's procedures (R206, R209, R252, R253) -/

/-- Write a byte list to IN from address 0. -/
def writeInMoves (a : Nat) (vs : List Byte) : List Move :=
  match vs with
  | [] => []
  | v :: rest => .inWrite a v :: writeInMoves (a + 1) rest

/-- Write the nine flag entries (R19). -/
def writeFlagsMoves (t : FlagTable) : List Move :=
  [.regWrite 0x20 4 (packFlags0 t), .regWrite 0x24 4 (packFlags1 t), .regWrite 0x28 4 (packFlags2 t)]

/-- The host's moves that decode an unpacked container: set up, START with EXP_VALID, wait (R206, R252). -/
def decodeMoves (u : Unpacked) : List Move :=
  [.waitIdle] ++ writeInMoves 0 u.payload ++ [.regWrite 0x08 4 (BitVec.ofNat 32 u.payload.length)] ++
  writeFlagsMoves u.flags ++
  [.regWrite 0x0C 4 (BitVec.ofNat 32 u.expectedLen), .regWrite 0x00 4 (ctrlWord true 0#2 true), .waitDone]

/-- The host's moves that encode a buffer (R209, R253). -/
def encodeMoves (data : List Byte) : List Move :=
  [.waitIdle] ++ writeInMoves 0 data ++
  [.regWrite 0x08 4 (BitVec.ofNat 32 data.length), .regWrite 0x00 4 (ctrlWord true 1#2 false), .waitDone]

/-- The moves of `decompress(container_bytes)`, or the header error that ends it (R206). -/
def containerDecodeMoves (cfg : Config) (buf : List Byte) : Except HeaderError (List Move) :=
  match deserialize cfg buf with
  | .ok u => .ok (decodeMoves u)
  | .error e => .error e

/-- How the host names an engine error of DECODE (R242). -/
def decodeErrorOf (code : BitVec 4) : DecodeError :=
  if code = errTruncatedInput then .truncatedInput
  else if code = errInvalidBackref then .invalidBackReference
  else .engine code

/-- How the host names an engine error of ENCODE (R242). -/
def encodeErrorOf (code : BitVec 4) : EncodeError :=
  if code = errSizeOverflow then .sizeOverflow else .engine code

/-- The result the host takes after DONE: OUT bytes 0..OUT_LEN−1 and the warning, or the error (R206).
`none` before the command has ended (R256), and where an OUT byte of the result is unwritten, which no
run reaches. -/
def decodeResult (s : State) : Option (Except DecodeError (List Byte × Bool)) :=
  if !s.ended then none
  else if statusErr s.status = errNone then s.outBytes.map (fun vs => .ok (vs, statusWarn s.status))
  else some (.error (decodeErrorOf (statusErr s.status)))

/-- The container the host builds after an ENCODE of `size` bytes, or the error (R209); `none` before the
command has ended (R256). -/
def encodeResult (k : Variant) (size : Nat) (s : State) : Option (Except EncodeError (List Byte)) :=
  if !s.ended then none
  else if statusErr s.status = errNone then
    s.outBytes.map (fun vs => serialize s.cfg k (flagEntries s.flags0 s.flags1 s.flags2) vs size)
  else some (.error (encodeErrorOf (statusErr s.status)))

end Sys2Proof.Machine
end

