-- ==== Sys2Proof/Machine/Launch.lean ====
section
/-! DEFINITION. The end of a command and its outcome (R260), and the named launch premises of a claim about
one command (R261). -/

namespace Sys2Proof.Machine

/-! ## The outcome of a command (R260) -/

/-- "(ERR, WARN_LEN, OUT_LEN, IN_POS, ERR_POS, LSET, FLAGS0..2, OUT bytes 0..OUT_LEN−1)" (R260). An OUT byte
that nothing has written is `none`. -/
structure Outcome where
  err : BitVec 4
  warnLen : Bool
  outLen : Word
  inPos : Word
  errPos : Word
  lset : Word
  flags0 : Word
  flags1 : Word
  flags2 : Word
  out : List (Option Byte)
deriving DecidableEq, Repr

/-- The outcome a state shows: the tuple of R260 where a command has ended; none while BUSY, and none where
reset ended the command or no command has run since (R250, R260). -/
def State.outcome (s : State) : Option Outcome :=
  if s.ended then
    some {
      err := statusErr s.status
      warnLen := statusWarn s.status
      outLen := s.outLen
      inPos := s.inPos
      errPos := s.errPos
      lset := s.lset
      flags0 := s.flags0
      flags1 := s.flags1
      flags2 := s.flags2
      out := (List.range s.outLen.toNat).map (Memory.read s.outBuf) }
  else none

/-! ## Launch premises (R261) -/

/-- `IDLE` (R261): no command in progress. -/
def State.Idle (s : State) : Prop := s.busy = false ∧ s.phase = .idle

/-- `IN_WRITTEN` (R261): every IN byte below the length has been written since reset. -/
def State.InWritten (s : State) (len : Word) : Prop :=
  ∀ a, a < len.toNat → (Memory.read s.inBuf a).isSome = true

/-- `CFG_LATCHED` (R261, R23): the command in progress uses MODE, EXP_VALID, EXP_LEN, IN_LEN and, for DECODE,
FLAGS0..2 as the registers hold them, which the host wrote before START. -/
structure State.CfgLatched (s : State) : Prop where
  mode : s.mode = ctrlMode s.ctrl
  expValid : s.xv = ctrlExpValid s.ctrl
  expLen : s.xl = s.expLen
  inLen : s.il = s.inLen
  flags : s.mode = 0#2 → s.ft = flagEntries s.flags0 s.flags1 s.flags2

/-- `FLAGS_VALID` (R261): nine distinct values 0..15, each not a member of `ls`, the LengthSet of the encoder
that produced the stream. -/
def flagsValid (t : FlagTable) (ls : BitVec 16) : Bool :=
  legalFlags t && t.toList.all (fun v => !lsMember ls v.toNat)

/-- A move that writes a byte of IN or OUT. -/
def Move.writesBuffer (m : Move) : Bool :=
  match m with
  | .inWrite _ _ => true
  | .outWrite _ _ => true
  | .regWrite _ _ _ => false
  | .regRead _ _ => false
  | .inRead _ => false
  | .outRead _ => false
  | .reset => false
  | .engineTurn => false
  | .waitIdle => false
  | .waitDone => false

/-- The move asserts reset. -/
def Move.resets (m : Move) : Bool :=
  match m with
  | .reset => true
  | .inWrite _ _ => false
  | .outWrite _ _ => false
  | .regWrite _ _ _ => false
  | .regRead _ _ => false
  | .inRead _ => false
  | .outRead _ => false
  | .engineTurn => false
  | .waitIdle => false
  | .waitDone => false

/-- The next move, taken while BUSY, writes IN or OUT. -/
def State.touchesBuffer (s : State) : Bool := s.busy && s.schedule.head?.any Move.writesBuffer

/-- The next move, taken while BUSY, asserts reset. -/
def State.resetsCommand (s : State) : Bool := s.busy && s.schedule.head?.any Move.resets

/-- `p` holds of the state and of each of the next `k` states of its run. -/
def State.holdsFor (p : State → Bool) (k : Nat) (s : State) : Bool :=
  match k with
  | 0 => p s
  | k + 1 =>
    p s &&
      match step s with
      | .next t => State.holdsFor p k t
      | .fault _ => true
      | .refused _ => true

/-- `NO_HOST_TOUCH` over the next `k` steps: the host writes neither IN nor OUT while BUSY (R255, R261).
It may read and write REG and poll. -/
abbrev State.NoHostTouch (s : State) (k : Nat) : Prop := s.holdsFor (fun t => !t.touchesBuffer) k = true

/-- `NO_RESET` over the next `k` steps: no reset between START and DONE (R250, R261). -/
abbrev State.NoReset (s : State) (k : Nat) : Prop := s.holdsFor (fun t => !t.resetsCommand) k = true

end Sys2Proof.Machine
end

