-- ==== Sys2Proof/Safety.lean ====
section
/-! DEFINITION. What counts as a well-kept state and a completed command, in the terms claims use:
the register invariant (R11, R12, R17 to R19, R27, R220, R221), the buffers' canonical form, the
bounds every command keeps (R20, R41 to R43, R123, R180), and when two states show the same outcome. -/

namespace Sys2Proof.Machine

/-- The next state of a result, none for a fault or a refusal. -/
def nextState (r : Result) : Option State :=
  match r with
  | .next s => some s
  | .fault _ => none
  | .refused _ => none

/-- A DECODE is in progress (R27). -/
def State.inDecode (s : State) : Bool :=
  match s.phase with
  | .decCtrl => true
  | .decSlot => true
  | .decCopy => true
  | .idle => false
  | .encParse => false
  | .encCheck => false
  | .encEmit => false

/-- An ENCODE is in progress (R27). -/
def State.inEncode (s : State) : Bool :=
  match s.phase with
  | .encParse => true
  | .encCheck => true
  | .encEmit => true
  | .idle => false
  | .decCtrl => false
  | .decSlot => false
  | .decCopy => false

/-! ## Registers -/

/-- The values STATUS takes: reset, a command in progress, a success with or without the warning, and
an error of codes 1 to 7 without the warning (R12, R220, R221). -/
def statusLegal (w : Word) : Prop :=
  w = 0 ∨ w = statusStarted ∨ w = statusEnded false errNone ∨ w = statusEnded true errNone ∨
  ∃ e : BitVec 4, 1 ≤ e.toNat ∧ e.toNat ≤ 7 ∧ w = statusEnded false e

/-- Reserved fields read 0 (R11, R18, R19), STATUS is one of its values, BUSY is the engine phase
(R27), and ERR_POS is 0 where there is no error (R17). -/
structure State.RegistersLegal (s : State) : Prop where
  ctrl_reserved : s.ctrl &&& 0xFFFFFFF1#32 = 0
  status_legal : statusLegal s.status
  busy_iff : s.busy = true ↔ s.phase ≠ .idle
  errPos_zero : statusErr s.status = errNone → s.errPos = 0
  lset_reserved : s.lset &&& 0xFFFF0000#32 = 0
  flags2_reserved : s.flags2 &&& 0xFFFFFF00#32 = 0

/-! ## Buffers -/

/-- Both buffers are in canonical form. -/
def State.BuffersCanonical (s : State) : Prop := Memory.wf s.inBuf ∧ Memory.wf s.outBuf

/-! ## Bounds -/

/-- What holds while a DECODE is in progress: the cursor stays inside the latched input (R20), the
input inside the buffer (R228), the output inside the buffer and below the expected length (R180),
OUT_LEN mirrors `olen`, and every OUT byte below `olen` has been written (R42, R43). -/
structure State.DecodeBounds (s : State) : Prop where
  il_le : s.il.toNat ≤ s.cfg.inCap
  ip_le : s.ip.toNat ≤ s.il.toNat
  olen_le : s.olen.toNat ≤ s.cfg.outCap
  expected_le : s.xv = true → s.olen.toNat ≤ s.xl.toNat
  outLen_eq : s.outLen = s.olen
  written : ∀ a, a < s.olen.toNat → (Memory.read s.outBuf a).isSome = true
  slot_le : s.phase = .decSlot → s.slot ≤ 7
  copy_source : s.phase = .decCopy →
    1 ≤ s.copyOffset.toNat ∧ s.copyBase.toNat + s.copyOffset.toNat ≤ s.olen.toNat

/-- The LengthSet's invariant: `{0, 15} ⊆ LS`, `|LS| ≤ 7` (R123). -/
def lengthSetOk (ls : BitVec 16) : Prop :=
  lsMember ls 0 = true ∧ lsMember ls 15 = true ∧ lsSize ls ≤ Config.lsCap

/-- An operation the reference encoder may hold: no NIB with flag index 1 or 5, every BREF with length
3..18, offset 1..4096 and a delta in LS (R73, R126). -/
def Op.Allowed (ls : BitVec 16) (o : Op) : Prop :=
  match o with
  | .lit _ => True
  | .nib f _ => f ≠ 1 ∧ f ≠ 5
  | .bref length offset =>
    3 ≤ length ∧ length ≤ 18 ∧ 1 ≤ offset ∧ offset ≤ 4096 ∧ lsMember ls (length - 3) = true

/-- Input bytes that a list of operations stands for. -/
def opsWidth (ops : List Op) : Nat := (ops.map Op.width).sum

/-- What holds while an ENCODE is in progress (R22, R123, R142, R148, R149, R150). -/
structure State.EncodeBounds (s : State) : Prop where
  n_le : s.n.toNat ≤ s.cfg.inCap
  pos_le : s.pos.toNat ≤ s.n.toNat
  consumed : opsWidth s.opbuf = s.pos.toNat
  lengthSet : lengthSetOk s.ls
  allowed : ∀ o ∈ s.opbuf, Op.Allowed s.ls o
  parsed : s.phase ≠ .encParse → s.pos = s.n ∧ s.cf = controlFlags s.ls
  sized : s.phase = .encEmit →
    s.olen = 0 ∧ streamSize s.opbuf ≤ Config.maxCompressed ∧ streamSize s.opbuf ≤ s.cfg.outCap

/-- The engine's bounds in every phase, the parameters and the buffers among them. -/
structure State.EngineBounds (s : State) : Prop where
  config : s.cfg.wf = true
  in_below : Memory.below s.inBuf s.cfg.inCap = true
  out_below : Memory.below s.outBuf s.cfg.outCap = true
  decode : s.inDecode = true → s.DecodeBounds
  encode : s.inEncode = true → s.EncodeBounds

/-! ## One DECODE compared with another (R185) -/

/-- Two states agree on the outcome R185 names for a DECODE: STATUS, OUT_LEN, IN_POS, ERR_POS and the OUT
bytes 0..OUT_LEN−1. -/
def sameDecodeOutcome (s t : State) : Prop :=
  s.status = t.status ∧ s.outLen = t.outLen ∧ s.inPos = t.inPos ∧ s.errPos = t.errPos ∧
  ∀ a, a < s.outLen.toNat → Memory.read s.outBuf a = Memory.read t.outBuf a

/-- Two states agree on the whole tuple of R260: ERR and WARN_LEN (STATUS), OUT_LEN, IN_POS, ERR_POS, LSET,
FLAGS0..2 and the OUT bytes 0..OUT_LEN−1. -/
def sameOutcome (s t : State) : Prop :=
  sameDecodeOutcome s t ∧ s.lset = t.lset ∧ s.flags0 = t.flags0 ∧ s.flags1 = t.flags1 ∧ s.flags2 = t.flags2

end Sys2Proof.Machine
end

