-- ==== Sys2Proof/Certificates/Slice0/Obligations.lean ====
section
/-! DEFINITION. The statements for the provers, from the numbered rules of spec/. -/

open Sys2Proof Sys2Proof.Machine

/-! ## Encoding -/

/-- Bytes written out from the format tables of R61, R63, R64, R65 and R11 decode to the instruction they
stand for. -/
def Obligations.SampleBytesDecodeAsWritten : Prop :=
  (decode .control [0b10001000#8] = .ok (.ctrl 0x88#8, [])) ∧
  (decode (.slot true tableF9) [0b01000001#8] = .ok (.lit 0x41#8, [])) ∧
  (decode (.slot false tableF9) [0b00110100#8] = .ok (.nib2 4#4, [])) ∧
  (decode (.slot false tableF9) [0b10011111#8] = .ok (.nib8 15#4, [])) ∧
  (decode (.slot false tableF9) [0b11110000#8, 0b00000000#8] = .ok (.bref 15#4 0#12, [])) ∧
  (decode (.slot false tableF9) [0b00001111#8, 0b11111110#8] = .ok (.bref 0#4 0xFFE#12, [])) ∧
  (decode .command [0b00001001#8, 0#8, 0#8, 0#8] = .ok (.cmdDecode true, [])) ∧
  (decode .command [0b00000011#8, 0#8, 0#8, 0#8] = .ok (.cmdEncode false, [])) ∧
  (decode .command [0b00000111#8, 0#8, 0#8, 0#8] = .ok (.cmdReserved 3#2 false, []))

/-- Decoding an encoded well-formed instruction gives it back, in every context, whatever bytes follow. -/
def Obligations.DecodeOfEncodeIsIdentity : Prop :=
  ∀ (c : Context) (i : Instr) (rest : List Byte),
    wellFormed c i = true → decode c (encode c.table i ++ rest) = .ok (i, rest)

/-- A stream instruction that the decoder reads is well formed where it stands, and encodes to the bytes
it was read from: no bit of a stream byte is dropped. -/
def Obligations.EncodeOfDecodedStreamBytes : Prop :=
  ∀ (c : Context) (bytes : List Byte) (i : Instr) (rest : List Byte),
    c ≠ .command → decode c bytes = .ok (i, rest) →
      wellFormed c i = true ∧ encode c.table i ++ rest = bytes

/-- A CTRL write that starts a command encodes back to its bits 3:0; bits 31:4 are ignored (R11), and a
write with START = 0 is no command. -/
def Obligations.CommandWordKeepsItsLowBits : Prop :=
  ∀ (w : Word) (rest : List Byte),
    (ctrlStart w = true → ∃ i, decode .command (wordBytes w ++ rest) = .ok (i, rest) ∧
      wellFormed .command i = true ∧ encode tableF9 i = wordBytes (w &&& 0x0000000F#32)) ∧
    (ctrlStart w = false → decode .command (wordBytes w ++ rest) = .error .notAStart)

/-- R68: a special operation whose high nibble is in the flag table is the NIB of the least matching
index, with payload `lo(b)`; a legal table has at most one match; an entry above 15 never matches. -/
def Obligations.NibIndexIsLeastMatch : Prop :=
  ∀ (ft : FlagTable) (b : Byte) (rest : List Byte),
    (∀ k : Fin 9, decode (.slot false ft) (b :: rest) = .ok (nibInstr k (lo b), rest) ↔
      (ft.get k = (hi b).setWidth 8 ∧ ∀ j : Fin 9, j < k → ft.get j ≠ (hi b).setWidth 8)) ∧
    (legalFlags ft = true → ∀ j k : Fin 9,
      ft.get j = (hi b).setWidth 8 → ft.get k = (hi b).setWidth 8 → j = k) ∧
    (∀ k : Fin 9, 15 < (ft.get k).toNat → ft.get k ≠ (hi b).setWidth 8)

/-- R62: the control bit alone decides LIT; else an entry of the table equal to the high nibble decides
NIB of one byte; else BREF of two bytes, and with one byte there is no instruction. -/
def Obligations.SlotClassification : Prop :=
  ∀ (ctrl : Byte) (slot : Nat) (ft : FlagTable) (b b2 : Byte) (rest : List Byte),
    (slotBit ctrl slot = true → decode (.slot (slotBit ctrl slot) ft) (b :: rest) = .ok (.lit b, rest)) ∧
    (slotBit ctrl slot = false → (∃ k : Fin 9, ft.get k = (hi b).setWidth 8) →
      ∃ k : Fin 9, decode (.slot (slotBit ctrl slot) ft) (b :: rest) = .ok (nibInstr k (lo b), rest)) ∧
    (slotBit ctrl slot = false → (∀ k : Fin 9, ft.get k ≠ (hi b).setWidth 8) →
      decode (.slot (slotBit ctrl slot) ft) (b :: b2 :: rest) = .ok (.bref (hi b) (lo b ++ b2), rest) ∧
      decode (.slot (slotBit ctrl slot) ft) [b] = .error .missingSecondByte)

/-- R66 and R67: the offset of the two bytes is `4096 − (lo(b) << 8) − b2`, 1..4096; the length is
`hi(b) + 3`, 3..18. -/
def Obligations.BackReferenceOperands : Prop :=
  ∀ (ft : FlagTable) (b b2 : Byte) (d : Nibble) (x : BitVec 12),
    decode (.slot false ft) [b, b2] = .ok (.bref d x, []) →
      brefOffset x = 4096 - (lo b).toNat * 256 - b2.toNat ∧ 1 ≤ brefOffset x ∧ brefOffset x ≤ 4096 ∧
      brefLength d = (hi b).toNat + 3 ∧ 3 ≤ brefLength d ∧ brefLength d ≤ 18

/-! ## The step runs the decoded instruction -/

/-- In DEC_CTRL, on the engine's turn and past the stop tests, a step is exec of the control byte at
`ip`; nothing is added around it. -/
def Obligations.StepRunsControlByte : Prop :=
  ∀ (s : State) (b : Byte) (i : Instr) (rest : List Byte),
    s.schedule = [] → s.phase = .decCtrl → s.stopTest = none →
    s.streamByte 0 = some b → decode .control [b] = .ok (i, rest) →
      step s = exec i s

/-- In DEC_SLOT, on the engine's turn and past the stop tests, a step marks `opstart` and is exec of the
operation decoded at `ip`: of one byte, or of two where the second is inside the input; a BREF cut off
by the end of the input raises TRUNCATED_INPUT at its first byte. -/
def Obligations.StepRunsSlotOperation : Prop :=
  ∀ (s : State) (b : Byte),
    s.schedule = [] → s.phase = .decSlot → s.stopTest = none → s.streamByte 0 = some b →
    (∀ (i : Instr), decode (.slot (slotBit s.ctrlByte s.slot) s.ft) [b] = .ok (i, []) →
      step s = exec i { s with opstart := s.ip }) ∧
    (∀ (b2 : Byte) (i : Instr), s.ip + 1 ≠ s.il → s.streamByte 1 = some b2 →
      decode (.slot (slotBit s.ctrlByte s.slot) s.ft) [b, b2] = .ok (i, []) →
      step s = exec i { s with opstart := s.ip }) ∧
    (s.ip + 1 = s.il → decode (.slot (slotBit s.ctrlByte s.slot) s.ft) [b] = .error .missingSecondByte →
      step s = .next { s with
        opstart := s.ip, ip := s.ip + 1, status := 0x00000102#32, errPos := s.ip,
        outLen := s.olen, inPos := s.ip + 1, phase := .idle })

/-- Where the host's next move is a CTRL write that starts a command, a step takes the move and is exec
of the command. A turn given to the engine is the engine's step, and so is a step with no move waiting; an
IDLE engine stays as it is (R251). The schedule is the model's own form of the host (log entry 4). -/
def Obligations.StepRunsHostCommand : Prop :=
  ∀ (s : State) (rest : List Move),
    (∀ (w : Word) (i : Instr), s.schedule = .regWrite 0 4 w :: rest → decodeCommand w = .ok i →
      step s = exec i { s with schedule := rest }) ∧
    (s.schedule = .engineTurn :: rest → step s = engineStep { s with schedule := rest }) ∧
    (s.schedule = [] → step s = engineStep s) ∧
    (s.schedule = [] → s.phase = .idle → step s = .next s)

/-- R172, R181, R182: before a control byte and before an operation the expected length stops the command
first, reading nothing more; else an exhausted input stops it, with the warning exactly where an expected
length was supplied and not reached. -/
def Obligations.StopTestsEndDecode : Prop :=
  ∀ s : State, s.schedule = [] → (s.phase = .decCtrl ∨ s.phase = .decSlot) →
    (s.xv = true → s.olen = s.xl →
      step s = .next { s with
        status := 0x00000002#32, errPos := 0, outLen := s.olen, inPos := s.ip, phase := .idle }) ∧
    (¬ (s.xv = true ∧ s.olen = s.xl) → s.ip = s.il →
      step s = .next { s with
        status := if s.xv = true ∧ s.olen.toNat < s.xl.toNat then 0x00000006#32 else 0x00000002#32
        errPos := 0, outLen := s.olen, inPos := s.ip, phase := .idle })

/-! ## Stream operations -/

/-- R173: CTRL reads the control byte, moves the cursor past it and opens its first slot; it has no error. -/
def Obligations.CtrlOpensGroup : Prop :=
  ∀ (c : Byte) (s : State),
    exec (.ctrl c) s = .next { s with ip := s.ip + 1, ctrlByte := c, slot := 0, phase := .decSlot }

/-- R175: a LIT appends exactly its byte, where the expected length is not reached and OUT has room, and
the next slot or the next control byte follows. -/
def Obligations.LitAppendsItsByte : Prop :=
  ∀ (v : Byte) (s : State),
    ¬ (s.xv = true ∧ s.olen = s.xl) → s.olen.toNat ≠ s.cfg.outCap →
      exec (.lit v) s = .next { s with
        ip := s.ip + 1
        outBuf := Memory.write s.outBuf s.olen.toNat v
        olen := s.olen + 1
        outLen := s.olen + 1
        slot := if s.slot < 7 then s.slot + 1 else 8
        phase := if s.slot < 7 then .decSlot else .decCtrl }

/-- The next state of a nibble pattern that appends the bytes `b0`, `b1` whole. -/
def appendsTwo (b0 b1 : Byte) (s : State) : State :=
  { s with
    ip := s.ip + 1
    outBuf := Memory.write (Memory.write s.outBuf s.olen.toNat b0) (s.olen + 1).toNat b1
    olen := s.olen + 2
    outLen := s.olen + 2
    slot := if s.slot < 7 then s.slot + 1 else 8
    phase := if s.slot < 7 then .decSlot else .decCtrl }

/-- R176 with R81 to R89: each NIB appends its two bytes, where the expected length is reached before
neither and OUT has room for both. -/
def Obligations.NibAppendsItsPattern : Prop :=
  ∀ (p : Nibble) (s : State),
    ¬ (s.xv = true ∧ s.olen = s.xl) → ¬ (s.xv = true ∧ s.olen + 1 = s.xl) →
    s.olen.toNat ≠ s.cfg.outCap → (s.olen + 1).toNat ≠ s.cfg.outCap →
      exec (.nib0 p) s = .next (appendsTwo (p ++ p) (p ++ p) s) ∧
      exec (.nib1 p) s = .next (appendsTwo ((p + 1) ++ (p + 1)) ((p + 1) ++ (p + 1)) s) ∧
      exec (.nib2 p) s = .next (appendsTwo (p ++ (p - 1)) (p ++ p) s) ∧
      exec (.nib3 p) s = .next (appendsTwo (p ++ p) ((p - 1) ++ p) s) ∧
      exec (.nib4 p) s = .next (appendsTwo (p ++ p) (p ++ (p - 1)) s) ∧
      exec (.nib5 p) s = .next (appendsTwo ((p - 1) ++ (p - 1)) ((p - 1) ++ (p - 1)) s) ∧
      exec (.nib6 p) s = .next (appendsTwo (p ++ (p + 1)) (p ++ p) s) ∧
      exec (.nib7 p) s = .next (appendsTwo (p ++ p) ((p + 1) ++ p) s) ∧
      exec (.nib8 p) s = .next (appendsTwo (p ++ p) (p ++ (p + 1)) s)

/-- R176, R180: when the expected length is reached after the first byte, the second is not written and
the command ends successfully. -/
def Obligations.NibCutByExpectedLength : Prop :=
  ∀ (k : Fin 9) (p : Nibble) (s : State),
    s.xv = true → s.olen + 1 = s.xl → s.olen.toNat ≠ s.cfg.outCap →
      exec (nibInstr k p) s = .next { s with
        ip := s.ip + 1
        outBuf := Memory.write s.outBuf s.olen.toNat (expand k p).1
        olen := s.olen + 1
        outLen := s.olen + 1
        inPos := s.ip + 1
        status := 0x00000002#32
        errPos := 0
        phase := .idle }

/-- R179: a BREF whose offset is admitted and whose copy is stopped by neither the expected length nor the
capacity appends `length` bytes, byte `j` being the byte `j mod offset` places after address
`olen − offset`; every other OUT byte, and everything else but the cursor, the counters, the slot and the
copy registers, is unchanged. -/
def Obligations.BrefCopiesCyclically : Prop :=
  ∀ (d : Nibble) (x : BitVec 12) (s : State),
    s.ip + 1 ≠ s.il → brefOffset x ≤ s.olen.toNat →
    s.olen.toNat + brefLength d ≤ s.cfg.outCap → s.cfg.outCap < 2 ^ 32 →
    (s.xv = true → s.olen.toNat + brefLength d ≤ s.xl.toNat) →
    (∀ j, j < brefOffset x → (Memory.read s.outBuf (s.olen.toNat - brefOffset x + j)).isSome = true) →
      ∃ t : State, exec (.bref d x) s = .next t ∧
        (∀ j, j < brefLength d → Memory.read t.outBuf (s.olen.toNat + j) =
          Memory.read s.outBuf (s.olen.toNat - brefOffset x + j % brefOffset x)) ∧
        (∀ a, a < s.olen.toNat ∨ s.olen.toNat + brefLength d ≤ a →
          Memory.read t.outBuf a = Memory.read s.outBuf a) ∧
        t = { s with
          ip := s.ip + 2
          outBuf := t.outBuf
          olen := s.olen + BitVec.ofNat 32 (brefLength d)
          outLen := s.olen + BitVec.ofNat 32 (brefLength d)
          slot := if s.slot < 7 then s.slot + 1 else 8
          phase := if s.slot < 7 then .decSlot else .decCtrl
          copyBase := s.olen - BitVec.ofNat 32 (brefOffset x)
          copyOffset := BitVec.ofNat 13 (brefOffset x)
          copyLength := BitVec.ofNat 5 (brefLength d)
          copyCount := BitVec.ofNat 5 (brefLength d) }

/-- R179's "it gives the same bytes as the overlapping copy": after the copy every appended byte equals
the byte `offset` places before it, bytes of the same copy among them. -/
def Obligations.BrefEqualsOverlappingCopy : Prop :=
  ∀ (d : Nibble) (x : BitVec 12) (s t : State),
    s.ip + 1 ≠ s.il → brefOffset x ≤ s.olen.toNat →
    s.olen.toNat + brefLength d ≤ s.cfg.outCap → s.cfg.outCap < 2 ^ 32 →
    (s.xv = true → s.olen.toNat + brefLength d ≤ s.xl.toNat) →
    exec (.bref d x) s = .next t →
      ∀ j, j < brefLength d →
        Memory.read t.outBuf (s.olen.toNat + j) = Memory.read t.outBuf (s.olen.toNat + j - brefOffset x)

/-- R179, R182: when the expected length is reached inside a copy, the copy stops there: OUT holds exactly
`xl` bytes and the command ends successfully. -/
def Obligations.BrefCutByExpectedLength : Prop :=
  ∀ (d : Nibble) (x : BitVec 12) (s : State),
    s.ip + 1 ≠ s.il → brefOffset x ≤ s.olen.toNat →
    s.xv = true → s.olen.toNat ≤ s.xl.toNat → s.xl.toNat < s.olen.toNat + brefLength d →
    s.xl.toNat ≤ s.cfg.outCap →
    (∀ j, j < brefOffset x → (Memory.read s.outBuf (s.olen.toNat - brefOffset x + j)).isSome = true) →
      ∃ t : State, exec (.bref d x) s = .next t ∧
        t.status = 0x00000002#32 ∧ t.phase = .idle ∧ t.errPos = 0 ∧ t.outLen = s.xl ∧ t.inPos = s.ip + 2 ∧
        (∀ j, s.olen.toNat + j < s.xl.toNat → Memory.read t.outBuf (s.olen.toNat + j) =
          Memory.read s.outBuf (s.olen.toNat - brefOffset x + j % brefOffset x)) ∧
        (∀ a, a < s.olen.toNat ∨ s.xl.toNat ≤ a → Memory.read t.outBuf a = Memory.read s.outBuf a)

/-- R229, R231: when OUT is full inside a copy, the bytes appended before stay and OUTPUT_OVERFLOW is
raised at the BREF's first byte, with OUT_LEN = OUT_CAP. -/
def Obligations.BrefOverflowKeepsCopiedBytes : Prop :=
  ∀ (d : Nibble) (x : BitVec 12) (s : State),
    s.ip + 1 ≠ s.il → brefOffset x ≤ s.olen.toNat →
    s.olen.toNat ≤ s.cfg.outCap → s.cfg.outCap < s.olen.toNat + brefLength d → s.cfg.outCap < 2 ^ 32 →
    (s.xv = true → s.cfg.outCap < s.xl.toNat) →
    (∀ j, j < brefOffset x → (Memory.read s.outBuf (s.olen.toNat - brefOffset x + j)).isSome = true) →
      ∃ t : State, exec (.bref d x) s = .next t ∧
        t.status = 0x00000402#32 ∧ t.phase = .idle ∧ t.errPos = s.opstart ∧
        t.outLen = BitVec.ofNat 32 s.cfg.outCap ∧ t.inPos = s.ip + 2 ∧
        (∀ j, s.olen.toNat + j < s.cfg.outCap → Memory.read t.outBuf (s.olen.toNat + j) =
          Memory.read s.outBuf (s.olen.toNat - brefOffset x + j % brefOffset x)) ∧
        (∀ a, a < s.olen.toNat ∨ s.cfg.outCap ≤ a → Memory.read t.outBuf a = Memory.read s.outBuf a)

/-- R222: a BREF whose second byte lies past the end of the input raises TRUNCATED_INPUT: ERR_POS is its
first byte, IN_POS the input's length, OUT_LEN the bytes appended before; OUT is unchanged. -/
def Obligations.BrefTruncatedInput : Prop :=
  ∀ (d : Nibble) (x : BitVec 12) (s : State), s.ip + 1 = s.il →
    exec (.bref d x) s = .next { s with
      ip := s.il, status := 0x00000102#32, errPos := s.opstart, outLen := s.olen, inPos := s.il, phase := .idle }

/-- R223: a BREF, its first byte marked as the operation's start, whose offset is 0 or exceeds the bytes
decoded so far raises INVALID_BACKREF and appends nothing: ERR_POS is its first byte, IN_POS that address
plus 2, OUT_LEN the bytes appended before. -/
def Obligations.BrefInvalidOffset : Prop :=
  ∀ (d : Nibble) (x : BitVec 12) (s : State), s.ip + 1 ≠ s.il →
    (brefOffset x = 0 ∨ s.olen.toNat < brefOffset x) →
      exec (.bref d x) { s with opstart := s.ip } = .next { s with
        opstart := s.ip, ip := s.ip + 2, status := 0x00000202#32, errPos := s.ip, outLen := s.olen,
        inPos := s.ip + 2, phase := .idle }

/-- R229, R230: at an Append with OUT full and the expected length not reached, LIT and NIB raise
OUTPUT_OVERFLOW at the operation's first byte; a NIB with room for one byte keeps that byte. -/
def Obligations.AppendOverflow : Prop :=
  ∀ (v : Byte) (k : Fin 9) (p : Nibble) (s : State),
    (¬ (s.xv = true ∧ s.olen = s.xl) → s.olen.toNat = s.cfg.outCap →
      exec (.lit v) s = .next { s with
        ip := s.ip + 1, status := 0x00000402#32, errPos := s.opstart, outLen := s.olen, inPos := s.ip + 1,
        phase := .idle } ∧
      exec (nibInstr k p) s = exec (.lit v) s) ∧
    (¬ (s.xv = true ∧ s.olen = s.xl) → ¬ (s.xv = true ∧ s.olen + 1 = s.xl) →
      s.olen.toNat ≠ s.cfg.outCap → (s.olen + 1).toNat = s.cfg.outCap →
      exec (nibInstr k p) s = .next { s with
        ip := s.ip + 1
        outBuf := Memory.write s.outBuf s.olen.toNat (expand k p).1
        olen := s.olen + 1
        status := 0x00000402#32
        errPos := s.opstart
        outLen := s.olen + 1
        inPos := s.ip + 1
        phase := .idle })

/-- R230: at an Append the expected length comes before the capacity: with the length reached the command
ends successfully whether or not OUT is full. -/
def Obligations.ExpectedLengthBeforeOverflow : Prop :=
  ∀ (v : Byte) (k : Fin 9) (p : Nibble) (s : State), s.xv = true → s.olen = s.xl →
    exec (.lit v) s = .next { s with
      ip := s.ip + 1, status := 0x00000002#32, errPos := 0, outLen := s.olen, inPos := s.ip + 1, phase := .idle } ∧
    exec (nibInstr k p) s = exec (.lit v) s

/-- How many OUT bytes an instruction may store, from `olen` on. -/
def storeLimit (i : Instr) : Nat :=
  match i with
  | .ctrl _ => 0
  | .lit _ => 1
  | .nib0 _ => 2
  | .nib1 _ => 2
  | .nib2 _ => 2
  | .nib3 _ => 2
  | .nib4 _ => 2
  | .nib5 _ => 2
  | .nib6 _ => 2
  | .nib7 _ => 2
  | .nib8 _ => 2
  | .bref d _ => brefLength d
  | .cmdDecode _ => 0
  | .cmdEncode _ => 0
  | .cmdReserved _ _ => 0

/-- CTRL, LIT, NIB0 to NIB8 and BREF: the instructions read from IN. -/
def isStreamOp (i : Instr) : Bool :=
  match i with
  | .ctrl _ => true
  | .lit _ => true
  | .nib0 _ => true
  | .nib1 _ => true
  | .nib2 _ => true
  | .nib3 _ => true
  | .nib4 _ => true
  | .nib5 _ => true
  | .nib6 _ => true
  | .nib7 _ => true
  | .nib8 _ => true
  | .bref _ _ => true
  | .cmdDecode _ => false
  | .cmdEncode _ => false
  | .cmdReserved _ _ => false

/-- The frame of the stream operations CTRL, LIT, NIB0 to NIB8 and BREF: IN, CTRL, IN_LEN, EXP_LEN, LSET,
FLAGS0..2, the latched inputs, `opstart` and the encoder's state are unchanged; STATUS, ERR_POS and IN_POS
change only where the command ends; OUT_LEN becomes `olen` where anything is appended or the command ends;
the stored OUT bytes are those from `olen` on, at most the operation's own number, and every byte outside
them reads as before. -/
def Obligations.StreamOperationFrame : Prop :=
  ∀ (i : Instr) (s t : State), isStreamOp i = true →
    s.olen.toNat ≤ s.cfg.outCap → s.cfg.outCap < 2 ^ 32 → exec i s = .next t →
      (t = { s with
        ip := t.ip, olen := t.olen, outLen := t.outLen, outBuf := t.outBuf, ctrlByte := t.ctrlByte,
        slot := t.slot, phase := t.phase, copyBase := t.copyBase, copyOffset := t.copyOffset,
        copyLength := t.copyLength, copyCount := t.copyCount, status := t.status, errPos := t.errPos,
        inPos := t.inPos }) ∧
      (t.phase = .idle ∨ (t.status = s.status ∧ t.errPos = s.errPos ∧ t.inPos = s.inPos)) ∧
      (t.ip = s.ip + 1 ∨ t.ip = s.ip + 2) ∧
      s.olen.toNat ≤ t.olen.toNat ∧ t.olen.toNat ≤ s.olen.toNat + storeLimit i ∧
      t.olen.toNat ≤ s.cfg.outCap ∧ (t.outLen = t.olen ∨ t.outLen = s.outLen ∧ t.olen = s.olen) ∧
      (∀ a, a < s.olen.toNat ∨ t.olen.toNat ≤ a → Memory.read t.outBuf a = Memory.read s.outBuf a)

/-! ## Commands -/

/-- What a START that is not ignored leaves in every command (R23): CTRL with START reading 0, STATUS,
OUT_LEN, IN_POS and ERR_POS written, the inputs latched. -/
def startedState (m : BitVec 2) (e : Bool) (s : State) : State :=
  { s with
    ctrl := (if e then 8#32 else 0#32) ||| (m.setWidth 32 <<< 1)
    status := 0x00000001#32
    outLen := 0
    inPos := 0
    errPos := 0
    mode := m
    xv := e
    xl := s.expLen
    il := s.inLen
    ft := ⟨s.flags0.extractLsb' 0 8, s.flags0.extractLsb' 8 8, s.flags0.extractLsb' 16 8,
      s.flags0.extractLsb' 24 8, s.flags1.extractLsb' 0 8, s.flags1.extractLsb' 8 8,
      s.flags1.extractLsb' 16 8, s.flags1.extractLsb' 24 8, s.flags2.extractLsb' 0 8⟩ }

/-- R23, R171: CMD.DECODE while IDLE, with IN_LEN inside IN and, under STRICT_FLAGS, a legal table, latches
its inputs and enters DEC_CTRL with `ip` = `olen` = 0. -/
def Obligations.CmdDecodeStarts : Prop :=
  ∀ (e : Bool) (s : State), s.busy = false → s.inLen.toNat ≤ s.cfg.inCap →
    (s.cfg.strictFlags = true → legalFlags (startedState 0 e s).ft = true) →
      exec (.cmdDecode e) s = .next { startedState 0 e s with ip := 0, olen := 0, phase := .decCtrl }

/-- R23, R141: CMD.ENCODE while IDLE, with IN_LEN inside IN, latches its inputs, empties the encoder's
scratch, seeds LS and LSET with {0, 15} and enters ENC_PARSE. `encodes` is the model's own counter
(log entry 7, DESIGN CHOICE). -/
def Obligations.CmdEncodeStarts : Prop :=
  ∀ (e : Bool) (s : State), s.busy = false → s.inLen.toNat ≤ s.cfg.inCap →
    exec (.cmdEncode e) s = .next { startedState 1 e s with
      n := s.inLen, pos := 0, opbuf := [], ls := 0x8001#16, lset := 0x00008001#32, phase := .encParse,
      encodes := s.encodes + 1 }

/-- R225: CMD.RESERVED while IDLE raises BAD_COMMAND: ERR_POS = IN_POS = OUT_LEN = 0, and OUT, FLAGS and
LSET keep their values. -/
def Obligations.CmdReservedRaisesBadCommand : Prop :=
  ∀ (m : BitVec 2) (e : Bool) (s : State), 2 ≤ m.toNat → s.busy = false →
    exec (.cmdReserved m e) s = .next { startedState m e s with status := 0x00000602#32, phase := .idle }

/-- R230: at START, INPUT_OVERFLOW comes before BAD_FLAG_TABLE, BAD_FLAG_TABLE is raised by DECODE only and
only under STRICT_FLAGS, and BAD_COMMAND comes before both (it is raised whatever IN_LEN is). -/
def Obligations.StartErrorPriority : Prop :=
  ∀ (e : Bool) (s : State), s.busy = false →
    (s.cfg.inCap < s.inLen.toNat →
      exec (.cmdDecode e) s = .next { startedState 0 e s with status := 0x00000502#32, phase := .idle } ∧
      exec (.cmdEncode e) s = .next { startedState 1 e s with status := 0x00000502#32, phase := .idle } ∧
      ∀ m : BitVec 2, 2 ≤ m.toNat →
        exec (.cmdReserved m e) s = .next { startedState m e s with status := 0x00000602#32, phase := .idle }) ∧
    (s.inLen.toNat ≤ s.cfg.inCap → s.cfg.strictFlags = true → legalFlags (startedState 0 e s).ft = false →
      exec (.cmdDecode e) s = .next { startedState 0 e s with status := 0x00000702#32, phase := .idle })

/-- R11, R25: while BUSY a START is ignored entirely, and so is every host write of REG. R255, R261: where the
host neither writes IN or OUT nor resets, its move gives the engine its own step or changes nothing of the
engine; the moves, what the host reads and the draws are the model's form of the host (log entries 4, 5). -/
def Obligations.RegisterWritesIgnoredWhileBusy : Prop :=
  ∀ (s : State), s.busy = true →
    (∀ e, exec (.cmdDecode e) s = .next s ∧ exec (.cmdEncode e) s = .next s) ∧
    (∀ m e, exec (.cmdReserved m e) s = .next s) ∧
    (∀ (offset : Nat) (v : Word) (rest : List Move), offset % 4 = 0 → offset < 64 →
      s.schedule = .regWrite offset 4 v :: rest → step s = .next { s with schedule := rest }) ∧
    (s.touchesBuffer = false → s.resetsCommand = false →
      (∃ ms : List Move, step s = engineStep { s with schedule := ms }) ∨
      ∀ t : State, step s = .next t →
        t = { s with schedule := t.schedule, readData := t.readData, draws := t.draws })

/-- The frame of the three commands: a START changes no buffer, no IN_LEN, EXP_LEN or FLAGS register and
no parameter; LSET changes only where an ENCODE begins. A START while IDLE leaves CFG_LATCHED (R23, R261). -/
def Obligations.CommandFrame : Prop :=
  ∀ (i : Instr) (s t : State), wellFormed .command i = true → exec i s = .next t →
    t.cfg = s.cfg ∧ t.inBuf = s.inBuf ∧ t.outBuf = s.outBuf ∧ t.inLen = s.inLen ∧ t.expLen = s.expLen ∧
    t.flags0 = s.flags0 ∧ t.flags1 = s.flags1 ∧ t.flags2 = s.flags2 ∧ t.schedule = s.schedule ∧
    t.readData = s.readData ∧ t.draws = s.draws ∧
    (t.lset = s.lset ∧ t.ls = s.ls ∧ t.opbuf = s.opbuf ∧ t.pos = s.pos ∧ t.n = s.n ∧
        t.encodes = s.encodes ∨
      (∃ e, i = .cmdEncode e) ∧ t.phase = .encParse ∧ t.lset = 0x00008001#32) ∧
    t.cf = s.cf ∧ t.ctrlByte = s.ctrlByte ∧ t.slot = s.slot ∧ t.opstart = s.opstart ∧
    (t.ip = s.ip ∧ t.olen = s.olen ∨ (∃ e, i = .cmdDecode e) ∧ t.phase = .decCtrl) ∧
    t.copyBase = s.copyBase ∧ t.copyOffset = s.copyOffset ∧ t.copyLength = s.copyLength ∧
    t.copyCount = s.copyCount ∧ (s.busy = false → t.CfgLatched)

/-! ## The host's registers and buffers -/

/-- R26: after reset every register is 0 and the engine is IDLE; R250: a reset move, at any time, leaves
that state, both buffers unwritten, whatever command was in progress, which has no outcome (R260). That the
parameters and the remaining moves stay is the model's form of them (log entries 1 and 4, DESIGN CHOICE). -/
def Obligations.ResetLeavesRegistersZero : Prop :=
  ∀ (s : State) (rest : List Move), s.schedule = .reset :: rest →
    ∃ t : State, step s = .next t ∧
      t.ctrl = 0 ∧ t.status = 0 ∧ t.inLen = 0 ∧ t.expLen = 0 ∧ t.outLen = 0 ∧ t.inPos = 0 ∧ t.errPos = 0 ∧
      t.lset = 0 ∧ t.flags0 = 0 ∧ t.flags1 = 0 ∧ t.flags2 = 0 ∧ t.phase = .idle ∧
      (∀ a, Memory.read t.inBuf a = none ∧ Memory.read t.outBuf a = none) ∧ t.outcome = none ∧
      t.cfg = s.cfg ∧ t.schedule = rest

/-- R10, R24: while IDLE a host read of REG returns the register at its offset, 0 at a reserved offset, and
changes nothing in the engine. -/
def Obligations.IdleRegisterReads : Prop :=
  ∀ (s : State) (offset : Nat) (rest : List Move), s.busy = false → offset % 4 = 0 → offset < 64 →
    s.schedule = .regRead offset 4 :: rest →
      step s = .next { s with
        schedule := rest
        readData := some (
          if offset = 0x00 then s.ctrl else if offset = 0x04 then s.status else if offset = 0x08 then s.inLen
          else if offset = 0x0C then s.expLen else if offset = 0x10 then s.outLen
          else if offset = 0x14 then s.inPos else if offset = 0x18 then s.errPos
          else if offset = 0x1C then s.lset else if offset = 0x20 then s.flags0
          else if offset = 0x24 then s.flags1 else if offset = 0x28 then s.flags2 else 0) }

/-- R11, R13, R14, R19, R24: while IDLE a host write with START = 0 changes only the writable register at
its offset: CTRL's MODE and EXP_VALID, IN_LEN, EXP_LEN, FLAGS0, FLAGS1, bits 7:0 of FLAGS2; read-only and
reserved offsets ignore it. -/
def Obligations.IdleRegisterWrites : Prop :=
  ∀ (s : State) (offset : Nat) (v : Word) (rest : List Move), s.busy = false → offset % 4 = 0 → offset < 64 →
    (offset = 0 → v.getLsbD 0 = false) → s.schedule = .regWrite offset 4 v :: rest →
      step s = .next { s with
        schedule := rest
        ctrl := if offset = 0x00 then v &&& 0x0000000E#32 else s.ctrl
        inLen := if offset = 0x08 then v else s.inLen
        expLen := if offset = 0x0C then v else s.expLen
        flags0 := if offset = 0x20 then v else s.flags0
        flags1 := if offset = 0x24 then v else s.flags1
        flags2 := if offset = 0x28 then v &&& 0x000000FF#32 else s.flags2 }

/-- R25: while BUSY a host read of CTRL, STATUS, IN_LEN or EXP_LEN returns the register, and a read of
OUT_LEN or IN_POS returns a value not above its value at the end of the command; one of LSET or FLAGS2 has its
reserved bits 0 (X7). -/
def Obligations.BusyRegisterReads : Prop :=
  ∀ (s : State) (rest : List Move), s.busy = true →
    (s.schedule = .regRead 0x00 4 :: rest → ∃ t, step s = .next t ∧ t.readData = some s.ctrl) ∧
    (s.schedule = .regRead 0x04 4 :: rest → ∃ t, step s = .next t ∧ t.readData = some s.status) ∧
    (s.schedule = .regRead 0x08 4 :: rest → ∃ t, step s = .next t ∧ t.readData = some s.inLen) ∧
    (s.schedule = .regRead 0x0C 4 :: rest → ∃ t, step s = .next t ∧ t.readData = some s.expLen) ∧
    (s.schedule = .regRead 0x1C 4 :: rest →
      ∃ t v, step s = .next t ∧ t.readData = some v ∧ v &&& 0xFFFF0000#32 = 0) ∧
    (s.schedule = .regRead 0x28 4 :: rest →
      ∃ t v, step s = .next t ∧ t.readData = some v ∧ v &&& 0xFFFFFF00#32 = 0) ∧
    (∀ u, runEngine s.stepBound { s with schedule := rest } = .next u →
      (s.schedule = .regRead 0x10 4 :: rest →
        ∃ t v, step s = .next t ∧ t.readData = some v ∧ v.toNat ≤ u.outLen.toNat) ∧
      (s.schedule = .regRead 0x14 4 :: rest →
        ∃ t v, step s = .next t ∧ t.readData = some v ∧ v.toNat ≤ u.inPos.toNat))

/-- R45, R51, R255: a REG access of another width or at an offset that is not a multiple of 4 is refused,
and so is a host write of IN or OUT while BUSY; while IDLE a host write inside a buffer stores its byte and
nothing else changes. -/
def Obligations.HostBufferAndAccessRules : Prop :=
  ∀ (s : State) (a width : Nat) (v : Byte) (w : Word) (rest : List Move),
    (width ≠ 4 ∨ a % 4 ≠ 0 → s.schedule = .regWrite a width w :: rest →
      step s = .refused (.badRegAccess a width)) ∧
    (width ≠ 4 ∨ a % 4 ≠ 0 → s.schedule = .regRead a width :: rest →
      step s = .refused (.badRegAccess a width)) ∧
    (s.busy = true → s.schedule = .inWrite a v :: rest → step s = .refused .bufferAccessWhileBusy) ∧
    (s.busy = true → s.schedule = .outWrite a v :: rest → step s = .refused .bufferAccessWhileBusy) ∧
    (s.busy = false → a < s.cfg.inCap → s.schedule = .inWrite a v :: rest →
      ∃ t : State, step s = .next t ∧ t = { s with schedule := rest, inBuf := t.inBuf } ∧
        Memory.read t.inBuf a = some v ∧ ∀ b, b ≠ a → Memory.read t.inBuf b = Memory.read s.inBuf b) ∧
    (s.busy = false → a < s.cfg.outCap → s.schedule = .outWrite a v :: rest →
      ∃ t : State, step s = .next t ∧ t = { s with schedule := rest, outBuf := t.outBuf } ∧
        Memory.read t.outBuf a = some v ∧ ∀ b, b ≠ a → Memory.read t.outBuf b = Memory.read s.outBuf b)

/-! ## The encoder's components -/

/-- The properties (a) to (e) that R90 derives ("Properties [derived: from rules R80 to R89]"): `classify`
is the exact inverse of `expand`: what it returns expands to the pair, it returns none exactly for pairs
that no index and payload produce, never index 1 or 5; a difference of 1 is modulo 16; a pattern whose odd
nibble is the first has no entry. -/
def Obligations.ClassifyInvertsExpand : Prop :=
  ∀ b0 b1 : Byte,
    (∀ f p, classify b0 b1 = some (f, p) → expand f p = (b0, b1) ∧ f ≠ 1 ∧ f ≠ 5) ∧
    (classify b0 b1 = none ↔ ∀ f p, expand f p ≠ (b0, b1)) ∧
    classify 0x0F#8 0x00#8 = some (2, 0#4) ∧ classify 0xF0#8 0xFF#8 = some (6, 15#4) ∧
    (hi b0 ≠ lo b0 → hi b1 = lo b0 → lo b1 = lo b0 → classify b0 b1 = none)

/-- R106 (the spec's own inference, "[derived: from rules R101 to R104]"): what the match finder returns is
a match: its length is within the lookahead, its offset within the window, the bytes are equal, and they are
the cyclic copy of the `offset` bytes before `pos`. -/
def Obligations.MatchFinderIsSound : Prop :=
  ∀ (D : List Byte) (pos off len : Nat), pos < D.length → findMatch D pos = some (off, len) →
    3 ≤ len ∧ len ≤ min 18 (D.length - pos) ∧ 1 ≤ off ∧ off ≤ min pos 4096 ∧
    (∀ j, j < len → byteAt D (pos - off + j) = byteAt D (pos + j)) ∧
    (∀ j, j < len → byteAt D (pos + j) = byteAt D (pos - off + j % off))

/-- R103, R105: no earlier start in the window gives a longer match, and none further back gives one as
long: the longest match wins and, among equals, the one with the largest offset; none is returned only
where no start of the window gives 3 equal bytes inside the input. -/
def Obligations.MatchFinderIsLongestAndLeftmost : Prop :=
  ∀ (D : List Byte) (pos off k : Nat), 1 ≤ off → off ≤ min pos 4096 → k ≤ min 18 (D.length - pos) → 3 ≤ k →
    (∀ j, j < k → byteAt D (pos - off + j) = byteAt D (pos + j)) →
      ∃ bestOff bestLen, findMatch D pos = some (bestOff, bestLen) ∧ k ≤ bestLen ∧
        (k = bestLen → off ≤ bestOff)

/-- R121, with R122's and R123's inferences ("[derived: from rules R120, R121]"): from a LengthSet that
keeps its invariant, `alloc(d)` returns a member of the new set not above `d`, `d` itself where it was a
member or there was room, else the largest member below `d`; the set only grows, by `d` alone, and keeps its
invariant; `d = 15` is never clamped. -/
def Obligations.AllocatorClampsDownOnly : Prop :=
  ∀ (ls : BitVec 16) (d : Nat), lengthSetOk ls → d ≤ 15 →
    lengthSetOk (alloc ls d).1 ∧ (alloc ls d).2 ≤ d ∧ lsMember (alloc ls d).1 (alloc ls d).2 = true ∧
    (lsMember ls d = true ∨ lsSize ls < 7 → (alloc ls d).2 = d) ∧
    (∀ e, e ≤ d → lsMember (alloc ls d).1 e = true → e ≤ (alloc ls d).2) ∧
    (lsMember ls d = true ∨ 7 ≤ lsSize ls → (alloc ls d).1 = ls) ∧
    (∀ v, v ≤ 15 → lsMember ls v = true → lsMember (alloc ls d).1 v = true) ∧
    (∀ v, lsMember (alloc ls d).1 v = true → lsMember ls v = true ∨ v = d) ∧
    (d = 15 → (alloc ls d).2 = 15)

/-- R124, R126: ControlFlags are nine ascending nibble values outside LS, and with `|LS| = 7` every nibble
value is in one of the two; the table is legal for the decoder and FLAGS_VALID against LS (R261). -/
def Obligations.ControlFlagsAvoidLengthSet : Prop :=
  ∀ ls : BitVec 16, lengthSetOk ls →
    (∀ j k : Fin 9, j < k → ((controlFlags ls).get j).toNat < ((controlFlags ls).get k).toNat) ∧
    (∀ k : Fin 9, lsMember ls ((controlFlags ls).get k).toNat = false) ∧
    (∀ v, v ≤ 15 → lsMember ls v = false → (∃ k : Fin 9, ((controlFlags ls).get k).toNat = v) ∨
      ∀ k : Fin 9, ((controlFlags ls).get k).toNat < v) ∧
    (lsSize ls = 7 → ∀ v, v ≤ 15 → lsMember ls v = true ∨ ∃ k : Fin 9, ((controlFlags ls).get k).toNat = v) ∧
    legalFlags (flagTableOfNibbles (controlFlags ls)) = true ∧
    flagsValid (flagTableOfNibbles (controlFlags ls)) ls = true

/-- R74 (the spec's own inference, "[derived: from rules R60, R63, R64, R65]"): a stream of `m` operations
of which `nb` are BREF has `ceil(m / 8) + m + nb` bytes. -/
def Obligations.StreamSizeFormula : Prop :=
  ∀ (ft : FlagTable) (ops : List Op), (emitStream ft ops).length = streamSize ops

/-- R142: the parse of any input covers it exactly: the operations' widths add up to its length, the
LengthSet keeps its invariant, and every operation is one the reference encoder may hold (R73). -/
def Obligations.ParseCoversInput : Prop :=
  ∀ D : List Byte, opsWidth (parse D).1 = D.length ∧ lengthSetOk (parse D).2 ∧
    ∀ o ∈ (parse D).1, Op.Allowed (parse D).2 o

/-- R142 to R146: in ENC_PARSE before the end of the input, a step pushes the operation of the first choice
that applies (a match, four equal nibbles, another pattern of the table, a literal) and moves past its
bytes. -/
def Obligations.ParseStepTakesFirstChoice : Prop :=
  ∀ (s : State) (D : List Byte), s.schedule = [] → s.phase = .encParse →
    s.inputBytes = .ok D → s.pos.toNat < s.n.toNat →
      (∀ off len, findMatch D s.pos.toNat = some (off, len) →
        step s = .next { s with
          opbuf := s.opbuf ++ [.bref ((alloc s.ls (len - 3)).2 + 3) off]
          ls := (alloc s.ls (len - 3)).1
          pos := s.pos + BitVec.ofNat 32 ((alloc s.ls (len - 3)).2 + 3) }) ∧
      (findMatch D s.pos.toNat = none → s.pos.toNat + 2 ≤ D.length →
        ∀ f p, classify (byteAt D s.pos.toNat) (byteAt D (s.pos.toNat + 1)) = some (f, p) →
          step s = .next { s with opbuf := s.opbuf ++ [.nib f p], pos := s.pos + 2 }) ∧
      (findMatch D s.pos.toNat = none →
        (D.length < s.pos.toNat + 2 ∨ classify (byteAt D s.pos.toNat) (byteAt D (s.pos.toNat + 1)) = none) →
          step s = .next { s with opbuf := s.opbuf ++ [.lit (byteAt D s.pos.toNat)], pos := s.pos + 1 })

/-- R148 to R150: at the end of the input parsing ends with CF, LSET and IN_POS; then the reference
encoder's check raises SIZE_OVERFLOW above 65535 bytes, before OUTPUT_OVERFLOW above OUT_CAP, with OUT and
FLAGS unchanged, OUT_LEN = 0 and ERR_POS = IN_POS = IN_LEN; else it enters ENC_EMIT. -/
def Obligations.EncodeCheckRejectsOversize : Prop :=
  ∀ s : State, s.schedule = [] →
    (∀ D, s.phase = .encParse → s.inputBytes = .ok D → s.pos = s.n →
      step s = .next { s with
        cf := controlFlags s.ls, lset := s.ls.setWidth 32, inPos := s.n, phase := .encCheck }) ∧
    (s.phase = .encCheck → s.cfg.encoderModel = .reference →
      (65535 < streamSize s.opbuf →
        step s = .next { s with
          status := 0x00000302#32, errPos := s.n, outLen := 0, inPos := s.n, phase := .idle }) ∧
      (streamSize s.opbuf ≤ 65535 → s.cfg.outCap < streamSize s.opbuf →
        step s = .next { s with
          status := 0x00000402#32, errPos := s.n, outLen := 0, inPos := s.n, phase := .idle }) ∧
      (streamSize s.opbuf ≤ 65535 → streamSize s.opbuf ≤ s.cfg.outCap →
        step s = .next { s with olen := 0, phase := .encEmit }))

/-- R151, R156: ENC_EMIT writes the stream to OUT from address 0, FLAGS <- CF, OUT_LEN <- `total` and ends
successfully; OUT bytes from `total` on are unchanged (R52). -/
def Obligations.EncodeEmitPublishes : Prop :=
  ∀ s : State, s.schedule = [] → s.phase = .encEmit → s.olen = 0 → streamSize s.opbuf ≤ 65535 →
    ∃ t : State, step s = .next t ∧ t.status = 0x00000002#32 ∧ t.phase = .idle ∧ t.errPos = 0 ∧
      t.outLen = BitVec.ofNat 32 (streamSize s.opbuf) ∧ t.inPos = s.n ∧ t.lset = s.lset ∧
      flagEntries t.flags0 t.flags1 t.flags2 = flagTableOfNibbles s.cf ∧
      (∀ j, j < streamSize s.opbuf →
        Memory.read t.outBuf j = (emitStream (flagTableOfNibbles s.cf) s.opbuf)[j]?) ∧
      (∀ a, streamSize s.opbuf ≤ a → Memory.read t.outBuf a = Memory.read s.outBuf a) ∧
      t.inBuf = s.inBuf ∧ t.ctrl = s.ctrl ∧ t.inLen = s.inLen ∧ t.expLen = s.expLen

/-- R157 (the spec's own inference, "[derived: from rules R124, R142, R149, R156]"): an ENCODE of the empty
input, from any IDLE state, ends with OUT_LEN = 0, OUT unchanged, FLAGS = [1, ..., 9] and LSET = 0x00008001.
That three engine steps do it is the model's step size (log entry 13, DESIGN CHOICE). -/
def Obligations.EmptyInputEncodes : Prop :=
  ∀ (e : Bool) (s u : State), s.busy = false → s.inLen = 0 → s.cfg.encoderModel = .reference →
    exec (.cmdEncode e) s = .next u →
      ∃ t : State, runEngine 3 u = .next t ∧ t.phase = .idle ∧ t.status = 0x00000002#32 ∧ t.outLen = 0 ∧
        t.inPos = 0 ∧ t.errPos = 0 ∧ t.outBuf = s.outBuf ∧ t.flags0 = 0x04030201#32 ∧
        t.flags1 = 0x08070605#32 ∧ t.flags2 = 0x00000009#32 ∧ t.lset = 0x00008001#32

/-! ## Whole commands -/

/-- R158 and R9 (the spec's own inference, "[derived: from rules R106, R122, R124, ...]"): the reference
encoder's result is valid for every input it does not reject: nine distinct flags, at most 65535 bytes, and
the decoder returns exactly the input, with and without the expected length. The decoder is run with buffers of 2^32 − 1 bytes (log entry 18, DESIGN CHOICE). -/
def Obligations.ReferenceEncoderRoundTrip : Prop :=
  ∀ D : List Byte, D.length < 2 ^ 32 → streamSize (parse D).1 ≤ 65535 →
    validResult (referenceResult D).1 (referenceResult D).2 D = true

/-- 43_encoder.md as a whole: an ENCODE of `D` by the reference encoder, from any IDLE state with `D` in IN,
ends within `n + 3` engine steps with exactly the reference result in OUT and FLAGS, where it fits. The
count is of the model's own step size (log entry 13, DESIGN CHOICE). -/
def Obligations.EncodeRunsToReferenceResult : Prop :=
  ∀ (e : Bool) (s u : State) (D : List Byte), s.Idle → s.cfg.encoderModel = .reference →
    s.inLen.toNat = D.length → D.length ≤ s.cfg.inCap → Memory.readBytes s.inBuf 0 D.length = .ok D →
    streamSize (parse D).1 ≤ 65535 → streamSize (parse D).1 ≤ s.cfg.outCap →
    exec (.cmdEncode e) s = .next u →
      ∃ t : State, runEngine (D.length + 3) u = .next t ∧ t.phase = .idle ∧ t.status = 0x00000002#32 ∧
        t.outLen.toNat = (referenceResult D).2.length ∧ t.inPos = s.inLen ∧ t.errPos = 0 ∧
        t.lset = (parse D).2.setWidth 32 ∧
        flagEntries t.flags0 t.flags1 t.flags2 = flagTableOfNibbles (referenceResult D).1 ∧
        (∀ j, j < (referenceResult D).2.length → Memory.read t.outBuf j = (referenceResult D).2[j]?) ∧
        (∀ a, (referenceResult D).2.length ≤ a → Memory.read t.outBuf a = Memory.read s.outBuf a) ∧
        t.inBuf = s.inBuf

/-- R183 (the spec's own inference, "[derived: from rules R172 to R180]"): from every state of a DECODE in
its bounds with its input written, the command ends within `il − ip + 2` engine steps. The count is of the
model's own step size (log entry 13, DESIGN CHOICE). -/
def Obligations.DecodeAlwaysEnds : Prop :=
  ∀ s : State, s.EngineBounds → s.inDecode = true → s.InWritten s.il →
    ∃ t : State, runEngine (s.il.toNat - s.ip.toNat + 2) s = .next t ∧ t.phase = .idle ∧ t.done = true ∧
      t.busy = false

/-- R142, R259: from every state of an ENCODE in its bounds with its input written, the command ends within
`n − pos + 3` engine steps, under either encoder model. The count is of the model's own step size (log entry
13, DESIGN CHOICE), and an ANY_VALID result is the model's free candidate (log entry 7, DESIGN CHOICE). -/
def Obligations.EncodeAlwaysEnds : Prop :=
  ∀ s : State, s.EngineBounds → s.inEncode = true → s.InWritten s.n →
    ∃ t : State, runEngine (s.n.toNat - s.pos.toNat + 3) s = .next t ∧ t.phase = .idle ∧ t.done = true ∧
      t.busy = false

/-- R185 (the spec's own inference, "[derived: from rules R171 to R182]"): the outcome of a DECODE is a function
of the IN bytes below the length, the flag entries, the expected length, OUT_CAP and STRICT_FLAGS alone. Two
IDLE states that agree on those, with the same answer to IN_LEN > IN_CAP and OUT_CAP < 2^32 (R229), take the
same steps to the same outcome, whatever else differs: OUT's earlier contents, LSET, the encoder's scratch,
IN bytes above. DECODE writes neither LSET nor FLAGS, so the whole tuple of R260 agrees where LSET did before. -/
def Obligations.DecodeOutcomeIsDeterminedByItsInputs : Prop :=
  ∀ (e : Bool) (s1 s2 u1 u2 t1 : State) (k : Nat), s1.Idle → s2.Idle →
    (s1.cfg.inCap < s1.inLen.toNat ↔ s2.cfg.inCap < s2.inLen.toNat) →
    s1.cfg.outCap = s2.cfg.outCap → s1.cfg.outCap < 2 ^ 32 →
    s1.cfg.strictFlags = s2.cfg.strictFlags →
    s1.inLen = s2.inLen → s1.expLen = s2.expLen → s1.flags0 = s2.flags0 → s1.flags1 = s2.flags1 →
    s1.flags2 = s2.flags2 →
    (∀ a, a < s1.inLen.toNat → Memory.read s1.inBuf a = Memory.read s2.inBuf a) →
    exec (.cmdDecode e) s1 = .next u1 → exec (.cmdDecode e) s2 = .next u2 → runEngine k u1 = .next t1 →
      ∃ t2 : State, runEngine k u2 = .next t2 ∧ t1.phase = t2.phase ∧ sameDecodeOutcome t1 t2 ∧
        (s1.lset = s2.lset → sameOutcome t1 t2)

/-! ## Invariants -/

/-- Every step keeps both buffers in canonical form. -/
def Obligations.StepKeepsBuffersCanonical : Prop :=
  ∀ s t : State, s.BuffersCanonical → step s = .next t → t.BuffersCanonical

/-- Every step keeps the register invariant: reserved fields read 0, STATUS is one of its legal values,
BUSY is the engine phase, ERR_POS is 0 without an error (R11, R12, R17 to R19, R27, R220, R221). -/
def Obligations.StepKeepsRegistersLegal : Prop :=
  ∀ s t : State, s.RegistersLegal → step s = .next t → t.RegistersLegal

/-- Every step keeps the engine's bounds: the cursor inside the input, the output inside OUT and below the
expected length, OUT bytes below `olen` written, the LengthSet's and OPBUF's invariants (R20, R41 to R43,
R123, R180). -/
def Obligations.StepKeepsEngineBounds : Prop :=
  ∀ s t : State, s.EngineBounds → step s = .next t → t.EngineBounds

/-- The three invariants hold at reset. -/
def Obligations.ResetMeetsInvariants : Prop :=
  State.reset.BuffersCanonical ∧ State.reset.RegistersLegal ∧ State.reset.EngineBounds

/-- From a state in its bounds the engine never reads an OUT byte that nothing has written (R43): the only
fault of an engine step is the read of an unwritten IN byte (R53), and it never refuses. -/
def Obligations.EngineFaultsOnlyOnUnwrittenInput : Prop :=
  ∀ s : State, s.EngineBounds →
    (∀ f, engineStep s = .fault f → ∃ a, f = .unwrittenIn a ∧ Memory.read s.inBuf a = none) ∧
    (∀ r, engineStep s ≠ .refused r)

/-- R41, R50: no engine step changes IN; nor does it change the host's registers CTRL, IN_LEN and EXP_LEN,
the parameters or the host's moves, nor what START latched (R23); a DECODE step changes neither LSET nor FLAGS
(R18, R19). -/
def Obligations.EngineNeverWritesInput : Prop :=
  ∀ s t : State, engineStep s = .next t →
    t.inBuf = s.inBuf ∧ t.cfg = s.cfg ∧ t.ctrl = s.ctrl ∧ t.inLen = s.inLen ∧ t.expLen = s.expLen ∧
    t.schedule = s.schedule ∧ t.readData = s.readData ∧
    t.mode = s.mode ∧ t.xv = s.xv ∧ t.xl = s.xl ∧ t.il = s.il ∧ t.ft = s.ft ∧
    (s.inDecode = true → t.lset = s.lset ∧ t.flags0 = s.flags0 ∧ t.flags1 = s.flags1 ∧ t.flags2 = s.flags2)

/-- R28: nothing but START, the end of a command and reset changes STATUS. -/
def Obligations.StatusChangesOnlyAtStartAndEnd : Prop :=
  ∀ s t : State, step s = .next t → t.status ≠ s.status →
    (s.phase ≠ .idle ∧ t.phase = .idle ∧ t.done = true) ∨
    (∃ w rest i, s.schedule = .regWrite 0 4 w :: rest ∧ s.busy = false ∧ decodeCommand w = .ok i) ∨
    (∃ rest, s.schedule = .reset :: rest ∧ t.status = 0)

/-! ## The host's container framing -/

/-- R205, R207: what `serialize` writes, `deserialize` reads back, whatever bytes follow the container. -/
def Obligations.DeserializeOfSerialize : Prop :=
  ∀ (cfg : Config) (k : Variant) (flags : FlagTable) (C tail buf : List Byte) (size : Nat),
    cfg.wf = true → serialize cfg k flags C size = .ok buf →
      deserialize cfg (buf ++ tail) = .ok { flags := flags, payload := C, expectedLen := size }

/-- R208: `serialize` fails exactly where the container length or the size does not fit its field, and a
container's length is its header's and payload's (R201, R202). -/
def Obligations.SerializeLimits : Prop :=
  ∀ (cfg : Config) (flags : FlagTable) (C : List Byte) (size : Nat),
    (serialize cfg .a flags C size = .error .sizeOverflow ↔ 65535 < 18 + C.length ∨ 65535 < size) ∧
    (serialize cfg .b flags C size = .error .sizeOverflow ↔ 65535 < 20 + C.length ∨ 2 ^ 32 - 1 < size) ∧
    (∀ k buf, cfg.wf = true → serialize cfg k flags C size = .ok buf → buf.length = k.headerSize + C.length)
end

