-- ==== Sys2Proof/Laws/Decode.lean ====
section
/-! SUPPORT. Small laws of the decoder's parts: nibbles of a byte, bytes of a word, the flag index. -/

namespace Sys2Proof

@[simp] theorem hi_joinNibbles (a b : Nibble) : hi (joinNibbles a b) = a := by revert a b; decide

@[simp] theorem lo_joinNibbles (a b : Nibble) : lo (joinNibbles a b) = b := by revert a b; decide

@[simp] theorem joinNibbles_hi_lo (b : Byte) : joinNibbles (hi b) (lo b) = b := by revert b; decide

/-- The bytes of a register word put together again (R44(d)). -/
theorem wordOfBytes_wordBytes (w : Word) :
    wordOfBytes (w.extractLsb' 0 8) (w.extractLsb' 8 8) (w.extractLsb' 16 8) (w.extractLsb' 24 8) = w := by
  apply BitVec.eq_of_getLsbD_eq
  intro i hi
  simp only [wordOfBytes, BitVec.getLsbD_append, BitVec.getLsbD_extractLsb']
  interval_cases i <;> rfl

/-- An index found holds the nibble (R68). -/
theorem flagIndex_get {ft : FlagTable} {h : Nibble} {k : Fin 9} (hk : flagIndex ft h = some k) :
    ft.get k = h.setWidth 8 := by
  unfold flagIndex at hk
  repeat' split at hk
  all_goals first
    | (simp only [Option.some.injEq] at hk; subst hk; assumption)
    | simp only [reduceCtorEq] at hk

/-- No index is found exactly where no entry holds the nibble (R62). -/
theorem flagIndex_none {ft : FlagTable} {h : Nibble} (hn : flagIndex ft h = none) (k : Fin 9) :
    ft.get k ≠ h.setWidth 8 := by
  unfold flagIndex at hn
  split at hn <;> [cases hn; skip]
  split at hn <;> [cases hn; skip]
  split at hn <;> [cases hn; skip]
  split at hn <;> [cases hn; skip]
  split at hn <;> [cases hn; skip]
  split at hn <;> [cases hn; skip]
  split at hn <;> [cases hn; skip]
  split at hn <;> [cases hn; skip]
  split at hn <;> [cases hn; skip]
  match k with
  | 0 | 1 | 2 | 3 | 4 | 5 | 6 | 7 | 8 => assumption

/-- A nibble instruction is decoded from its index and payload: the index and the payload are not lost. -/
theorem nibInstr_inj {j k : Fin 9} {p q : Nibble} (h : nibInstr j p = nibInstr k q) : j = k ∧ p = q := by
  match j, k with
  | 0, 0 | 1, 1 | 2, 2 | 3, 3 | 4, 4 | 5, 5 | 6, 6 | 7, 7 | 8, 8 => cases h; exact ⟨rfl, rfl⟩
  | 0, 1 | 0, 2 | 0, 3 | 0, 4 | 0, 5 | 0, 6 | 0, 7 | 0, 8
  | 1, 0 | 1, 2 | 1, 3 | 1, 4 | 1, 5 | 1, 6 | 1, 7 | 1, 8
  | 2, 0 | 2, 1 | 2, 3 | 2, 4 | 2, 5 | 2, 6 | 2, 7 | 2, 8
  | 3, 0 | 3, 1 | 3, 2 | 3, 4 | 3, 5 | 3, 6 | 3, 7 | 3, 8
  | 4, 0 | 4, 1 | 4, 2 | 4, 3 | 4, 5 | 4, 6 | 4, 7 | 4, 8
  | 5, 0 | 5, 1 | 5, 2 | 5, 3 | 5, 4 | 5, 6 | 5, 7 | 5, 8
  | 6, 0 | 6, 1 | 6, 2 | 6, 3 | 6, 4 | 6, 5 | 6, 7 | 6, 8
  | 7, 0 | 7, 1 | 7, 2 | 7, 3 | 7, 4 | 7, 5 | 7, 6 | 7, 8
  | 8, 0 | 8, 1 | 8, 2 | 8, 3 | 8, 4 | 8, 5 | 8, 6 | 8, 7 => cases h

end Sys2Proof
end

