-- ==== Sys2Proof/Laws/State.lean ====
section
/-! SUPPORT. One lemma a field for each named update of the state, true by rfl: later proofs cite these by
simp and do not unfold a record update. -/

namespace Sys2Proof.Machine

/-! ### The end of a command (R231, R232) -/

@[simp] theorem State.endCommand_cfg (s : State) (w : Bool) (err : BitVec 4) (p o i : Word) : (s.endCommand w err p o i).cfg = s.cfg := rfl
@[simp] theorem State.endCommand_ctrl (s : State) (w : Bool) (err : BitVec 4) (p o i : Word) : (s.endCommand w err p o i).ctrl = s.ctrl := rfl
@[simp] theorem State.endCommand_status (s : State) (w : Bool) (err : BitVec 4) (p o i : Word) : (s.endCommand w err p o i).status = statusEnded w err := rfl
@[simp] theorem State.endCommand_inLen (s : State) (w : Bool) (err : BitVec 4) (p o i : Word) : (s.endCommand w err p o i).inLen = s.inLen := rfl
@[simp] theorem State.endCommand_expLen (s : State) (w : Bool) (err : BitVec 4) (p o i : Word) : (s.endCommand w err p o i).expLen = s.expLen := rfl
@[simp] theorem State.endCommand_outLen (s : State) (w : Bool) (err : BitVec 4) (p o i : Word) : (s.endCommand w err p o i).outLen = o := rfl
@[simp] theorem State.endCommand_inPos (s : State) (w : Bool) (err : BitVec 4) (p o i : Word) : (s.endCommand w err p o i).inPos = i := rfl
@[simp] theorem State.endCommand_errPos (s : State) (w : Bool) (err : BitVec 4) (p o i : Word) : (s.endCommand w err p o i).errPos = p := rfl
@[simp] theorem State.endCommand_lset (s : State) (w : Bool) (err : BitVec 4) (p o i : Word) : (s.endCommand w err p o i).lset = s.lset := rfl
@[simp] theorem State.endCommand_flags0 (s : State) (w : Bool) (err : BitVec 4) (p o i : Word) : (s.endCommand w err p o i).flags0 = s.flags0 := rfl
@[simp] theorem State.endCommand_flags1 (s : State) (w : Bool) (err : BitVec 4) (p o i : Word) : (s.endCommand w err p o i).flags1 = s.flags1 := rfl
@[simp] theorem State.endCommand_flags2 (s : State) (w : Bool) (err : BitVec 4) (p o i : Word) : (s.endCommand w err p o i).flags2 = s.flags2 := rfl
@[simp] theorem State.endCommand_inBuf (s : State) (w : Bool) (err : BitVec 4) (p o i : Word) : (s.endCommand w err p o i).inBuf = s.inBuf := rfl
@[simp] theorem State.endCommand_outBuf (s : State) (w : Bool) (err : BitVec 4) (p o i : Word) : (s.endCommand w err p o i).outBuf = s.outBuf := rfl
@[simp] theorem State.endCommand_phase (s : State) (w : Bool) (err : BitVec 4) (p o i : Word) : (s.endCommand w err p o i).phase = .idle := rfl
@[simp] theorem State.endCommand_mode (s : State) (w : Bool) (err : BitVec 4) (p o i : Word) : (s.endCommand w err p o i).mode = s.mode := rfl
@[simp] theorem State.endCommand_ip (s : State) (w : Bool) (err : BitVec 4) (p o i : Word) : (s.endCommand w err p o i).ip = s.ip := rfl
@[simp] theorem State.endCommand_olen (s : State) (w : Bool) (err : BitVec 4) (p o i : Word) : (s.endCommand w err p o i).olen = s.olen := rfl
@[simp] theorem State.endCommand_ctrlByte (s : State) (w : Bool) (err : BitVec 4) (p o i : Word) : (s.endCommand w err p o i).ctrlByte = s.ctrlByte := rfl
@[simp] theorem State.endCommand_slot (s : State) (w : Bool) (err : BitVec 4) (p o i : Word) : (s.endCommand w err p o i).slot = s.slot := rfl
@[simp] theorem State.endCommand_ft (s : State) (w : Bool) (err : BitVec 4) (p o i : Word) : (s.endCommand w err p o i).ft = s.ft := rfl
@[simp] theorem State.endCommand_xv (s : State) (w : Bool) (err : BitVec 4) (p o i : Word) : (s.endCommand w err p o i).xv = s.xv := rfl
@[simp] theorem State.endCommand_xl (s : State) (w : Bool) (err : BitVec 4) (p o i : Word) : (s.endCommand w err p o i).xl = s.xl := rfl
@[simp] theorem State.endCommand_il (s : State) (w : Bool) (err : BitVec 4) (p o i : Word) : (s.endCommand w err p o i).il = s.il := rfl
@[simp] theorem State.endCommand_opstart (s : State) (w : Bool) (err : BitVec 4) (p o i : Word) : (s.endCommand w err p o i).opstart = s.opstart := rfl
@[simp] theorem State.endCommand_copyBase (s : State) (w : Bool) (err : BitVec 4) (p o i : Word) : (s.endCommand w err p o i).copyBase = s.copyBase := rfl
@[simp] theorem State.endCommand_copyOffset (s : State) (w : Bool) (err : BitVec 4) (p o i : Word) : (s.endCommand w err p o i).copyOffset = s.copyOffset := rfl
@[simp] theorem State.endCommand_copyLength (s : State) (w : Bool) (err : BitVec 4) (p o i : Word) : (s.endCommand w err p o i).copyLength = s.copyLength := rfl
@[simp] theorem State.endCommand_copyCount (s : State) (w : Bool) (err : BitVec 4) (p o i : Word) : (s.endCommand w err p o i).copyCount = s.copyCount := rfl
@[simp] theorem State.endCommand_pos (s : State) (w : Bool) (err : BitVec 4) (p o i : Word) : (s.endCommand w err p o i).pos = s.pos := rfl
@[simp] theorem State.endCommand_n (s : State) (w : Bool) (err : BitVec 4) (p o i : Word) : (s.endCommand w err p o i).n = s.n := rfl
@[simp] theorem State.endCommand_ls (s : State) (w : Bool) (err : BitVec 4) (p o i : Word) : (s.endCommand w err p o i).ls = s.ls := rfl
@[simp] theorem State.endCommand_opbuf (s : State) (w : Bool) (err : BitVec 4) (p o i : Word) : (s.endCommand w err p o i).opbuf = s.opbuf := rfl
@[simp] theorem State.endCommand_cf (s : State) (w : Bool) (err : BitVec 4) (p o i : Word) : (s.endCommand w err p o i).cf = s.cf := rfl
@[simp] theorem State.endCommand_schedule (s : State) (w : Bool) (err : BitVec 4) (p o i : Word) : (s.endCommand w err p o i).schedule = s.schedule := rfl
@[simp] theorem State.endCommand_readData (s : State) (w : Bool) (err : BitVec 4) (p o i : Word) : (s.endCommand w err p o i).readData = s.readData := rfl
@[simp] theorem State.endCommand_draws (s : State) (w : Bool) (err : BitVec 4) (p o i : Word) : (s.endCommand w err p o i).draws = s.draws := rfl
@[simp] theorem State.endCommand_encodes (s : State) (w : Bool) (err : BitVec 4) (p o i : Word) : (s.endCommand w err p o i).encodes = s.encodes := rfl

/-! ### The cursor moves (R20) -/

@[simp] theorem State.advance_cfg (s : State) (k : Word) : (s.advance k).cfg = s.cfg := rfl
@[simp] theorem State.advance_ctrl (s : State) (k : Word) : (s.advance k).ctrl = s.ctrl := rfl
@[simp] theorem State.advance_status (s : State) (k : Word) : (s.advance k).status = s.status := rfl
@[simp] theorem State.advance_inLen (s : State) (k : Word) : (s.advance k).inLen = s.inLen := rfl
@[simp] theorem State.advance_expLen (s : State) (k : Word) : (s.advance k).expLen = s.expLen := rfl
@[simp] theorem State.advance_outLen (s : State) (k : Word) : (s.advance k).outLen = s.outLen := rfl
@[simp] theorem State.advance_inPos (s : State) (k : Word) : (s.advance k).inPos = s.inPos := rfl
@[simp] theorem State.advance_errPos (s : State) (k : Word) : (s.advance k).errPos = s.errPos := rfl
@[simp] theorem State.advance_lset (s : State) (k : Word) : (s.advance k).lset = s.lset := rfl
@[simp] theorem State.advance_flags0 (s : State) (k : Word) : (s.advance k).flags0 = s.flags0 := rfl
@[simp] theorem State.advance_flags1 (s : State) (k : Word) : (s.advance k).flags1 = s.flags1 := rfl
@[simp] theorem State.advance_flags2 (s : State) (k : Word) : (s.advance k).flags2 = s.flags2 := rfl
@[simp] theorem State.advance_inBuf (s : State) (k : Word) : (s.advance k).inBuf = s.inBuf := rfl
@[simp] theorem State.advance_outBuf (s : State) (k : Word) : (s.advance k).outBuf = s.outBuf := rfl
@[simp] theorem State.advance_phase (s : State) (k : Word) : (s.advance k).phase = s.phase := rfl
@[simp] theorem State.advance_mode (s : State) (k : Word) : (s.advance k).mode = s.mode := rfl
@[simp] theorem State.advance_ip (s : State) (k : Word) : (s.advance k).ip = s.ip + k := rfl
@[simp] theorem State.advance_olen (s : State) (k : Word) : (s.advance k).olen = s.olen := rfl
@[simp] theorem State.advance_ctrlByte (s : State) (k : Word) : (s.advance k).ctrlByte = s.ctrlByte := rfl
@[simp] theorem State.advance_slot (s : State) (k : Word) : (s.advance k).slot = s.slot := rfl
@[simp] theorem State.advance_ft (s : State) (k : Word) : (s.advance k).ft = s.ft := rfl
@[simp] theorem State.advance_xv (s : State) (k : Word) : (s.advance k).xv = s.xv := rfl
@[simp] theorem State.advance_xl (s : State) (k : Word) : (s.advance k).xl = s.xl := rfl
@[simp] theorem State.advance_il (s : State) (k : Word) : (s.advance k).il = s.il := rfl
@[simp] theorem State.advance_opstart (s : State) (k : Word) : (s.advance k).opstart = s.opstart := rfl
@[simp] theorem State.advance_copyBase (s : State) (k : Word) : (s.advance k).copyBase = s.copyBase := rfl
@[simp] theorem State.advance_copyOffset (s : State) (k : Word) : (s.advance k).copyOffset = s.copyOffset := rfl
@[simp] theorem State.advance_copyLength (s : State) (k : Word) : (s.advance k).copyLength = s.copyLength := rfl
@[simp] theorem State.advance_copyCount (s : State) (k : Word) : (s.advance k).copyCount = s.copyCount := rfl
@[simp] theorem State.advance_pos (s : State) (k : Word) : (s.advance k).pos = s.pos := rfl
@[simp] theorem State.advance_n (s : State) (k : Word) : (s.advance k).n = s.n := rfl
@[simp] theorem State.advance_ls (s : State) (k : Word) : (s.advance k).ls = s.ls := rfl
@[simp] theorem State.advance_opbuf (s : State) (k : Word) : (s.advance k).opbuf = s.opbuf := rfl
@[simp] theorem State.advance_cf (s : State) (k : Word) : (s.advance k).cf = s.cf := rfl
@[simp] theorem State.advance_schedule (s : State) (k : Word) : (s.advance k).schedule = s.schedule := rfl
@[simp] theorem State.advance_readData (s : State) (k : Word) : (s.advance k).readData = s.readData := rfl
@[simp] theorem State.advance_draws (s : State) (k : Word) : (s.advance k).draws = s.draws := rfl
@[simp] theorem State.advance_encodes (s : State) (k : Word) : (s.advance k).encodes = s.encodes := rfl

/-! ### The slot loop (R172) -/

@[simp] theorem State.nextSlot_cfg (s : State) : (s.nextSlot).cfg = s.cfg := rfl
@[simp] theorem State.nextSlot_ctrl (s : State) : (s.nextSlot).ctrl = s.ctrl := rfl
@[simp] theorem State.nextSlot_status (s : State) : (s.nextSlot).status = s.status := rfl
@[simp] theorem State.nextSlot_inLen (s : State) : (s.nextSlot).inLen = s.inLen := rfl
@[simp] theorem State.nextSlot_expLen (s : State) : (s.nextSlot).expLen = s.expLen := rfl
@[simp] theorem State.nextSlot_outLen (s : State) : (s.nextSlot).outLen = s.outLen := rfl
@[simp] theorem State.nextSlot_inPos (s : State) : (s.nextSlot).inPos = s.inPos := rfl
@[simp] theorem State.nextSlot_errPos (s : State) : (s.nextSlot).errPos = s.errPos := rfl
@[simp] theorem State.nextSlot_lset (s : State) : (s.nextSlot).lset = s.lset := rfl
@[simp] theorem State.nextSlot_flags0 (s : State) : (s.nextSlot).flags0 = s.flags0 := rfl
@[simp] theorem State.nextSlot_flags1 (s : State) : (s.nextSlot).flags1 = s.flags1 := rfl
@[simp] theorem State.nextSlot_flags2 (s : State) : (s.nextSlot).flags2 = s.flags2 := rfl
@[simp] theorem State.nextSlot_inBuf (s : State) : (s.nextSlot).inBuf = s.inBuf := rfl
@[simp] theorem State.nextSlot_outBuf (s : State) : (s.nextSlot).outBuf = s.outBuf := rfl
@[simp] theorem State.nextSlot_phase (s : State) : (s.nextSlot).phase = (if s.slot + 1 < Config.group then .decSlot else .decCtrl : Phase) := rfl
@[simp] theorem State.nextSlot_mode (s : State) : (s.nextSlot).mode = s.mode := rfl
@[simp] theorem State.nextSlot_ip (s : State) : (s.nextSlot).ip = s.ip := rfl
@[simp] theorem State.nextSlot_olen (s : State) : (s.nextSlot).olen = s.olen := rfl
@[simp] theorem State.nextSlot_ctrlByte (s : State) : (s.nextSlot).ctrlByte = s.ctrlByte := rfl
@[simp] theorem State.nextSlot_slot (s : State) : (s.nextSlot).slot = if s.slot + 1 < Config.group then s.slot + 1 else Config.group := rfl
@[simp] theorem State.nextSlot_ft (s : State) : (s.nextSlot).ft = s.ft := rfl
@[simp] theorem State.nextSlot_xv (s : State) : (s.nextSlot).xv = s.xv := rfl
@[simp] theorem State.nextSlot_xl (s : State) : (s.nextSlot).xl = s.xl := rfl
@[simp] theorem State.nextSlot_il (s : State) : (s.nextSlot).il = s.il := rfl
@[simp] theorem State.nextSlot_opstart (s : State) : (s.nextSlot).opstart = s.opstart := rfl
@[simp] theorem State.nextSlot_copyBase (s : State) : (s.nextSlot).copyBase = s.copyBase := rfl
@[simp] theorem State.nextSlot_copyOffset (s : State) : (s.nextSlot).copyOffset = s.copyOffset := rfl
@[simp] theorem State.nextSlot_copyLength (s : State) : (s.nextSlot).copyLength = s.copyLength := rfl
@[simp] theorem State.nextSlot_copyCount (s : State) : (s.nextSlot).copyCount = s.copyCount := rfl
@[simp] theorem State.nextSlot_pos (s : State) : (s.nextSlot).pos = s.pos := rfl
@[simp] theorem State.nextSlot_n (s : State) : (s.nextSlot).n = s.n := rfl
@[simp] theorem State.nextSlot_ls (s : State) : (s.nextSlot).ls = s.ls := rfl
@[simp] theorem State.nextSlot_opbuf (s : State) : (s.nextSlot).opbuf = s.opbuf := rfl
@[simp] theorem State.nextSlot_cf (s : State) : (s.nextSlot).cf = s.cf := rfl
@[simp] theorem State.nextSlot_schedule (s : State) : (s.nextSlot).schedule = s.schedule := rfl
@[simp] theorem State.nextSlot_readData (s : State) : (s.nextSlot).readData = s.readData := rfl
@[simp] theorem State.nextSlot_draws (s : State) : (s.nextSlot).draws = s.draws := rfl
@[simp] theorem State.nextSlot_encodes (s : State) : (s.nextSlot).encodes = s.encodes := rfl

/-! ### One byte appended (R42) -/

@[simp] theorem State.putByte_cfg (s : State) (v : Byte) : (s.putByte v).cfg = s.cfg := rfl
@[simp] theorem State.putByte_ctrl (s : State) (v : Byte) : (s.putByte v).ctrl = s.ctrl := rfl
@[simp] theorem State.putByte_status (s : State) (v : Byte) : (s.putByte v).status = s.status := rfl
@[simp] theorem State.putByte_inLen (s : State) (v : Byte) : (s.putByte v).inLen = s.inLen := rfl
@[simp] theorem State.putByte_expLen (s : State) (v : Byte) : (s.putByte v).expLen = s.expLen := rfl
@[simp] theorem State.putByte_outLen (s : State) (v : Byte) : (s.putByte v).outLen = s.olen + 1 := rfl
@[simp] theorem State.putByte_inPos (s : State) (v : Byte) : (s.putByte v).inPos = s.inPos := rfl
@[simp] theorem State.putByte_errPos (s : State) (v : Byte) : (s.putByte v).errPos = s.errPos := rfl
@[simp] theorem State.putByte_lset (s : State) (v : Byte) : (s.putByte v).lset = s.lset := rfl
@[simp] theorem State.putByte_flags0 (s : State) (v : Byte) : (s.putByte v).flags0 = s.flags0 := rfl
@[simp] theorem State.putByte_flags1 (s : State) (v : Byte) : (s.putByte v).flags1 = s.flags1 := rfl
@[simp] theorem State.putByte_flags2 (s : State) (v : Byte) : (s.putByte v).flags2 = s.flags2 := rfl
@[simp] theorem State.putByte_inBuf (s : State) (v : Byte) : (s.putByte v).inBuf = s.inBuf := rfl
@[simp] theorem State.putByte_outBuf (s : State) (v : Byte) : (s.putByte v).outBuf = Memory.write s.outBuf s.olen.toNat v := rfl
@[simp] theorem State.putByte_phase (s : State) (v : Byte) : (s.putByte v).phase = s.phase := rfl
@[simp] theorem State.putByte_mode (s : State) (v : Byte) : (s.putByte v).mode = s.mode := rfl
@[simp] theorem State.putByte_ip (s : State) (v : Byte) : (s.putByte v).ip = s.ip := rfl
@[simp] theorem State.putByte_olen (s : State) (v : Byte) : (s.putByte v).olen = s.olen + 1 := rfl
@[simp] theorem State.putByte_ctrlByte (s : State) (v : Byte) : (s.putByte v).ctrlByte = s.ctrlByte := rfl
@[simp] theorem State.putByte_slot (s : State) (v : Byte) : (s.putByte v).slot = s.slot := rfl
@[simp] theorem State.putByte_ft (s : State) (v : Byte) : (s.putByte v).ft = s.ft := rfl
@[simp] theorem State.putByte_xv (s : State) (v : Byte) : (s.putByte v).xv = s.xv := rfl
@[simp] theorem State.putByte_xl (s : State) (v : Byte) : (s.putByte v).xl = s.xl := rfl
@[simp] theorem State.putByte_il (s : State) (v : Byte) : (s.putByte v).il = s.il := rfl
@[simp] theorem State.putByte_opstart (s : State) (v : Byte) : (s.putByte v).opstart = s.opstart := rfl
@[simp] theorem State.putByte_copyBase (s : State) (v : Byte) : (s.putByte v).copyBase = s.copyBase := rfl
@[simp] theorem State.putByte_copyOffset (s : State) (v : Byte) : (s.putByte v).copyOffset = s.copyOffset := rfl
@[simp] theorem State.putByte_copyLength (s : State) (v : Byte) : (s.putByte v).copyLength = s.copyLength := rfl
@[simp] theorem State.putByte_copyCount (s : State) (v : Byte) : (s.putByte v).copyCount = s.copyCount := rfl
@[simp] theorem State.putByte_pos (s : State) (v : Byte) : (s.putByte v).pos = s.pos := rfl
@[simp] theorem State.putByte_n (s : State) (v : Byte) : (s.putByte v).n = s.n := rfl
@[simp] theorem State.putByte_ls (s : State) (v : Byte) : (s.putByte v).ls = s.ls := rfl
@[simp] theorem State.putByte_opbuf (s : State) (v : Byte) : (s.putByte v).opbuf = s.opbuf := rfl
@[simp] theorem State.putByte_cf (s : State) (v : Byte) : (s.putByte v).cf = s.cf := rfl
@[simp] theorem State.putByte_schedule (s : State) (v : Byte) : (s.putByte v).schedule = s.schedule := rfl
@[simp] theorem State.putByte_readData (s : State) (v : Byte) : (s.putByte v).readData = s.readData := rfl
@[simp] theorem State.putByte_draws (s : State) (v : Byte) : (s.putByte v).draws = s.draws := rfl
@[simp] theorem State.putByte_encodes (s : State) (v : Byte) : (s.putByte v).encodes = s.encodes := rfl

/-! ### A copy begins (R179) -/

@[simp] theorem State.beginCopy_cfg (s : State) (o l : Nat) : (s.beginCopy o l).cfg = s.cfg := rfl
@[simp] theorem State.beginCopy_ctrl (s : State) (o l : Nat) : (s.beginCopy o l).ctrl = s.ctrl := rfl
@[simp] theorem State.beginCopy_status (s : State) (o l : Nat) : (s.beginCopy o l).status = s.status := rfl
@[simp] theorem State.beginCopy_inLen (s : State) (o l : Nat) : (s.beginCopy o l).inLen = s.inLen := rfl
@[simp] theorem State.beginCopy_expLen (s : State) (o l : Nat) : (s.beginCopy o l).expLen = s.expLen := rfl
@[simp] theorem State.beginCopy_outLen (s : State) (o l : Nat) : (s.beginCopy o l).outLen = s.outLen := rfl
@[simp] theorem State.beginCopy_inPos (s : State) (o l : Nat) : (s.beginCopy o l).inPos = s.inPos := rfl
@[simp] theorem State.beginCopy_errPos (s : State) (o l : Nat) : (s.beginCopy o l).errPos = s.errPos := rfl
@[simp] theorem State.beginCopy_lset (s : State) (o l : Nat) : (s.beginCopy o l).lset = s.lset := rfl
@[simp] theorem State.beginCopy_flags0 (s : State) (o l : Nat) : (s.beginCopy o l).flags0 = s.flags0 := rfl
@[simp] theorem State.beginCopy_flags1 (s : State) (o l : Nat) : (s.beginCopy o l).flags1 = s.flags1 := rfl
@[simp] theorem State.beginCopy_flags2 (s : State) (o l : Nat) : (s.beginCopy o l).flags2 = s.flags2 := rfl
@[simp] theorem State.beginCopy_inBuf (s : State) (o l : Nat) : (s.beginCopy o l).inBuf = s.inBuf := rfl
@[simp] theorem State.beginCopy_outBuf (s : State) (o l : Nat) : (s.beginCopy o l).outBuf = s.outBuf := rfl
@[simp] theorem State.beginCopy_phase (s : State) (o l : Nat) : (s.beginCopy o l).phase = .decCopy := rfl
@[simp] theorem State.beginCopy_mode (s : State) (o l : Nat) : (s.beginCopy o l).mode = s.mode := rfl
@[simp] theorem State.beginCopy_ip (s : State) (o l : Nat) : (s.beginCopy o l).ip = s.ip := rfl
@[simp] theorem State.beginCopy_olen (s : State) (o l : Nat) : (s.beginCopy o l).olen = s.olen := rfl
@[simp] theorem State.beginCopy_ctrlByte (s : State) (o l : Nat) : (s.beginCopy o l).ctrlByte = s.ctrlByte := rfl
@[simp] theorem State.beginCopy_slot (s : State) (o l : Nat) : (s.beginCopy o l).slot = s.slot := rfl
@[simp] theorem State.beginCopy_ft (s : State) (o l : Nat) : (s.beginCopy o l).ft = s.ft := rfl
@[simp] theorem State.beginCopy_xv (s : State) (o l : Nat) : (s.beginCopy o l).xv = s.xv := rfl
@[simp] theorem State.beginCopy_xl (s : State) (o l : Nat) : (s.beginCopy o l).xl = s.xl := rfl
@[simp] theorem State.beginCopy_il (s : State) (o l : Nat) : (s.beginCopy o l).il = s.il := rfl
@[simp] theorem State.beginCopy_opstart (s : State) (o l : Nat) : (s.beginCopy o l).opstart = s.opstart := rfl
@[simp] theorem State.beginCopy_copyBase (s : State) (o l : Nat) : (s.beginCopy o l).copyBase = s.olen - BitVec.ofNat 32 o := rfl
@[simp] theorem State.beginCopy_copyOffset (s : State) (o l : Nat) : (s.beginCopy o l).copyOffset = BitVec.ofNat 13 o := rfl
@[simp] theorem State.beginCopy_copyLength (s : State) (o l : Nat) : (s.beginCopy o l).copyLength = BitVec.ofNat 5 l := rfl
@[simp] theorem State.beginCopy_copyCount (s : State) (o l : Nat) : (s.beginCopy o l).copyCount = 0 := rfl
@[simp] theorem State.beginCopy_pos (s : State) (o l : Nat) : (s.beginCopy o l).pos = s.pos := rfl
@[simp] theorem State.beginCopy_n (s : State) (o l : Nat) : (s.beginCopy o l).n = s.n := rfl
@[simp] theorem State.beginCopy_ls (s : State) (o l : Nat) : (s.beginCopy o l).ls = s.ls := rfl
@[simp] theorem State.beginCopy_opbuf (s : State) (o l : Nat) : (s.beginCopy o l).opbuf = s.opbuf := rfl
@[simp] theorem State.beginCopy_cf (s : State) (o l : Nat) : (s.beginCopy o l).cf = s.cf := rfl
@[simp] theorem State.beginCopy_schedule (s : State) (o l : Nat) : (s.beginCopy o l).schedule = s.schedule := rfl
@[simp] theorem State.beginCopy_readData (s : State) (o l : Nat) : (s.beginCopy o l).readData = s.readData := rfl
@[simp] theorem State.beginCopy_draws (s : State) (o l : Nat) : (s.beginCopy o l).draws = s.draws := rfl
@[simp] theorem State.beginCopy_encodes (s : State) (o l : Nat) : (s.beginCopy o l).encodes = s.encodes := rfl

/-! ### A byte of the copy is counted (R179) -/

@[simp] theorem State.countCopy_cfg (s : State) : (s.countCopy).cfg = s.cfg := rfl
@[simp] theorem State.countCopy_ctrl (s : State) : (s.countCopy).ctrl = s.ctrl := rfl
@[simp] theorem State.countCopy_status (s : State) : (s.countCopy).status = s.status := rfl
@[simp] theorem State.countCopy_inLen (s : State) : (s.countCopy).inLen = s.inLen := rfl
@[simp] theorem State.countCopy_expLen (s : State) : (s.countCopy).expLen = s.expLen := rfl
@[simp] theorem State.countCopy_outLen (s : State) : (s.countCopy).outLen = s.outLen := rfl
@[simp] theorem State.countCopy_inPos (s : State) : (s.countCopy).inPos = s.inPos := rfl
@[simp] theorem State.countCopy_errPos (s : State) : (s.countCopy).errPos = s.errPos := rfl
@[simp] theorem State.countCopy_lset (s : State) : (s.countCopy).lset = s.lset := rfl
@[simp] theorem State.countCopy_flags0 (s : State) : (s.countCopy).flags0 = s.flags0 := rfl
@[simp] theorem State.countCopy_flags1 (s : State) : (s.countCopy).flags1 = s.flags1 := rfl
@[simp] theorem State.countCopy_flags2 (s : State) : (s.countCopy).flags2 = s.flags2 := rfl
@[simp] theorem State.countCopy_inBuf (s : State) : (s.countCopy).inBuf = s.inBuf := rfl
@[simp] theorem State.countCopy_outBuf (s : State) : (s.countCopy).outBuf = s.outBuf := rfl
@[simp] theorem State.countCopy_phase (s : State) : (s.countCopy).phase = s.phase := rfl
@[simp] theorem State.countCopy_mode (s : State) : (s.countCopy).mode = s.mode := rfl
@[simp] theorem State.countCopy_ip (s : State) : (s.countCopy).ip = s.ip := rfl
@[simp] theorem State.countCopy_olen (s : State) : (s.countCopy).olen = s.olen := rfl
@[simp] theorem State.countCopy_ctrlByte (s : State) : (s.countCopy).ctrlByte = s.ctrlByte := rfl
@[simp] theorem State.countCopy_slot (s : State) : (s.countCopy).slot = s.slot := rfl
@[simp] theorem State.countCopy_ft (s : State) : (s.countCopy).ft = s.ft := rfl
@[simp] theorem State.countCopy_xv (s : State) : (s.countCopy).xv = s.xv := rfl
@[simp] theorem State.countCopy_xl (s : State) : (s.countCopy).xl = s.xl := rfl
@[simp] theorem State.countCopy_il (s : State) : (s.countCopy).il = s.il := rfl
@[simp] theorem State.countCopy_opstart (s : State) : (s.countCopy).opstart = s.opstart := rfl
@[simp] theorem State.countCopy_copyBase (s : State) : (s.countCopy).copyBase = s.copyBase := rfl
@[simp] theorem State.countCopy_copyOffset (s : State) : (s.countCopy).copyOffset = s.copyOffset := rfl
@[simp] theorem State.countCopy_copyLength (s : State) : (s.countCopy).copyLength = s.copyLength := rfl
@[simp] theorem State.countCopy_copyCount (s : State) : (s.countCopy).copyCount = s.copyCount + 1 := rfl
@[simp] theorem State.countCopy_pos (s : State) : (s.countCopy).pos = s.pos := rfl
@[simp] theorem State.countCopy_n (s : State) : (s.countCopy).n = s.n := rfl
@[simp] theorem State.countCopy_ls (s : State) : (s.countCopy).ls = s.ls := rfl
@[simp] theorem State.countCopy_opbuf (s : State) : (s.countCopy).opbuf = s.opbuf := rfl
@[simp] theorem State.countCopy_cf (s : State) : (s.countCopy).cf = s.cf := rfl
@[simp] theorem State.countCopy_schedule (s : State) : (s.countCopy).schedule = s.schedule := rfl
@[simp] theorem State.countCopy_readData (s : State) : (s.countCopy).readData = s.readData := rfl
@[simp] theorem State.countCopy_draws (s : State) : (s.countCopy).draws = s.draws := rfl
@[simp] theorem State.countCopy_encodes (s : State) : (s.countCopy).encodes = s.encodes := rfl

/-! ### `opstart <- ip` (R172) -/

@[simp] theorem State.markOp_cfg (s : State) : (s.markOp).cfg = s.cfg := rfl
@[simp] theorem State.markOp_ctrl (s : State) : (s.markOp).ctrl = s.ctrl := rfl
@[simp] theorem State.markOp_status (s : State) : (s.markOp).status = s.status := rfl
@[simp] theorem State.markOp_inLen (s : State) : (s.markOp).inLen = s.inLen := rfl
@[simp] theorem State.markOp_expLen (s : State) : (s.markOp).expLen = s.expLen := rfl
@[simp] theorem State.markOp_outLen (s : State) : (s.markOp).outLen = s.outLen := rfl
@[simp] theorem State.markOp_inPos (s : State) : (s.markOp).inPos = s.inPos := rfl
@[simp] theorem State.markOp_errPos (s : State) : (s.markOp).errPos = s.errPos := rfl
@[simp] theorem State.markOp_lset (s : State) : (s.markOp).lset = s.lset := rfl
@[simp] theorem State.markOp_flags0 (s : State) : (s.markOp).flags0 = s.flags0 := rfl
@[simp] theorem State.markOp_flags1 (s : State) : (s.markOp).flags1 = s.flags1 := rfl
@[simp] theorem State.markOp_flags2 (s : State) : (s.markOp).flags2 = s.flags2 := rfl
@[simp] theorem State.markOp_inBuf (s : State) : (s.markOp).inBuf = s.inBuf := rfl
@[simp] theorem State.markOp_outBuf (s : State) : (s.markOp).outBuf = s.outBuf := rfl
@[simp] theorem State.markOp_phase (s : State) : (s.markOp).phase = s.phase := rfl
@[simp] theorem State.markOp_mode (s : State) : (s.markOp).mode = s.mode := rfl
@[simp] theorem State.markOp_ip (s : State) : (s.markOp).ip = s.ip := rfl
@[simp] theorem State.markOp_olen (s : State) : (s.markOp).olen = s.olen := rfl
@[simp] theorem State.markOp_ctrlByte (s : State) : (s.markOp).ctrlByte = s.ctrlByte := rfl
@[simp] theorem State.markOp_slot (s : State) : (s.markOp).slot = s.slot := rfl
@[simp] theorem State.markOp_ft (s : State) : (s.markOp).ft = s.ft := rfl
@[simp] theorem State.markOp_xv (s : State) : (s.markOp).xv = s.xv := rfl
@[simp] theorem State.markOp_xl (s : State) : (s.markOp).xl = s.xl := rfl
@[simp] theorem State.markOp_il (s : State) : (s.markOp).il = s.il := rfl
@[simp] theorem State.markOp_opstart (s : State) : (s.markOp).opstart = s.ip := rfl
@[simp] theorem State.markOp_copyBase (s : State) : (s.markOp).copyBase = s.copyBase := rfl
@[simp] theorem State.markOp_copyOffset (s : State) : (s.markOp).copyOffset = s.copyOffset := rfl
@[simp] theorem State.markOp_copyLength (s : State) : (s.markOp).copyLength = s.copyLength := rfl
@[simp] theorem State.markOp_copyCount (s : State) : (s.markOp).copyCount = s.copyCount := rfl
@[simp] theorem State.markOp_pos (s : State) : (s.markOp).pos = s.pos := rfl
@[simp] theorem State.markOp_n (s : State) : (s.markOp).n = s.n := rfl
@[simp] theorem State.markOp_ls (s : State) : (s.markOp).ls = s.ls := rfl
@[simp] theorem State.markOp_opbuf (s : State) : (s.markOp).opbuf = s.opbuf := rfl
@[simp] theorem State.markOp_cf (s : State) : (s.markOp).cf = s.cf := rfl
@[simp] theorem State.markOp_schedule (s : State) : (s.markOp).schedule = s.schedule := rfl
@[simp] theorem State.markOp_readData (s : State) : (s.markOp).readData = s.readData := rfl
@[simp] theorem State.markOp_draws (s : State) : (s.markOp).draws = s.draws := rfl
@[simp] theorem State.markOp_encodes (s : State) : (s.markOp).encodes = s.encodes := rfl

/-! ### MODE and EXP_VALID are written (R11) -/

@[simp] theorem State.writeCtrl_cfg (s : State) (m : BitVec 2) (e : Bool) : (s.writeCtrl m e).cfg = s.cfg := rfl
@[simp] theorem State.writeCtrl_ctrl (s : State) (m : BitVec 2) (e : Bool) : (s.writeCtrl m e).ctrl = ctrlWord false m e := rfl
@[simp] theorem State.writeCtrl_status (s : State) (m : BitVec 2) (e : Bool) : (s.writeCtrl m e).status = s.status := rfl
@[simp] theorem State.writeCtrl_inLen (s : State) (m : BitVec 2) (e : Bool) : (s.writeCtrl m e).inLen = s.inLen := rfl
@[simp] theorem State.writeCtrl_expLen (s : State) (m : BitVec 2) (e : Bool) : (s.writeCtrl m e).expLen = s.expLen := rfl
@[simp] theorem State.writeCtrl_outLen (s : State) (m : BitVec 2) (e : Bool) : (s.writeCtrl m e).outLen = s.outLen := rfl
@[simp] theorem State.writeCtrl_inPos (s : State) (m : BitVec 2) (e : Bool) : (s.writeCtrl m e).inPos = s.inPos := rfl
@[simp] theorem State.writeCtrl_errPos (s : State) (m : BitVec 2) (e : Bool) : (s.writeCtrl m e).errPos = s.errPos := rfl
@[simp] theorem State.writeCtrl_lset (s : State) (m : BitVec 2) (e : Bool) : (s.writeCtrl m e).lset = s.lset := rfl
@[simp] theorem State.writeCtrl_flags0 (s : State) (m : BitVec 2) (e : Bool) : (s.writeCtrl m e).flags0 = s.flags0 := rfl
@[simp] theorem State.writeCtrl_flags1 (s : State) (m : BitVec 2) (e : Bool) : (s.writeCtrl m e).flags1 = s.flags1 := rfl
@[simp] theorem State.writeCtrl_flags2 (s : State) (m : BitVec 2) (e : Bool) : (s.writeCtrl m e).flags2 = s.flags2 := rfl
@[simp] theorem State.writeCtrl_inBuf (s : State) (m : BitVec 2) (e : Bool) : (s.writeCtrl m e).inBuf = s.inBuf := rfl
@[simp] theorem State.writeCtrl_outBuf (s : State) (m : BitVec 2) (e : Bool) : (s.writeCtrl m e).outBuf = s.outBuf := rfl
@[simp] theorem State.writeCtrl_phase (s : State) (m : BitVec 2) (e : Bool) : (s.writeCtrl m e).phase = s.phase := rfl
@[simp] theorem State.writeCtrl_mode (s : State) (m : BitVec 2) (e : Bool) : (s.writeCtrl m e).mode = s.mode := rfl
@[simp] theorem State.writeCtrl_ip (s : State) (m : BitVec 2) (e : Bool) : (s.writeCtrl m e).ip = s.ip := rfl
@[simp] theorem State.writeCtrl_olen (s : State) (m : BitVec 2) (e : Bool) : (s.writeCtrl m e).olen = s.olen := rfl
@[simp] theorem State.writeCtrl_ctrlByte (s : State) (m : BitVec 2) (e : Bool) : (s.writeCtrl m e).ctrlByte = s.ctrlByte := rfl
@[simp] theorem State.writeCtrl_slot (s : State) (m : BitVec 2) (e : Bool) : (s.writeCtrl m e).slot = s.slot := rfl
@[simp] theorem State.writeCtrl_ft (s : State) (m : BitVec 2) (e : Bool) : (s.writeCtrl m e).ft = s.ft := rfl
@[simp] theorem State.writeCtrl_xv (s : State) (m : BitVec 2) (e : Bool) : (s.writeCtrl m e).xv = s.xv := rfl
@[simp] theorem State.writeCtrl_xl (s : State) (m : BitVec 2) (e : Bool) : (s.writeCtrl m e).xl = s.xl := rfl
@[simp] theorem State.writeCtrl_il (s : State) (m : BitVec 2) (e : Bool) : (s.writeCtrl m e).il = s.il := rfl
@[simp] theorem State.writeCtrl_opstart (s : State) (m : BitVec 2) (e : Bool) : (s.writeCtrl m e).opstart = s.opstart := rfl
@[simp] theorem State.writeCtrl_copyBase (s : State) (m : BitVec 2) (e : Bool) : (s.writeCtrl m e).copyBase = s.copyBase := rfl
@[simp] theorem State.writeCtrl_copyOffset (s : State) (m : BitVec 2) (e : Bool) : (s.writeCtrl m e).copyOffset = s.copyOffset := rfl
@[simp] theorem State.writeCtrl_copyLength (s : State) (m : BitVec 2) (e : Bool) : (s.writeCtrl m e).copyLength = s.copyLength := rfl
@[simp] theorem State.writeCtrl_copyCount (s : State) (m : BitVec 2) (e : Bool) : (s.writeCtrl m e).copyCount = s.copyCount := rfl
@[simp] theorem State.writeCtrl_pos (s : State) (m : BitVec 2) (e : Bool) : (s.writeCtrl m e).pos = s.pos := rfl
@[simp] theorem State.writeCtrl_n (s : State) (m : BitVec 2) (e : Bool) : (s.writeCtrl m e).n = s.n := rfl
@[simp] theorem State.writeCtrl_ls (s : State) (m : BitVec 2) (e : Bool) : (s.writeCtrl m e).ls = s.ls := rfl
@[simp] theorem State.writeCtrl_opbuf (s : State) (m : BitVec 2) (e : Bool) : (s.writeCtrl m e).opbuf = s.opbuf := rfl
@[simp] theorem State.writeCtrl_cf (s : State) (m : BitVec 2) (e : Bool) : (s.writeCtrl m e).cf = s.cf := rfl
@[simp] theorem State.writeCtrl_schedule (s : State) (m : BitVec 2) (e : Bool) : (s.writeCtrl m e).schedule = s.schedule := rfl
@[simp] theorem State.writeCtrl_readData (s : State) (m : BitVec 2) (e : Bool) : (s.writeCtrl m e).readData = s.readData := rfl
@[simp] theorem State.writeCtrl_draws (s : State) (m : BitVec 2) (e : Bool) : (s.writeCtrl m e).draws = s.draws := rfl
@[simp] theorem State.writeCtrl_encodes (s : State) (m : BitVec 2) (e : Bool) : (s.writeCtrl m e).encodes = s.encodes := rfl

/-! ### START (R23) -/

@[simp] theorem State.latch_cfg (s : State) (m : BitVec 2) (e : Bool) : (s.latch m e).cfg = s.cfg := rfl
@[simp] theorem State.latch_ctrl (s : State) (m : BitVec 2) (e : Bool) : (s.latch m e).ctrl = ctrlWord false m e := rfl
@[simp] theorem State.latch_status (s : State) (m : BitVec 2) (e : Bool) : (s.latch m e).status = statusStarted := rfl
@[simp] theorem State.latch_inLen (s : State) (m : BitVec 2) (e : Bool) : (s.latch m e).inLen = s.inLen := rfl
@[simp] theorem State.latch_expLen (s : State) (m : BitVec 2) (e : Bool) : (s.latch m e).expLen = s.expLen := rfl
@[simp] theorem State.latch_outLen (s : State) (m : BitVec 2) (e : Bool) : (s.latch m e).outLen = 0 := rfl
@[simp] theorem State.latch_inPos (s : State) (m : BitVec 2) (e : Bool) : (s.latch m e).inPos = 0 := rfl
@[simp] theorem State.latch_errPos (s : State) (m : BitVec 2) (e : Bool) : (s.latch m e).errPos = 0 := rfl
@[simp] theorem State.latch_lset (s : State) (m : BitVec 2) (e : Bool) : (s.latch m e).lset = s.lset := rfl
@[simp] theorem State.latch_flags0 (s : State) (m : BitVec 2) (e : Bool) : (s.latch m e).flags0 = s.flags0 := rfl
@[simp] theorem State.latch_flags1 (s : State) (m : BitVec 2) (e : Bool) : (s.latch m e).flags1 = s.flags1 := rfl
@[simp] theorem State.latch_flags2 (s : State) (m : BitVec 2) (e : Bool) : (s.latch m e).flags2 = s.flags2 := rfl
@[simp] theorem State.latch_inBuf (s : State) (m : BitVec 2) (e : Bool) : (s.latch m e).inBuf = s.inBuf := rfl
@[simp] theorem State.latch_outBuf (s : State) (m : BitVec 2) (e : Bool) : (s.latch m e).outBuf = s.outBuf := rfl
@[simp] theorem State.latch_phase (s : State) (m : BitVec 2) (e : Bool) : (s.latch m e).phase = s.phase := rfl
@[simp] theorem State.latch_mode (s : State) (m : BitVec 2) (e : Bool) : (s.latch m e).mode = m := rfl
@[simp] theorem State.latch_ip (s : State) (m : BitVec 2) (e : Bool) : (s.latch m e).ip = s.ip := rfl
@[simp] theorem State.latch_olen (s : State) (m : BitVec 2) (e : Bool) : (s.latch m e).olen = s.olen := rfl
@[simp] theorem State.latch_ctrlByte (s : State) (m : BitVec 2) (e : Bool) : (s.latch m e).ctrlByte = s.ctrlByte := rfl
@[simp] theorem State.latch_slot (s : State) (m : BitVec 2) (e : Bool) : (s.latch m e).slot = s.slot := rfl
@[simp] theorem State.latch_ft (s : State) (m : BitVec 2) (e : Bool) : (s.latch m e).ft = flagEntries s.flags0 s.flags1 s.flags2 := rfl
@[simp] theorem State.latch_xv (s : State) (m : BitVec 2) (e : Bool) : (s.latch m e).xv = e := rfl
@[simp] theorem State.latch_xl (s : State) (m : BitVec 2) (e : Bool) : (s.latch m e).xl = s.expLen := rfl
@[simp] theorem State.latch_il (s : State) (m : BitVec 2) (e : Bool) : (s.latch m e).il = s.inLen := rfl
@[simp] theorem State.latch_opstart (s : State) (m : BitVec 2) (e : Bool) : (s.latch m e).opstart = s.opstart := rfl
@[simp] theorem State.latch_copyBase (s : State) (m : BitVec 2) (e : Bool) : (s.latch m e).copyBase = s.copyBase := rfl
@[simp] theorem State.latch_copyOffset (s : State) (m : BitVec 2) (e : Bool) : (s.latch m e).copyOffset = s.copyOffset := rfl
@[simp] theorem State.latch_copyLength (s : State) (m : BitVec 2) (e : Bool) : (s.latch m e).copyLength = s.copyLength := rfl
@[simp] theorem State.latch_copyCount (s : State) (m : BitVec 2) (e : Bool) : (s.latch m e).copyCount = s.copyCount := rfl
@[simp] theorem State.latch_pos (s : State) (m : BitVec 2) (e : Bool) : (s.latch m e).pos = s.pos := rfl
@[simp] theorem State.latch_n (s : State) (m : BitVec 2) (e : Bool) : (s.latch m e).n = s.n := rfl
@[simp] theorem State.latch_ls (s : State) (m : BitVec 2) (e : Bool) : (s.latch m e).ls = s.ls := rfl
@[simp] theorem State.latch_opbuf (s : State) (m : BitVec 2) (e : Bool) : (s.latch m e).opbuf = s.opbuf := rfl
@[simp] theorem State.latch_cf (s : State) (m : BitVec 2) (e : Bool) : (s.latch m e).cf = s.cf := rfl
@[simp] theorem State.latch_schedule (s : State) (m : BitVec 2) (e : Bool) : (s.latch m e).schedule = s.schedule := rfl
@[simp] theorem State.latch_readData (s : State) (m : BitVec 2) (e : Bool) : (s.latch m e).readData = s.readData := rfl
@[simp] theorem State.latch_draws (s : State) (m : BitVec 2) (e : Bool) : (s.latch m e).draws = s.draws := rfl
@[simp] theorem State.latch_encodes (s : State) (m : BitVec 2) (e : Bool) : (s.latch m e).encodes = s.encodes := rfl

/-! ### DECODE begins (R171) -/

@[simp] theorem State.beginDecode_cfg (s : State) : (s.beginDecode).cfg = s.cfg := rfl
@[simp] theorem State.beginDecode_ctrl (s : State) : (s.beginDecode).ctrl = s.ctrl := rfl
@[simp] theorem State.beginDecode_status (s : State) : (s.beginDecode).status = s.status := rfl
@[simp] theorem State.beginDecode_inLen (s : State) : (s.beginDecode).inLen = s.inLen := rfl
@[simp] theorem State.beginDecode_expLen (s : State) : (s.beginDecode).expLen = s.expLen := rfl
@[simp] theorem State.beginDecode_outLen (s : State) : (s.beginDecode).outLen = s.outLen := rfl
@[simp] theorem State.beginDecode_inPos (s : State) : (s.beginDecode).inPos = s.inPos := rfl
@[simp] theorem State.beginDecode_errPos (s : State) : (s.beginDecode).errPos = s.errPos := rfl
@[simp] theorem State.beginDecode_lset (s : State) : (s.beginDecode).lset = s.lset := rfl
@[simp] theorem State.beginDecode_flags0 (s : State) : (s.beginDecode).flags0 = s.flags0 := rfl
@[simp] theorem State.beginDecode_flags1 (s : State) : (s.beginDecode).flags1 = s.flags1 := rfl
@[simp] theorem State.beginDecode_flags2 (s : State) : (s.beginDecode).flags2 = s.flags2 := rfl
@[simp] theorem State.beginDecode_inBuf (s : State) : (s.beginDecode).inBuf = s.inBuf := rfl
@[simp] theorem State.beginDecode_outBuf (s : State) : (s.beginDecode).outBuf = s.outBuf := rfl
@[simp] theorem State.beginDecode_phase (s : State) : (s.beginDecode).phase = .decCtrl := rfl
@[simp] theorem State.beginDecode_mode (s : State) : (s.beginDecode).mode = s.mode := rfl
@[simp] theorem State.beginDecode_ip (s : State) : (s.beginDecode).ip = 0 := rfl
@[simp] theorem State.beginDecode_olen (s : State) : (s.beginDecode).olen = 0 := rfl
@[simp] theorem State.beginDecode_ctrlByte (s : State) : (s.beginDecode).ctrlByte = s.ctrlByte := rfl
@[simp] theorem State.beginDecode_slot (s : State) : (s.beginDecode).slot = s.slot := rfl
@[simp] theorem State.beginDecode_ft (s : State) : (s.beginDecode).ft = s.ft := rfl
@[simp] theorem State.beginDecode_xv (s : State) : (s.beginDecode).xv = s.xv := rfl
@[simp] theorem State.beginDecode_xl (s : State) : (s.beginDecode).xl = s.xl := rfl
@[simp] theorem State.beginDecode_il (s : State) : (s.beginDecode).il = s.il := rfl
@[simp] theorem State.beginDecode_opstart (s : State) : (s.beginDecode).opstart = s.opstart := rfl
@[simp] theorem State.beginDecode_copyBase (s : State) : (s.beginDecode).copyBase = s.copyBase := rfl
@[simp] theorem State.beginDecode_copyOffset (s : State) : (s.beginDecode).copyOffset = s.copyOffset := rfl
@[simp] theorem State.beginDecode_copyLength (s : State) : (s.beginDecode).copyLength = s.copyLength := rfl
@[simp] theorem State.beginDecode_copyCount (s : State) : (s.beginDecode).copyCount = s.copyCount := rfl
@[simp] theorem State.beginDecode_pos (s : State) : (s.beginDecode).pos = s.pos := rfl
@[simp] theorem State.beginDecode_n (s : State) : (s.beginDecode).n = s.n := rfl
@[simp] theorem State.beginDecode_ls (s : State) : (s.beginDecode).ls = s.ls := rfl
@[simp] theorem State.beginDecode_opbuf (s : State) : (s.beginDecode).opbuf = s.opbuf := rfl
@[simp] theorem State.beginDecode_cf (s : State) : (s.beginDecode).cf = s.cf := rfl
@[simp] theorem State.beginDecode_schedule (s : State) : (s.beginDecode).schedule = s.schedule := rfl
@[simp] theorem State.beginDecode_readData (s : State) : (s.beginDecode).readData = s.readData := rfl
@[simp] theorem State.beginDecode_draws (s : State) : (s.beginDecode).draws = s.draws := rfl
@[simp] theorem State.beginDecode_encodes (s : State) : (s.beginDecode).encodes = s.encodes := rfl

/-! ### ENCODE begins (R141) -/

@[simp] theorem State.beginEncode_cfg (s : State) : (s.beginEncode).cfg = s.cfg := rfl
@[simp] theorem State.beginEncode_ctrl (s : State) : (s.beginEncode).ctrl = s.ctrl := rfl
@[simp] theorem State.beginEncode_status (s : State) : (s.beginEncode).status = s.status := rfl
@[simp] theorem State.beginEncode_inLen (s : State) : (s.beginEncode).inLen = s.inLen := rfl
@[simp] theorem State.beginEncode_expLen (s : State) : (s.beginEncode).expLen = s.expLen := rfl
@[simp] theorem State.beginEncode_outLen (s : State) : (s.beginEncode).outLen = s.outLen := rfl
@[simp] theorem State.beginEncode_inPos (s : State) : (s.beginEncode).inPos = s.inPos := rfl
@[simp] theorem State.beginEncode_errPos (s : State) : (s.beginEncode).errPos = s.errPos := rfl
@[simp] theorem State.beginEncode_lset (s : State) : (s.beginEncode).lset = Config.lsSeed.setWidth 32 := rfl
@[simp] theorem State.beginEncode_flags0 (s : State) : (s.beginEncode).flags0 = s.flags0 := rfl
@[simp] theorem State.beginEncode_flags1 (s : State) : (s.beginEncode).flags1 = s.flags1 := rfl
@[simp] theorem State.beginEncode_flags2 (s : State) : (s.beginEncode).flags2 = s.flags2 := rfl
@[simp] theorem State.beginEncode_inBuf (s : State) : (s.beginEncode).inBuf = s.inBuf := rfl
@[simp] theorem State.beginEncode_outBuf (s : State) : (s.beginEncode).outBuf = s.outBuf := rfl
@[simp] theorem State.beginEncode_phase (s : State) : (s.beginEncode).phase = .encParse := rfl
@[simp] theorem State.beginEncode_mode (s : State) : (s.beginEncode).mode = s.mode := rfl
@[simp] theorem State.beginEncode_ip (s : State) : (s.beginEncode).ip = s.ip := rfl
@[simp] theorem State.beginEncode_olen (s : State) : (s.beginEncode).olen = s.olen := rfl
@[simp] theorem State.beginEncode_ctrlByte (s : State) : (s.beginEncode).ctrlByte = s.ctrlByte := rfl
@[simp] theorem State.beginEncode_slot (s : State) : (s.beginEncode).slot = s.slot := rfl
@[simp] theorem State.beginEncode_ft (s : State) : (s.beginEncode).ft = s.ft := rfl
@[simp] theorem State.beginEncode_xv (s : State) : (s.beginEncode).xv = s.xv := rfl
@[simp] theorem State.beginEncode_xl (s : State) : (s.beginEncode).xl = s.xl := rfl
@[simp] theorem State.beginEncode_il (s : State) : (s.beginEncode).il = s.il := rfl
@[simp] theorem State.beginEncode_opstart (s : State) : (s.beginEncode).opstart = s.opstart := rfl
@[simp] theorem State.beginEncode_copyBase (s : State) : (s.beginEncode).copyBase = s.copyBase := rfl
@[simp] theorem State.beginEncode_copyOffset (s : State) : (s.beginEncode).copyOffset = s.copyOffset := rfl
@[simp] theorem State.beginEncode_copyLength (s : State) : (s.beginEncode).copyLength = s.copyLength := rfl
@[simp] theorem State.beginEncode_copyCount (s : State) : (s.beginEncode).copyCount = s.copyCount := rfl
@[simp] theorem State.beginEncode_pos (s : State) : (s.beginEncode).pos = 0 := rfl
@[simp] theorem State.beginEncode_n (s : State) : (s.beginEncode).n = s.il := rfl
@[simp] theorem State.beginEncode_ls (s : State) : (s.beginEncode).ls = Config.lsSeed := rfl
@[simp] theorem State.beginEncode_opbuf (s : State) : (s.beginEncode).opbuf = [] := rfl
@[simp] theorem State.beginEncode_cf (s : State) : (s.beginEncode).cf = s.cf := rfl
@[simp] theorem State.beginEncode_schedule (s : State) : (s.beginEncode).schedule = s.schedule := rfl
@[simp] theorem State.beginEncode_readData (s : State) : (s.beginEncode).readData = s.readData := rfl
@[simp] theorem State.beginEncode_draws (s : State) : (s.beginEncode).draws = s.draws := rfl
@[simp] theorem State.beginEncode_encodes (s : State) : (s.beginEncode).encodes = s.encodes + 1 := rfl

/-! ### An operation is pushed (R142, R147) -/

@[simp] theorem State.pushOp_cfg (s : State) (o : Op) (l : BitVec 16) : (s.pushOp o l).cfg = s.cfg := rfl
@[simp] theorem State.pushOp_ctrl (s : State) (o : Op) (l : BitVec 16) : (s.pushOp o l).ctrl = s.ctrl := rfl
@[simp] theorem State.pushOp_status (s : State) (o : Op) (l : BitVec 16) : (s.pushOp o l).status = s.status := rfl
@[simp] theorem State.pushOp_inLen (s : State) (o : Op) (l : BitVec 16) : (s.pushOp o l).inLen = s.inLen := rfl
@[simp] theorem State.pushOp_expLen (s : State) (o : Op) (l : BitVec 16) : (s.pushOp o l).expLen = s.expLen := rfl
@[simp] theorem State.pushOp_outLen (s : State) (o : Op) (l : BitVec 16) : (s.pushOp o l).outLen = s.outLen := rfl
@[simp] theorem State.pushOp_inPos (s : State) (o : Op) (l : BitVec 16) : (s.pushOp o l).inPos = s.inPos := rfl
@[simp] theorem State.pushOp_errPos (s : State) (o : Op) (l : BitVec 16) : (s.pushOp o l).errPos = s.errPos := rfl
@[simp] theorem State.pushOp_lset (s : State) (o : Op) (l : BitVec 16) : (s.pushOp o l).lset = s.lset := rfl
@[simp] theorem State.pushOp_flags0 (s : State) (o : Op) (l : BitVec 16) : (s.pushOp o l).flags0 = s.flags0 := rfl
@[simp] theorem State.pushOp_flags1 (s : State) (o : Op) (l : BitVec 16) : (s.pushOp o l).flags1 = s.flags1 := rfl
@[simp] theorem State.pushOp_flags2 (s : State) (o : Op) (l : BitVec 16) : (s.pushOp o l).flags2 = s.flags2 := rfl
@[simp] theorem State.pushOp_inBuf (s : State) (o : Op) (l : BitVec 16) : (s.pushOp o l).inBuf = s.inBuf := rfl
@[simp] theorem State.pushOp_outBuf (s : State) (o : Op) (l : BitVec 16) : (s.pushOp o l).outBuf = s.outBuf := rfl
@[simp] theorem State.pushOp_phase (s : State) (o : Op) (l : BitVec 16) : (s.pushOp o l).phase = s.phase := rfl
@[simp] theorem State.pushOp_mode (s : State) (o : Op) (l : BitVec 16) : (s.pushOp o l).mode = s.mode := rfl
@[simp] theorem State.pushOp_ip (s : State) (o : Op) (l : BitVec 16) : (s.pushOp o l).ip = s.ip := rfl
@[simp] theorem State.pushOp_olen (s : State) (o : Op) (l : BitVec 16) : (s.pushOp o l).olen = s.olen := rfl
@[simp] theorem State.pushOp_ctrlByte (s : State) (o : Op) (l : BitVec 16) : (s.pushOp o l).ctrlByte = s.ctrlByte := rfl
@[simp] theorem State.pushOp_slot (s : State) (o : Op) (l : BitVec 16) : (s.pushOp o l).slot = s.slot := rfl
@[simp] theorem State.pushOp_ft (s : State) (o : Op) (l : BitVec 16) : (s.pushOp o l).ft = s.ft := rfl
@[simp] theorem State.pushOp_xv (s : State) (o : Op) (l : BitVec 16) : (s.pushOp o l).xv = s.xv := rfl
@[simp] theorem State.pushOp_xl (s : State) (o : Op) (l : BitVec 16) : (s.pushOp o l).xl = s.xl := rfl
@[simp] theorem State.pushOp_il (s : State) (o : Op) (l : BitVec 16) : (s.pushOp o l).il = s.il := rfl
@[simp] theorem State.pushOp_opstart (s : State) (o : Op) (l : BitVec 16) : (s.pushOp o l).opstart = s.opstart := rfl
@[simp] theorem State.pushOp_copyBase (s : State) (o : Op) (l : BitVec 16) : (s.pushOp o l).copyBase = s.copyBase := rfl
@[simp] theorem State.pushOp_copyOffset (s : State) (o : Op) (l : BitVec 16) : (s.pushOp o l).copyOffset = s.copyOffset := rfl
@[simp] theorem State.pushOp_copyLength (s : State) (o : Op) (l : BitVec 16) : (s.pushOp o l).copyLength = s.copyLength := rfl
@[simp] theorem State.pushOp_copyCount (s : State) (o : Op) (l : BitVec 16) : (s.pushOp o l).copyCount = s.copyCount := rfl
@[simp] theorem State.pushOp_pos (s : State) (o : Op) (l : BitVec 16) : (s.pushOp o l).pos = s.pos + BitVec.ofNat 32 o.width := rfl
@[simp] theorem State.pushOp_n (s : State) (o : Op) (l : BitVec 16) : (s.pushOp o l).n = s.n := rfl
@[simp] theorem State.pushOp_ls (s : State) (o : Op) (l : BitVec 16) : (s.pushOp o l).ls = l := rfl
@[simp] theorem State.pushOp_opbuf (s : State) (o : Op) (l : BitVec 16) : (s.pushOp o l).opbuf = s.opbuf ++ [o] := rfl
@[simp] theorem State.pushOp_cf (s : State) (o : Op) (l : BitVec 16) : (s.pushOp o l).cf = s.cf := rfl
@[simp] theorem State.pushOp_schedule (s : State) (o : Op) (l : BitVec 16) : (s.pushOp o l).schedule = s.schedule := rfl
@[simp] theorem State.pushOp_readData (s : State) (o : Op) (l : BitVec 16) : (s.pushOp o l).readData = s.readData := rfl
@[simp] theorem State.pushOp_draws (s : State) (o : Op) (l : BitVec 16) : (s.pushOp o l).draws = s.draws := rfl
@[simp] theorem State.pushOp_encodes (s : State) (o : Op) (l : BitVec 16) : (s.pushOp o l).encodes = s.encodes := rfl

/-! ### Parsing ends (R148) -/

@[simp] theorem State.endParse_cfg (s : State) : (s.endParse).cfg = s.cfg := rfl
@[simp] theorem State.endParse_ctrl (s : State) : (s.endParse).ctrl = s.ctrl := rfl
@[simp] theorem State.endParse_status (s : State) : (s.endParse).status = s.status := rfl
@[simp] theorem State.endParse_inLen (s : State) : (s.endParse).inLen = s.inLen := rfl
@[simp] theorem State.endParse_expLen (s : State) : (s.endParse).expLen = s.expLen := rfl
@[simp] theorem State.endParse_outLen (s : State) : (s.endParse).outLen = s.outLen := rfl
@[simp] theorem State.endParse_inPos (s : State) : (s.endParse).inPos = s.n := rfl
@[simp] theorem State.endParse_errPos (s : State) : (s.endParse).errPos = s.errPos := rfl
@[simp] theorem State.endParse_lset (s : State) : (s.endParse).lset = s.ls.setWidth 32 := rfl
@[simp] theorem State.endParse_flags0 (s : State) : (s.endParse).flags0 = s.flags0 := rfl
@[simp] theorem State.endParse_flags1 (s : State) : (s.endParse).flags1 = s.flags1 := rfl
@[simp] theorem State.endParse_flags2 (s : State) : (s.endParse).flags2 = s.flags2 := rfl
@[simp] theorem State.endParse_inBuf (s : State) : (s.endParse).inBuf = s.inBuf := rfl
@[simp] theorem State.endParse_outBuf (s : State) : (s.endParse).outBuf = s.outBuf := rfl
@[simp] theorem State.endParse_phase (s : State) : (s.endParse).phase = .encCheck := rfl
@[simp] theorem State.endParse_mode (s : State) : (s.endParse).mode = s.mode := rfl
@[simp] theorem State.endParse_ip (s : State) : (s.endParse).ip = s.ip := rfl
@[simp] theorem State.endParse_olen (s : State) : (s.endParse).olen = s.olen := rfl
@[simp] theorem State.endParse_ctrlByte (s : State) : (s.endParse).ctrlByte = s.ctrlByte := rfl
@[simp] theorem State.endParse_slot (s : State) : (s.endParse).slot = s.slot := rfl
@[simp] theorem State.endParse_ft (s : State) : (s.endParse).ft = s.ft := rfl
@[simp] theorem State.endParse_xv (s : State) : (s.endParse).xv = s.xv := rfl
@[simp] theorem State.endParse_xl (s : State) : (s.endParse).xl = s.xl := rfl
@[simp] theorem State.endParse_il (s : State) : (s.endParse).il = s.il := rfl
@[simp] theorem State.endParse_opstart (s : State) : (s.endParse).opstart = s.opstart := rfl
@[simp] theorem State.endParse_copyBase (s : State) : (s.endParse).copyBase = s.copyBase := rfl
@[simp] theorem State.endParse_copyOffset (s : State) : (s.endParse).copyOffset = s.copyOffset := rfl
@[simp] theorem State.endParse_copyLength (s : State) : (s.endParse).copyLength = s.copyLength := rfl
@[simp] theorem State.endParse_copyCount (s : State) : (s.endParse).copyCount = s.copyCount := rfl
@[simp] theorem State.endParse_pos (s : State) : (s.endParse).pos = s.pos := rfl
@[simp] theorem State.endParse_n (s : State) : (s.endParse).n = s.n := rfl
@[simp] theorem State.endParse_ls (s : State) : (s.endParse).ls = s.ls := rfl
@[simp] theorem State.endParse_opbuf (s : State) : (s.endParse).opbuf = s.opbuf := rfl
@[simp] theorem State.endParse_cf (s : State) : (s.endParse).cf = controlFlags s.ls := rfl
@[simp] theorem State.endParse_schedule (s : State) : (s.endParse).schedule = s.schedule := rfl
@[simp] theorem State.endParse_readData (s : State) : (s.endParse).readData = s.readData := rfl
@[simp] theorem State.endParse_draws (s : State) : (s.endParse).draws = s.draws := rfl
@[simp] theorem State.endParse_encodes (s : State) : (s.endParse).encodes = s.encodes := rfl

/-! ### The host receives a value -/

@[simp] theorem State.deliver_cfg (s : State) (v : Word) : (s.deliver v).cfg = s.cfg := rfl
@[simp] theorem State.deliver_ctrl (s : State) (v : Word) : (s.deliver v).ctrl = s.ctrl := rfl
@[simp] theorem State.deliver_status (s : State) (v : Word) : (s.deliver v).status = s.status := rfl
@[simp] theorem State.deliver_inLen (s : State) (v : Word) : (s.deliver v).inLen = s.inLen := rfl
@[simp] theorem State.deliver_expLen (s : State) (v : Word) : (s.deliver v).expLen = s.expLen := rfl
@[simp] theorem State.deliver_outLen (s : State) (v : Word) : (s.deliver v).outLen = s.outLen := rfl
@[simp] theorem State.deliver_inPos (s : State) (v : Word) : (s.deliver v).inPos = s.inPos := rfl
@[simp] theorem State.deliver_errPos (s : State) (v : Word) : (s.deliver v).errPos = s.errPos := rfl
@[simp] theorem State.deliver_lset (s : State) (v : Word) : (s.deliver v).lset = s.lset := rfl
@[simp] theorem State.deliver_flags0 (s : State) (v : Word) : (s.deliver v).flags0 = s.flags0 := rfl
@[simp] theorem State.deliver_flags1 (s : State) (v : Word) : (s.deliver v).flags1 = s.flags1 := rfl
@[simp] theorem State.deliver_flags2 (s : State) (v : Word) : (s.deliver v).flags2 = s.flags2 := rfl
@[simp] theorem State.deliver_inBuf (s : State) (v : Word) : (s.deliver v).inBuf = s.inBuf := rfl
@[simp] theorem State.deliver_outBuf (s : State) (v : Word) : (s.deliver v).outBuf = s.outBuf := rfl
@[simp] theorem State.deliver_phase (s : State) (v : Word) : (s.deliver v).phase = s.phase := rfl
@[simp] theorem State.deliver_mode (s : State) (v : Word) : (s.deliver v).mode = s.mode := rfl
@[simp] theorem State.deliver_ip (s : State) (v : Word) : (s.deliver v).ip = s.ip := rfl
@[simp] theorem State.deliver_olen (s : State) (v : Word) : (s.deliver v).olen = s.olen := rfl
@[simp] theorem State.deliver_ctrlByte (s : State) (v : Word) : (s.deliver v).ctrlByte = s.ctrlByte := rfl
@[simp] theorem State.deliver_slot (s : State) (v : Word) : (s.deliver v).slot = s.slot := rfl
@[simp] theorem State.deliver_ft (s : State) (v : Word) : (s.deliver v).ft = s.ft := rfl
@[simp] theorem State.deliver_xv (s : State) (v : Word) : (s.deliver v).xv = s.xv := rfl
@[simp] theorem State.deliver_xl (s : State) (v : Word) : (s.deliver v).xl = s.xl := rfl
@[simp] theorem State.deliver_il (s : State) (v : Word) : (s.deliver v).il = s.il := rfl
@[simp] theorem State.deliver_opstart (s : State) (v : Word) : (s.deliver v).opstart = s.opstart := rfl
@[simp] theorem State.deliver_copyBase (s : State) (v : Word) : (s.deliver v).copyBase = s.copyBase := rfl
@[simp] theorem State.deliver_copyOffset (s : State) (v : Word) : (s.deliver v).copyOffset = s.copyOffset := rfl
@[simp] theorem State.deliver_copyLength (s : State) (v : Word) : (s.deliver v).copyLength = s.copyLength := rfl
@[simp] theorem State.deliver_copyCount (s : State) (v : Word) : (s.deliver v).copyCount = s.copyCount := rfl
@[simp] theorem State.deliver_pos (s : State) (v : Word) : (s.deliver v).pos = s.pos := rfl
@[simp] theorem State.deliver_n (s : State) (v : Word) : (s.deliver v).n = s.n := rfl
@[simp] theorem State.deliver_ls (s : State) (v : Word) : (s.deliver v).ls = s.ls := rfl
@[simp] theorem State.deliver_opbuf (s : State) (v : Word) : (s.deliver v).opbuf = s.opbuf := rfl
@[simp] theorem State.deliver_cf (s : State) (v : Word) : (s.deliver v).cf = s.cf := rfl
@[simp] theorem State.deliver_schedule (s : State) (v : Word) : (s.deliver v).schedule = s.schedule := rfl
@[simp] theorem State.deliver_readData (s : State) (v : Word) : (s.deliver v).readData = some v := rfl
@[simp] theorem State.deliver_draws (s : State) (v : Word) : (s.deliver v).draws = s.draws := rfl
@[simp] theorem State.deliver_encodes (s : State) (v : Word) : (s.deliver v).encodes = s.encodes := rfl

/-! ### The host receives a drawn value (R25) -/

@[simp] theorem State.deliverDraw_cfg (s : State) (v : Word) : (s.deliverDraw v).cfg = s.cfg := rfl
@[simp] theorem State.deliverDraw_ctrl (s : State) (v : Word) : (s.deliverDraw v).ctrl = s.ctrl := rfl
@[simp] theorem State.deliverDraw_status (s : State) (v : Word) : (s.deliverDraw v).status = s.status := rfl
@[simp] theorem State.deliverDraw_inLen (s : State) (v : Word) : (s.deliverDraw v).inLen = s.inLen := rfl
@[simp] theorem State.deliverDraw_expLen (s : State) (v : Word) : (s.deliverDraw v).expLen = s.expLen := rfl
@[simp] theorem State.deliverDraw_outLen (s : State) (v : Word) : (s.deliverDraw v).outLen = s.outLen := rfl
@[simp] theorem State.deliverDraw_inPos (s : State) (v : Word) : (s.deliverDraw v).inPos = s.inPos := rfl
@[simp] theorem State.deliverDraw_errPos (s : State) (v : Word) : (s.deliverDraw v).errPos = s.errPos := rfl
@[simp] theorem State.deliverDraw_lset (s : State) (v : Word) : (s.deliverDraw v).lset = s.lset := rfl
@[simp] theorem State.deliverDraw_flags0 (s : State) (v : Word) : (s.deliverDraw v).flags0 = s.flags0 := rfl
@[simp] theorem State.deliverDraw_flags1 (s : State) (v : Word) : (s.deliverDraw v).flags1 = s.flags1 := rfl
@[simp] theorem State.deliverDraw_flags2 (s : State) (v : Word) : (s.deliverDraw v).flags2 = s.flags2 := rfl
@[simp] theorem State.deliverDraw_inBuf (s : State) (v : Word) : (s.deliverDraw v).inBuf = s.inBuf := rfl
@[simp] theorem State.deliverDraw_outBuf (s : State) (v : Word) : (s.deliverDraw v).outBuf = s.outBuf := rfl
@[simp] theorem State.deliverDraw_phase (s : State) (v : Word) : (s.deliverDraw v).phase = s.phase := rfl
@[simp] theorem State.deliverDraw_mode (s : State) (v : Word) : (s.deliverDraw v).mode = s.mode := rfl
@[simp] theorem State.deliverDraw_ip (s : State) (v : Word) : (s.deliverDraw v).ip = s.ip := rfl
@[simp] theorem State.deliverDraw_olen (s : State) (v : Word) : (s.deliverDraw v).olen = s.olen := rfl
@[simp] theorem State.deliverDraw_ctrlByte (s : State) (v : Word) : (s.deliverDraw v).ctrlByte = s.ctrlByte := rfl
@[simp] theorem State.deliverDraw_slot (s : State) (v : Word) : (s.deliverDraw v).slot = s.slot := rfl
@[simp] theorem State.deliverDraw_ft (s : State) (v : Word) : (s.deliverDraw v).ft = s.ft := rfl
@[simp] theorem State.deliverDraw_xv (s : State) (v : Word) : (s.deliverDraw v).xv = s.xv := rfl
@[simp] theorem State.deliverDraw_xl (s : State) (v : Word) : (s.deliverDraw v).xl = s.xl := rfl
@[simp] theorem State.deliverDraw_il (s : State) (v : Word) : (s.deliverDraw v).il = s.il := rfl
@[simp] theorem State.deliverDraw_opstart (s : State) (v : Word) : (s.deliverDraw v).opstart = s.opstart := rfl
@[simp] theorem State.deliverDraw_copyBase (s : State) (v : Word) : (s.deliverDraw v).copyBase = s.copyBase := rfl
@[simp] theorem State.deliverDraw_copyOffset (s : State) (v : Word) : (s.deliverDraw v).copyOffset = s.copyOffset := rfl
@[simp] theorem State.deliverDraw_copyLength (s : State) (v : Word) : (s.deliverDraw v).copyLength = s.copyLength := rfl
@[simp] theorem State.deliverDraw_copyCount (s : State) (v : Word) : (s.deliverDraw v).copyCount = s.copyCount := rfl
@[simp] theorem State.deliverDraw_pos (s : State) (v : Word) : (s.deliverDraw v).pos = s.pos := rfl
@[simp] theorem State.deliverDraw_n (s : State) (v : Word) : (s.deliverDraw v).n = s.n := rfl
@[simp] theorem State.deliverDraw_ls (s : State) (v : Word) : (s.deliverDraw v).ls = s.ls := rfl
@[simp] theorem State.deliverDraw_opbuf (s : State) (v : Word) : (s.deliverDraw v).opbuf = s.opbuf := rfl
@[simp] theorem State.deliverDraw_cf (s : State) (v : Word) : (s.deliverDraw v).cf = s.cf := rfl
@[simp] theorem State.deliverDraw_schedule (s : State) (v : Word) : (s.deliverDraw v).schedule = s.schedule := rfl
@[simp] theorem State.deliverDraw_readData (s : State) (v : Word) : (s.deliverDraw v).readData = some v := rfl
@[simp] theorem State.deliverDraw_draws (s : State) (v : Word) : (s.deliverDraw v).draws = s.draws + 1 := rfl
@[simp] theorem State.deliverDraw_encodes (s : State) (v : Word) : (s.deliverDraw v).encodes = s.encodes := rfl

/-! ### The ends of a command, in terms of `endCommand` -/

@[simp] theorem State.raise_eq (s : State) (err : BitVec 4) (p o i : Word) :
    s.raise err p o i = s.endCommand false err p o i := rfl

@[simp] theorem State.finish_eq (s : State) (w : Bool) (o i : Word) :
    s.finish w o i = s.endCommand w errNone 0 o i := rfl

@[simp] theorem State.raiseDecode_eq (s : State) (err : BitVec 4) :
    s.raiseDecode err = s.endCommand false err s.opstart s.olen s.ip := rfl

@[simp] theorem State.finishDecode_eq (s : State) (w : Bool) :
    s.finishDecode w = s.endCommand w errNone 0 s.olen s.ip := rfl

@[simp] theorem State.raiseEncode_eq (s : State) (err : BitVec 4) :
    s.raiseEncode err = s.endCommand false err s.n 0 s.n := rfl

@[simp] theorem State.raiseStart_eq (s : State) (err : BitVec 4) :
    s.raiseStart err = s.endCommand false err 0 0 0 := rfl

/-! ### STATUS words (R12) -/

@[simp] theorem statusBusy_started : statusBusy statusStarted = true := rfl

@[simp] theorem statusBusy_zero : statusBusy 0 = false := rfl

theorem statusEnded_fields :
    ∀ (w : Bool) (e : BitVec 4), statusBusy (statusEnded w e) = false ∧ statusDone (statusEnded w e) = true ∧
      statusWarn (statusEnded w e) = w ∧ statusErr (statusEnded w e) = e := by decide

@[simp] theorem statusBusy_ended (w : Bool) (e : BitVec 4) : statusBusy (statusEnded w e) = false :=
  (statusEnded_fields w e).1

@[simp] theorem statusDone_ended (w : Bool) (e : BitVec 4) : statusDone (statusEnded w e) = true :=
  (statusEnded_fields w e).2.1

@[simp] theorem statusWarn_ended (w : Bool) (e : BitVec 4) : statusWarn (statusEnded w e) = w :=
  (statusEnded_fields w e).2.2.1

@[simp] theorem statusErr_ended (w : Bool) (e : BitVec 4) : statusErr (statusEnded w e) = e :=
  (statusEnded_fields w e).2.2.2

end Sys2Proof.Machine
end

