-- ==== Sys2Proof/Laws/Launch.lean ====
section
/-! SUPPORT. The laws of a command's outcome and of the launch premises (R250, R255, R260, R261). -/

namespace Sys2Proof.Machine

/-! ## The end of a command and its outcome (R260) -/

@[simp] theorem State.ended_iff (s : State) : s.ended = true ↔ s.busy = false ∧ s.done = true := by
  simp [State.ended]

@[simp] theorem State.endCommand_ended (s : State) (w : Bool) (err : BitVec 4) (p o i : Word) :
    (s.endCommand w err p o i).ended = true := by
  simp [State.busy, State.done]

/-- A state with BUSY = 1 shows no outcome. -/
theorem State.outcome_busy {s : State} (h : s.busy = true) : s.outcome = none := by
  simp [State.outcome, h]

/-- A command ended by reset has no outcome (R250, R260). -/
@[simp] theorem State.afterReset_outcome (s : State) : s.afterReset.outcome = none :=
  if_neg (by decide : ¬ State.reset.ended = true)

/-- States that agree on the tuple of R260 show the same outcome. -/
theorem outcome_eq_of_sameOutcome {s t : State} (h : sameOutcome s t) : s.outcome = t.outcome := by
  obtain ⟨⟨hst, hol, hip, hep, hout⟩, hls, h0, h1, h2⟩ := h
  have he : s.ended = t.ended := by simp only [State.ended, State.busy, State.done, hst]
  have hbytes : (List.range s.outLen.toNat).map (Memory.read s.outBuf) =
      (List.range t.outLen.toNat).map (Memory.read t.outBuf) :=
    hol ▸ List.map_congr_left fun a ha => hout a (List.mem_range.mp ha)
  unfold State.outcome
  rw [he]
  by_cases h : t.ended = true
  · rw [if_pos h, if_pos h, hbytes, hst, hol, hip, hep, hls, h0, h1, h2]
  · rw [if_neg h, if_neg h]

/-! ## Launch premises (R261) -/

/-- Where a host move is waiting, a step takes it. -/
theorem step_hostTurn {s : State} {m : Move} {rest : List Move} (h : s.schedule = m :: rest) :
    step s = hostTurn m { s with schedule := rest } s := by
  show (match s.schedule with
    | [] => engineStep s
    | m :: rest => hostTurn m { s with schedule := rest } s) = _
  rw [h]

/-- Where no host move is waiting, a step is the engine's. -/
theorem step_engine {s : State} (h : s.schedule = []) : step s = engineStep s := by
  show (match s.schedule with
    | [] => engineStep s
    | m :: rest => hostTurn m { s with schedule := rest } s) = _
  rw [h]

/-- A premise broken by the next move names that move. -/
theorem head_move {s : State} {p : Move → Bool} (h : (s.busy && s.schedule.head?.any p) = true) :
    s.busy = true ∧ ∃ m rest, s.schedule = m :: rest ∧ p m = true := by
  rw [Bool.and_eq_true] at h
  refine ⟨h.1, ?_⟩
  rcases hs : s.schedule with _ | ⟨m, rest⟩
  · simp [hs] at h
  · exact ⟨m, rest, rfl, by simpa [hs] using h.2⟩

/-- A host write of IN or OUT while BUSY has no move (R51, R255). -/
theorem step_touchesBuffer {s : State} (h : s.touchesBuffer = true) : step s = .refused .bufferAccessWhileBusy := by
  obtain ⟨hb, m, rest, hs, hm⟩ := head_move h
  have hb' : State.busy { s with schedule := rest } = true := hb
  rw [step_hostTurn hs]
  cases m <;> cases hm
  · exact if_pos hb'
  · exact if_pos hb'

/-- A reset while BUSY ends the command without an outcome (R250). -/
theorem step_resetsCommand {s : State} (h : s.resetsCommand = true) :
    ∃ t : State, step s = .next t ∧ t.outcome = none := by
  obtain ⟨-, m, rest, hs, hm⟩ := head_move h
  cases m <;> cases hm
  exact ⟨State.afterReset { s with schedule := rest }, step_hostTurn hs, State.afterReset_outcome _⟩

@[simp] theorem State.holdsFor_zero (p : State → Bool) (s : State) : s.holdsFor p 0 = p s := rfl

/-- A premise along a run holds now, and along the run that is left. -/
theorem State.holdsFor_succ {p : State → Bool} {k : Nat} {s t : State} (h : s.holdsFor p (k + 1) = true)
    (hst : step s = .next t) : p s = true ∧ t.holdsFor p k = true := by
  simpa [State.holdsFor, hst] using h

/-- FLAGS_VALID includes the table's own contract (R186, R261). -/
theorem flagsValid_legal {t : FlagTable} {ls : BitVec 16} (h : flagsValid t ls = true) : legalFlags t = true := by
  simp only [flagsValid, Bool.and_eq_true] at h
  exact h.1

/-- START latches what the registers hold (R23). -/
theorem State.latch_cfgLatched (s : State) (m : BitVec 2) (e : Bool) : (s.latch m e).CfgLatched := by
  have hw : ∀ (m : BitVec 2) (e : Bool), ctrlMode (ctrlWord false m e) = m ∧ ctrlExpValid (ctrlWord false m e) = e := by
    decide
  exact ⟨(hw m e).1.symm, (hw m e).2.symm, rfl, rfl, fun _ => rfl⟩

end Sys2Proof.Machine
end

