-- ==== Sys2Proof/Laws/Memory.lean ====
section
/-! SUPPORT. The laws of a buffer: read after write, canonical form, bounds, and runs of bytes. -/

namespace Sys2Proof.Machine

@[simp] theorem Memory.read_nil (a : Nat) : Memory.read [] a = none := rfl

/-- A read of the address just written gives the value written. -/
@[simp] theorem Memory.read_write_same (m : Memory) (a : Nat) (v : Byte) :
    Memory.read (Memory.write m a v) a = some v := by
  induction m with
  | nil => simp [Memory.write, Memory.read]
  | cons c rest ih =>
    obtain ⟨b, w⟩ := c
    rcases Nat.lt_trichotomy a b with h | h | h
    · simp [Memory.write, Memory.read, h]
    · simp [Memory.write, Memory.read, h]
    · simp [Memory.write, Memory.read, Nat.not_lt.mpr (Nat.le_of_lt h), Nat.ne_of_gt h, ih]

/-- A write leaves every other address alone. -/
theorem Memory.read_write_other (m : Memory) (a b : Nat) (v : Byte) (h : b ≠ a) :
    Memory.read (Memory.write m a v) b = Memory.read m b := by
  induction m with
  | nil => simp [Memory.write, Memory.read, h]
  | cons c rest ih =>
    obtain ⟨x, w⟩ := c
    rcases Nat.lt_trichotomy a x with hx | hx | hx
    · simp [Memory.write, Memory.read, hx, h]
    · subst hx; simp [Memory.write, Memory.read, h]
    · simp [Memory.write, Memory.read, Nat.not_lt.mpr (Nat.le_of_lt hx), Nat.ne_of_gt hx, ih]

theorem Memory.read_write (m : Memory) (a b : Nat) (v : Byte) :
    Memory.read (Memory.write m a v) b = if b = a then some v else Memory.read m b := by
  split
  · next h => rw [h, Memory.read_write_same]
  · next h => exact Memory.read_write_other m a b v h

/-- What a write lists: the address written, or an address listed before. -/
theorem Memory.mem_write {m : Memory} {a : Nat} {v : Byte} {c : Host.Cell} (h : c ∈ Memory.write m a v) :
    c = (a, v) ∨ c ∈ m := by
  induction m with
  | nil => left; simpa [Memory.write] using h
  | cons d rest ih =>
    obtain ⟨b, w⟩ := d
    simp only [Memory.write] at h
    split at h
    · simpa using h
    · split at h
      · rcases List.mem_cons.mp h with h | h
        · exact .inl h
        · exact .inr (List.mem_cons_of_mem _ h)
      · rcases List.mem_cons.mp h with h | h
        · exact .inr (h ▸ List.mem_cons_self)
        · rcases ih h with h | h
          · exact .inl h
          · exact .inr (List.mem_cons_of_mem _ h)

/-- A write keeps the canonical form. -/
theorem Memory.write_wf {m : Memory} (hm : Memory.wf m) (a : Nat) (v : Byte) : Memory.wf (Memory.write m a v) := by
  induction m with
  | nil => simp [Memory.write, Memory.wf]
  | cons d rest ih =>
    obtain ⟨b, w⟩ := d
    obtain ⟨hb, hr⟩ := List.pairwise_cons.mp hm
    simp only [Memory.write]
    split
    · next h =>
      refine List.pairwise_cons.mpr ⟨fun c hc => ?_, hm⟩
      rcases List.mem_cons.mp hc with rfl | hc
      · exact h
      · exact Nat.lt_trans h (hb c hc)
    · split
      · next h => subst h; exact List.pairwise_cons.mpr ⟨hb, hr⟩
      · next h1 h2 =>
        refine List.pairwise_cons.mpr ⟨fun c hc => ?_, ih hr⟩
        rcases Memory.mem_write hc with rfl | hc
        · exact Nat.lt_of_le_of_ne (Nat.not_lt.mp h1) (Ne.symm h2)
        · exact hb c hc

/-- A write below `cap` keeps every listed address below it. -/
theorem Memory.write_below {m : Memory} {cap a : Nat} (hm : Memory.below m cap = true) (ha : a < cap) (v : Byte) :
    Memory.below (Memory.write m a v) cap = true := by
  simp only [Memory.below, List.all_eq_true, decide_eq_true_eq] at hm ⊢
  intro c hc
  rcases Memory.mem_write hc with rfl | hc
  · exact ha
  · exact hm c hc

@[simp] theorem Memory.wf_nil : Memory.wf [] := List.Pairwise.nil

@[simp] theorem Memory.below_nil (cap : Nat) : Memory.below [] cap = true := rfl

/-- A run of bytes that is read whole has its length. -/
theorem Memory.readBytes_length {m : Memory} {a k : Nat} {vs : List Byte} (h : Memory.readBytes m a k = .ok vs) :
    vs.length = k := by
  induction k generalizing a vs with
  | zero => simp [Memory.readBytes] at h; simp [← h]
  | succ k ih =>
    simp only [Memory.readBytes] at h
    split at h
    · cases h
    · split at h
      · next hr => cases h; simp [ih hr]
      · cases h

/-- A run of bytes fails only at an address that holds no value. -/
theorem Memory.readBytes_error {m : Memory} {a k b : Nat} (h : Memory.readBytes m a k = .error b) :
    a ≤ b ∧ b < a + k ∧ Memory.read m b = none := by
  induction k generalizing a with
  | zero => simp [Memory.readBytes] at h
  | succ k ih =>
    simp only [Memory.readBytes] at h
    split at h
    · next hr => cases h; exact ⟨Nat.le_refl _, by omega, hr⟩
    · split at h
      · cases h
      · next hr => cases h; obtain ⟨h1, h2, h3⟩ := ih hr; exact ⟨by omega, by omega, h3⟩

/-- A run of bytes is read whole exactly where each of its addresses holds its byte. -/
theorem Memory.readBytes_ok {m : Memory} {a k : Nat} {vs : List Byte} (h : Memory.readBytes m a k = .ok vs) :
    ∀ j, j < k → Memory.read m (a + j) = vs[j]? := by
  induction k generalizing a vs with
  | zero => intro j hj; omega
  | succ k ih =>
    simp only [Memory.readBytes] at h
    split at h
    · cases h
    · next v hv =>
      split at h
      · next ws hr =>
        cases h
        intro j hj
        cases j with
        | zero => simpa using hv
        | succ j => have := ih hr j (by omega); rw [Nat.add_right_comm] at this; simpa [Nat.add_assoc] using this
      · cases h

end Sys2Proof.Machine
end

