-- ==== Sys2Proof/Laws/Ops.lean ====
section
/-! SUPPORT. What each shared operation can do, said once: Append, the copy, the end of an operation, the
start checks. Provers cite these and do not unfold the operations. -/

namespace Sys2Proof.Machine

/-! ## Append (R180) -/

/-- Everything Append can do: the expected length is reached, OUT is full, or the byte is appended. -/
theorem append_cases (v : Byte) (s : State) :
    (s.expReached = true ∧ append v s = .ended (s.finishDecode false)) ∨
    (s.expReached = false ∧ s.olen.toNat = s.cfg.outCap ∧ append v s = .ended (s.raiseDecode errOutputOverflow)) ∨
    (s.expReached = false ∧ s.olen.toNat ≠ s.cfg.outCap ∧ append v s = .go (s.putByte v)) := by
  unfold append
  cases h : s.expReached
  · by_cases hc : s.olen.toNat = s.cfg.outCap <;> simp [hc]
  · simp

theorem append_room {v : Byte} {s : State} (h : s.expReached = false) (hc : s.olen.toNat ≠ s.cfg.outCap) :
    append v s = .go (s.putByte v) := by simp [append, h, hc]

theorem append_full {v : Byte} {s : State} (h : s.expReached = false) (hc : s.olen.toNat = s.cfg.outCap) :
    append v s = .ended (s.raiseDecode errOutputOverflow) := by simp [append, h, hc]

theorem append_reached {v : Byte} {s : State} (h : s.expReached = true) :
    append v s = .ended (s.finishDecode false) := by simp [append, h]

/-- Append goes on only with its byte appended. -/
theorem append_go {v : Byte} {s t : State} (h : append v s = .go t) :
    t = s.putByte v ∧ s.expReached = false ∧ s.olen.toNat ≠ s.cfg.outCap := by
  rcases append_cases v s with ⟨_, h'⟩ | ⟨_, _, h'⟩ | ⟨h1, h2, h'⟩ <;> rw [h'] at h <;> cases h
  exact ⟨rfl, h1, h2⟩

/-- Append never faults. -/
theorem append_ne_fault (v : Byte) (s : State) (f : Fault) : append v s ≠ .fault f := by
  rcases append_cases v s with ⟨_, h'⟩ | ⟨_, _, h'⟩ | ⟨_, _, h'⟩ <;> rw [h'] <;> simp

/-! ## Sequencing and the end of an operation (R172) -/

@[simp] theorem Flow.andThen_go (s : State) (f : State → Flow) : (Flow.go s).andThen f = f s := rfl
@[simp] theorem Flow.andThen_ended (s : State) (f : State → Flow) : (Flow.ended s).andThen f = .ended s := rfl
@[simp] theorem Flow.andThen_fault (r : Fault) (f : State → Flow) : (Flow.fault r).andThen f = .fault r := rfl
@[simp] theorem Flow.endOp_go (s : State) : (Flow.go s).endOp = .next s.nextSlot := rfl
@[simp] theorem Flow.endOp_ended (s : State) : (Flow.ended s).endOp = .next s := rfl
@[simp] theorem Flow.endOp_fault (r : Fault) : (Flow.fault r).endOp = .fault r := rfl

/-- An operation that answers a next state went on to the next slot or ended the command. -/
theorem Flow.endOp_next {x : Flow} {t : State} (h : x.endOp = .next t) :
    (∃ s, x = .go s ∧ t = s.nextSlot) ∨ x = .ended t := by
  cases x with
  | go s => cases h; exact .inl ⟨s, rfl, rfl⟩
  | ended s => cases h; exact .inr rfl
  | fault r => cases h

/-! ## The copy (R179) -/

@[simp] theorem copyBytes_zero (s : State) : copyBytes 0 s = .go s := rfl

theorem copyBytes_succ (k : Nat) (s : State) : copyBytes (k + 1) s = (copyByte s).andThen (copyBytes k) := rfl

/-- Everything one byte of the copy can do. -/
theorem copyByte_cases (s : State) :
    (Memory.read s.outBuf s.copySource = none ∧ copyByte s = .fault (.unwrittenOut s.copySource)) ∨
    (∃ v, Memory.read s.outBuf s.copySource = some v ∧
      copyByte s = (append v s).andThen (fun t => .go t.countCopy)) := by
  unfold copyByte
  cases h : Memory.read s.outBuf s.copySource with
  | none => exact .inl ⟨rfl, rfl⟩
  | some v => exact .inr ⟨v, rfl, rfl⟩

/-! ## The start checks (R230) -/

theorem startCheck_input {s : State} (h : s.cfg.inCap < s.il.toNat) : startCheck s = some errInputOverflow := by
  simp [startCheck, h]

theorem startCheck_none {s : State} (h : s.il.toNat ≤ s.cfg.inCap)
    (hf : s.mode = 0#2 → s.cfg.strictFlags = true → legalFlags s.ft = true) : startCheck s = none := by
  simp only [startCheck, Nat.not_lt.mpr h, if_false]
  split
  · next hc => have := hf hc.1 hc.2.1; rw [hc.2.2] at this; cases this
  · rfl

/-! ## The CTRL word (R11) -/

@[simp] theorem ctrlStart_ctrlWord (st : Bool) (m : BitVec 2) (e : Bool) : ctrlStart (ctrlWord st m e) = st := by
  revert st m e; decide

@[simp] theorem ctrlMode_ctrlWord (st : Bool) (m : BitVec 2) (e : Bool) : ctrlMode (ctrlWord st m e) = m := by
  revert st m e; decide

@[simp] theorem ctrlExpValid_ctrlWord (st : Bool) (m : BitVec 2) (e : Bool) :
    ctrlExpValid (ctrlWord st m e) = e := by
  revert st m e; decide

end Sys2Proof.Machine
end

