-- ==== Sys2Proof/Laws/PerInstr.lean ====
section
/-! SUPPORT. The per-instruction family EncodedLength: how many bytes an instruction is encoded in (R62; a
command is a 32-bit register write, R45). -/

namespace Sys2Proof.Laws.EncodedLength

/-- The bytes of an instruction: 1 for CTRL, LIT and NIB, 2 for BREF, 4 for a command. -/
def size (i : Instr) : Nat :=
  match i with
  | .ctrl _ => 1
  | .lit _ => 1
  | .nib0 _ => 1
  | .nib1 _ => 1
  | .nib2 _ => 1
  | .nib3 _ => 1
  | .nib4 _ => 1
  | .nib5 _ => 1
  | .nib6 _ => 1
  | .nib7 _ => 1
  | .nib8 _ => 1
  | .bref _ _ => 2
  | .cmdDecode _ => 4
  | .cmdEncode _ => 4
  | .cmdReserved _ _ => 4

/-- Under every flag table the encoding has the instruction's number of bytes. -/
def Statement (i : Instr) : Prop := ∀ ft : FlagTable, (encode ft i).length = size i

theorem ctrl (c : Byte) : Statement (.ctrl c) := fun _ => rfl
theorem lit (v : Byte) : Statement (.lit v) := fun _ => rfl
theorem nib0 (p : Nibble) : Statement (.nib0 p) := fun _ => rfl
theorem nib1 (p : Nibble) : Statement (.nib1 p) := fun _ => rfl
theorem nib2 (p : Nibble) : Statement (.nib2 p) := fun _ => rfl
theorem nib3 (p : Nibble) : Statement (.nib3 p) := fun _ => rfl
theorem nib4 (p : Nibble) : Statement (.nib4 p) := fun _ => rfl
theorem nib5 (p : Nibble) : Statement (.nib5 p) := fun _ => rfl
theorem nib6 (p : Nibble) : Statement (.nib6 p) := fun _ => rfl
theorem nib7 (p : Nibble) : Statement (.nib7 p) := fun _ => rfl
theorem nib8 (p : Nibble) : Statement (.nib8 p) := fun _ => rfl
theorem bref (d : Nibble) (x : BitVec 12) : Statement (.bref d x) := fun _ => rfl
theorem cmdDecode (e : Bool) : Statement (.cmdDecode e) := fun _ => rfl
theorem cmdEncode (e : Bool) : Statement (.cmdEncode e) := fun _ => rfl
theorem cmdReserved (m : BitVec 2) (e : Bool) : Statement (.cmdReserved m e) := fun _ => rfl

end Sys2Proof.Laws.EncodedLength
end

