-- ==== Sys2Proof/Machine/Assembler.lean ====
section
/-! DEFINITION. The spec's assembler syntax for PX streams (R75, R76): the lines, the assembler, the
disassembler, and their text form. -/

namespace Sys2Proof.Machine

/-- A line of the assembler syntax (R75), the pseudo-instructions of R76 among them. -/
inductive AsmLine where
  /-- `.flags f0,...,f8` -/
  | flags (t : Nine Nibble)
  /-- `LIT 0xHH` -/
  | lit (v : Byte)
  /-- `NIB f, 0xP` -/
  | nib (f : Fin 9) (p : Nibble)
  /-- `BREF len, off` -/
  | bref (length offset : Nat)
  /-- `.byte 0xHH[,0xHH...]` -/
  | bytes (vs : List Byte)
  /-- `NIBB 0xB0, 0xB1` -/
  | nibb (b0 b1 : Byte)
  /-- `LITS 0xB0, 0xB1, ...` -/
  | lits (vs : List Byte)
deriving DecidableEq, Repr

/-- What a line puts into the stream: operations of a group, or raw bytes that close it. -/
inductive AsmItem where
  | op (o : Op)
  | raw (vs : List Byte)
deriving DecidableEq, Repr

/-- The items of a line after the first; none is an assembly error: a second `.flags`, a length or
offset out of range, a NIBB pair without a pattern (R75, R76). -/
def AsmLine.items (l : AsmLine) : Option (List AsmItem) :=
  match l with
  | .flags _ => none
  | .lit v => some [.op (.lit v)]
  | .nib f p => some [.op (.nib f p)]
  | .bref length offset =>
    if 3 ≤ length ∧ length ≤ 18 ∧ 1 ≤ offset ∧ offset ≤ 4096 then some [.op (.bref length offset)] else none
  | .bytes vs => some [.raw vs]
  | .nibb b0 b1 =>
    match classify b0 b1 with
    | some (f, p) => some [.op (.nib f p)]
    | none => none
  | .lits vs => some (vs.map (fun v => .op (.lit v)))

/-- The items of several lines. -/
def asmItems (ls : List AsmLine) : Option (List AsmItem) :=
  match ls with
  | [] => some []
  | l :: rest =>
    match l.items, asmItems rest with
    | some xs, some ys => some (xs ++ ys)
    | some _, none => none
    | none, _ => none

/-- The bytes of items, `group` the operations of the open group (R75). -/
def assembleItems (ft : FlagTable) (group : List Op) (xs : List AsmItem) : List Byte :=
  match xs with
  | [] => flushGroup ft group
  | .raw vs :: rest => flushGroup ft group ++ vs ++ assembleItems ft [] rest
  | .op o :: rest =>
    if group.length + 1 < Config.group then assembleItems ft (group ++ [o]) rest
    else flushGroup ft (group ++ [o]) ++ assembleItems ft [] rest

/-- The assembler: the flag table of the first line, which is required, and the stream (R75). -/
def assemble (ls : List AsmLine) : Option (Nine Nibble × List Byte) :=
  match ls with
  | .flags t :: rest => (asmItems rest).map (fun xs => (t, assembleItems (flagTableOfNibbles t) [] xs))
  | _ => none

/-! ## Disassembly -/

/-- A line of a disassembly: a control byte, printed as a comment, or an assembler line (R75). -/
inductive DisLine where
  | ctrl (c : Byte)
  | line (l : AsmLine)
deriving DecidableEq, Repr

/-- The disassembly line of an instruction of the stream; a command is no stream byte. -/
def disInstr (i : Instr) : Option DisLine :=
  match i with
  | .ctrl c => some (.ctrl c)
  | .lit v => some (.line (.lit v))
  | .nib0 p => some (.line (.nib 0 p))
  | .nib1 p => some (.line (.nib 1 p))
  | .nib2 p => some (.line (.nib 2 p))
  | .nib3 p => some (.line (.nib 3 p))
  | .nib4 p => some (.line (.nib 4 p))
  | .nib5 p => some (.line (.nib 5 p))
  | .nib6 p => some (.line (.nib 6 p))
  | .nib7 p => some (.line (.nib 7 p))
  | .nib8 p => some (.line (.nib 8 p))
  | .bref d x => some (.line (.bref (brefLength d) (brefOffset x)))
  | .cmdDecode _ => none
  | .cmdEncode _ => none
  | .cmdReserved _ _ => none

/-- Disassemble at most `k` instructions: `slots` are the control bits still to come of the open group;
a BREF cut off at the end is a raw byte. -/
def disassembleFrom (ft : FlagTable) (k : Nat) (slots : List Bool) (bytes : List Byte) : List DisLine :=
  match k with
  | 0 => []
  | k + 1 =>
    match bytes with
    | [] => []
    | b :: _ =>
      match slots with
      | [] =>
        .ctrl b :: disassembleFrom ft k ((List.range 8).map (slotBit b)) (bytes.drop 1)
      | l :: ls =>
        match decode (.slot l ft) bytes with
        | .error _ => [.line (.bytes bytes)]
        | .ok (i, rest) => (disInstr i).toList ++ disassembleFrom ft k ls rest

/-- The disassembly of a whole stream. -/
def disassemble (ft : FlagTable) (bytes : List Byte) : List DisLine :=
  disassembleFrom ft bytes.length [] bytes

/-! ## Text -/

/-- A hexadecimal digit's value. -/
def hexValue (c : Char) : Option Nat :=
  if '0' ≤ c ∧ c ≤ '9' then some (c.toNat - '0'.toNat)
  else if 'a' ≤ c ∧ c ≤ 'f' then some (c.toNat - 'a'.toNat + 10)
  else if 'A' ≤ c ∧ c ≤ 'F' then some (c.toNat - 'A'.toNat + 10)
  else none

/-- A number in `base`, `acc` so far. -/
def readDigits (base acc : Nat) (cs : List Char) : Option Nat :=
  match cs with
  | [] => some acc
  | c :: rest =>
    match hexValue c with
    | some d => if d < base then readDigits base (base * acc + d) rest else none
    | none => none

/-- A number: `0x` and hexadecimal digits, or decimal digits. -/
def readNumber (cs : List Char) : Option Nat :=
  match cs with
  | [] => none
  | '0' :: 'x' :: d :: ds => readDigits 16 0 (d :: ds)
  | c :: rest => readDigits 10 0 (c :: rest)

/-- A number below `bound`. -/
def readBelow (bound : Nat) (cs : List Char) : Option Nat :=
  match readNumber cs with
  | some x => if x < bound then some x else none
  | none => none

/-- A byte `0xHH`. -/
def readByte (cs : List Char) : Option Byte := (readBelow 256 cs).map (BitVec.ofNat 8)

/-- A nibble `0xP`. -/
def readNibble (cs : List Char) : Option Nibble := (readBelow 16 cs).map (BitVec.ofNat 4)

/-- An entry of `.flags`: one hexadecimal digit, or a decimal number as the spec's programs write it
(log entry 11). -/
def readFlag (cs : List Char) : Option Nibble :=
  match cs with
  | [c] => (hexValue c).map (BitVec.ofNat 4)
  | _ => readNibble cs

/-- Every member read, or none. -/
def readAll {α : Type} (f : List Char → Option α) (ts : List (List Char)) : Option (List α) :=
  match ts with
  | [] => some []
  | t :: rest =>
    match f t, readAll f rest with
    | some x, some xs => some (x :: xs)
    | some _, none => none
    | none, _ => none

/-- What stands before a comment. -/
def dropComment (cs : List Char) : List Char := cs.takeWhile (fun c => c ≠ ';')

/-- The words of a line, separated by blanks and commas; `cur` is the word being read, reversed. -/
def words (cur : List Char) (cs : List Char) : List (List Char) :=
  let done := if cur.isEmpty then [] else [cur.reverse]
  match cs with
  | [] => done
  | c :: rest => if c = ' ' ∨ c = '\t' ∨ c = '\r' ∨ c = ',' then done ++ words [] rest else words (c :: cur) rest

/-- The lines of a text; `cur` is the line being read, reversed. -/
def textLines (cur : List Char) (cs : List Char) : List (List Char) :=
  match cs with
  | [] => [cur.reverse]
  | c :: rest => if c = '\n' then cur.reverse :: textLines [] rest else textLines (c :: cur) rest

/-- The line that a mnemonic and its operands make (R75, R76). -/
def readLine (name : List Char) (ts : List (List Char)) : Option AsmLine :=
  if name = ".flags".toList then
    match readAll readFlag ts with
    | some l => if l.length = 9 then some (.flags (Nine.ofList 0 l)) else none
    | none => none
  else if name = "LIT".toList then
    match readAll readByte ts with
    | some [v] => some (.lit v)
    | _ => none
  else if name = "NIB".toList then
    match ts with
    | [f, p] =>
      match readBelow 9 f, readNibble p with
      | some k, some q => some (.nib (Fin.ofNat 9 k) q)
      | _, _ => none
    | _ => none
  else if name = "BREF".toList then
    match readAll readNumber ts with
    | some [length, offset] => some (.bref length offset)
    | _ => none
  else if name = ".byte".toList then
    match readAll readByte ts with
    | some (v :: vs) => some (.bytes (v :: vs))
    | _ => none
  else if name = "NIBB".toList then
    match readAll readByte ts with
    | some [b0, b1] => some (.nibb b0 b1)
    | _ => none
  else if name = "LITS".toList then
    match readAll readByte ts with
    | some (v :: vs) => some (.lits (v :: vs))
    | _ => none
  else none

/-- The lines of a text, blank ones left out; none where one cannot be read. -/
def readLines (ls : List (List Char)) : Option (List AsmLine) :=
  match ls with
  | [] => some []
  | l :: rest =>
    match words [] (dropComment l), readLines rest with
    | [], r => r
    | name :: ts, some r => (readLine name ts).map (fun x => x :: r)
    | _ :: _, none => none

/-- Assemble a text (R75). -/
def assembleText (text : String) : Option (Nine Nibble × List Byte) :=
  match readLines (textLines [] text.toList) with
  | some ls => assemble ls
  | none => none

/-- A hexadecimal digit. -/
def hexDigit (v : Nibble) : Char :=
  "0123456789ABCDEF".toList.getD v.toNat '0'

/-- `0xHH`. -/
def showByte (v : Byte) : String := "0x" ++ String.ofList [hexDigit (hi v), hexDigit (lo v)]

/-- `0xP`. -/
def showNibble (p : Nibble) : String := "0x" ++ String.ofList [hexDigit p]

/-- `; CTRL 0bXXXXXXXX` (R75). -/
def showCtrl (c : Byte) : String :=
  "; CTRL 0b" ++ String.ofList ((List.range 8).map (fun i => if slotBit c i then '1' else '0'))

/-- The text of an assembler line (R75, R76). -/
def AsmLine.show (l : AsmLine) : String :=
  match l with
  | .flags t => ".flags " ++ ",".intercalate (t.toList.map (fun v => String.ofList [hexDigit v]))
  | .lit v => "LIT " ++ showByte v
  | .nib f p => "NIB " ++ toString f.val ++ ", " ++ showNibble p
  | .bref length offset => "BREF " ++ toString length ++ ", " ++ toString offset
  | .bytes vs => ".byte " ++ ",".intercalate (vs.map showByte)
  | .nibb b0 b1 => "NIBB " ++ showByte b0 ++ ", " ++ showByte b1
  | .lits vs => "LITS " ++ ", ".intercalate (vs.map showByte)

/-- The text of a disassembly line (R75). -/
def DisLine.show (l : DisLine) : String :=
  match l with
  | .ctrl c => showCtrl c
  | .line a => a.show

end Sys2Proof.Machine
end

