-- ==== Sys2Proof/Tests/Slice0.lean ====
section
/-! SUPPORT. The model's own tests: ill-formed terms refused, words written out from the spec's encodings
decoded, single steps against the spec's vectors (95_test_vectors.md), and for every statement with
hypotheses a concrete case that meets them. -/

namespace Sys2Proof.Tests

open Sys2Proof Sys2Proof.Machine

/-! ## Helpers -/

/-- An engine in DEC_SLOT 0 of a group, at stream address 1, with `out` already decoded. -/
def slotState (bytes out : List Byte) (c : Byte) : State :=
  { State.reset with
    status := statusStarted
    phase := .decSlot
    inBuf := Memory.ofBytes 0 (c :: bytes)
    outBuf := Memory.ofBytes 0 out
    il := BitVec.ofNat 32 (bytes.length + 1)
    ip := 1
    opstart := 1
    ctrlByte := c
    ft := tableF9
    olen := BitVec.ofNat 32 out.length
    outLen := BitVec.ofNat 32 out.length }

/-- The same with an expected length. -/
def expecting (s : State) (xl : Word) : State := { s with xv := true, xl := xl }

/-- The same with another capacity of OUT. -/
def capacity (s : State) (cap : Nat) : State := { s with cfg := { s.cfg with outCap := cap } }

/-- An IDLE engine with `bytes` in IN and IN_LEN set. -/
def loaded (bytes : List Byte) : State :=
  { State.reset with inBuf := Memory.ofBytes 0 bytes, inLen := BitVec.ofNat 32 bytes.length }

/-- An engine in ENC_PARSE at `pos` of `bytes`. -/
def parsing (bytes : List Byte) (pos : Word) (ops : List Op) : State :=
  { loaded bytes with
    status := statusStarted, phase := .encParse, mode := 1, il := BitVec.ofNat 32 bytes.length,
    n := BitVec.ofNat 32 bytes.length, pos := pos, ls := Config.lsSeed, lset := 0x8001#32, opbuf := ops }

/-- A host move waiting. -/
def withMove (s : State) (m : Move) : State := { s with schedule := [m] }

/-- A busy engine. -/
def busyState : State := slotState [0x41#8] [] 0x80#8

/-- One observation of a next state. -/
def after {α : Type} (r : Result) (f : State → α) : Option α := (nextState r).map f

/-! ## WellFormed refuses ill-formed terms -/

theorem illformed_ctrl_in_slot : wellFormed (.slot true tableF9) (.ctrl 0x80#8) = false := by decide
theorem illformed_lit_in_special_slot : wellFormed (.slot false tableF9) (.lit 0x41#8) = false := by decide
theorem illformed_nib_in_literal_slot : wellFormed (.slot true tableF9) (.nib0 3#4) = false := by decide
theorem illformed_nib_entry_above_15 :
    wellFormed (.slot false ⟨0x13, 0x14, 0x15, 4, 5, 6, 7, 8, 9⟩) (.nib0 4#4) = false := by decide
theorem illformed_nib_not_least_index :
    wellFormed (.slot false ⟨1, 3, 3, 4, 5, 6, 7, 8, 9⟩) (.nib2 4#4) = false := by decide
theorem illformed_bref_delta_in_table : wellFormed (.slot false tableF9) (.bref 2#4 0xFFF#12) = false := by decide
theorem illformed_bref_in_literal_slot : wellFormed (.slot true tableF9) (.bref 0#4 0#12) = false := by decide
theorem illformed_reserved_mode : wellFormed .command (.cmdReserved 1#2 false) = false := by decide
theorem illformed_decode_in_stream : wellFormed .control (.cmdDecode true) = false := by decide
theorem illformed_encode_in_stream : wellFormed (.slot false tableF9) (.cmdEncode true) = false := by decide
theorem wellformed_nib_least_index :
    wellFormed (.slot false ⟨1, 3, 3, 4, 5, 6, 7, 8, 9⟩) (.nib1 4#4) = true := by decide
theorem wellformed_bref : wellFormed (.slot false tableF9) (.bref 0#4 0xFFE#12) = true := by decide

/-! ## Decoding: words written out from R61, R63, R64, R65 and R11 -/

theorem decode_ctrl : decode .control [0b11011110#8, 0x41#8] = .ok (.ctrl 0xDE#8, [0x41#8]) := rfl
theorem decode_lit : decode (.slot true tableF9) [0b01000010#8] = .ok (.lit 0x42#8, []) := rfl
theorem decode_nib0 : decode (.slot false tableF9) [0b00010111#8] = .ok (.nib0 7#4, []) := rfl
theorem decode_nib1 : decode (.slot false tableF9) [0b00100000#8] = .ok (.nib1 0#4, []) := rfl
theorem decode_nib2 : decode (.slot false tableF9) [0b00110100#8] = .ok (.nib2 4#4, []) := rfl
theorem decode_nib3 : decode (.slot false tableF9) [0b01000011#8] = .ok (.nib3 3#4, []) := rfl
theorem decode_nib4 : decode (.slot false tableF9) [0b01010011#8] = .ok (.nib4 3#4, []) := rfl
theorem decode_nib5 : decode (.slot false tableF9) [0b01101111#8] = .ok (.nib5 15#4, []) := rfl
theorem decode_nib6 : decode (.slot false tableF9) [0b01111111#8] = .ok (.nib6 15#4, []) := rfl
theorem decode_nib7 : decode (.slot false tableF9) [0b10000011#8] = .ok (.nib7 3#4, []) := rfl
theorem decode_nib8 : decode (.slot false tableF9) [0b10010011#8] = .ok (.nib8 3#4, []) := rfl
theorem decode_bref : decode (.slot false tableF9) [0b00001111#8, 0b11111110#8] = .ok (.bref 0#4 0xFFE#12, []) := rfl
theorem decode_bref_high_part_first :
    decode (.slot false tableF9) [0b11110001#8, 0b00000010#8] = .ok (.bref 15#4 0x102#12, []) := rfl
theorem decode_cmd_decode : decodeCommand 0b1001#32 = .ok (.cmdDecode true) := rfl
theorem decode_cmd_encode : decodeCommand 0b0011#32 = .ok (.cmdEncode false) := rfl
theorem decode_cmd_reserved : decodeCommand 0b0111#32 = .ok (.cmdReserved 3#2 false) := rfl
theorem decode_ctrl_write_without_start : decodeCommand 0xFFFFFFFE#32 = .error .notAStart := rfl
theorem decode_truncated_bref : decode (.slot false tableF9) [0x0F#8] = .error .missingSecondByte := rfl
theorem decode_no_byte : decode .control [] = .error .noByte := rfl
theorem table_word_bref_order : decodeTableWord 16 0x2FFE = some (.bref 2#4 0xFFE#12) := by decide
theorem table_word_command : decodeTableWord 32 5 = some (.cmdReserved 2#2 false) := by decide

/-! ## Single steps (expected results from 95_test_vectors.md) -/

/-- S6: control byte 0xFF. -/
theorem test_ctrl : after (execCtrl 0xFF#8 State.reset) (fun t => (t.ctrlByte, t.ip, t.slot)) =
    some (0xFF#8, 1#32, 0) := by decide
/-- S6: a literal is appended. -/
theorem test_lit : after (step (slotState [0x41#8] [] 0x80#8)) (fun t => (t.outBuf, t.slot)) =
    some ([(0, 0x41#8)], 1) := by decide
/-- R174: after slot 7 comes a control byte. -/
theorem test_lit_last_slot : after (step { slotState [0x41#8] [] 0xFF#8 with slot := 7 }) (fun t => (t.phase, t.slot)) =
    some (.decCtrl, 8) := by decide
/-- S1, V-LUT-2. -/
theorem test_nib0 : (expand 0 3#4, expand 0 15#4) = ((0x33#8, 0x33#8), (0xFF#8, 0xFF#8)) := by decide
/-- V-DEC-17: byte 0x20 under F9. -/
theorem test_nib1 : after (step (slotState [0x20#8] [] 0x00#8)) (fun t => t.outBuf) =
    some [(0, 0x11#8), (1, 0x11#8)] := by decide
/-- V-DEC-1 and V-LUT-5. -/
theorem test_nib2 : after (step (slotState [0x34#8] [] 0x00#8)) (fun t => t.outBuf) =
    some [(0, 0x43#8), (1, 0x44#8)] := by decide
theorem test_nib2_wrap : expand 2 0#4 = (0x0F#8, 0x00#8) := by decide
/-- V-LUT-6, V-LUT-11. -/
theorem test_nib3 : (expand 3 0#4, expand 3 3#4) = ((0x00#8, 0xF0#8), (0x33#8, 0x23#8)) := by decide
/-- V-LUT-7, V-LUT-12. -/
theorem test_nib4 : (expand 4 0#4, expand 4 3#4) = ((0x00#8, 0x0F#8), (0x33#8, 0x32#8)) := by decide
/-- V-DEC-18: byte 0x6F under F9. -/
theorem test_nib5 : after (step (slotState [0x6F#8] [] 0x00#8)) (fun t => t.outBuf) =
    some [(0, 0xEE#8), (1, 0xEE#8)] := by decide
/-- V-LUT-8, S5. -/
theorem test_nib6 : (expand 6 15#4, expand 6 3#4) = ((0xF0#8, 0xFF#8), (0x34#8, 0x33#8)) := by decide
/-- V-LUT-9, V-LUT-13. -/
theorem test_nib7 : (expand 7 15#4, expand 7 3#4) = ((0xFF#8, 0x0F#8), (0x33#8, 0x43#8)) := by decide
/-- V-LUT-10, V-LUT-14. -/
theorem test_nib8 : (expand 8 15#4, expand 8 3#4) = ((0xFF#8, 0xF0#8), (0x33#8, 0x34#8)) := by decide
/-- V-DEC-19: offset 2, length 3 after "AB". -/
theorem test_bref : after (step (slotState [0x0F#8, 0xFE#8] [0x41#8, 0x42#8] 0x00#8)) (fun t => (t.outBuf.map Prod.snd, t.ip)) =
    some ([0x41#8, 0x42#8, 0x41#8, 0x42#8, 0x41#8], 3#32) := by decide
/-- V-DEC-24: offset 2 after one byte. -/
theorem test_bref_invalid : after (step (slotState [0x0F#8, 0xFE#8] [0x41#8] 0x00#8)) (fun t => (t.status, t.errPos, t.inPos)) =
    some (0x202#32, 1#32, 3#32) := by decide
/-- V-DEC-11: the second byte is missing. -/
theorem test_bref_truncated : after (step (slotState [0x0F#8] [0x41#8] 0x00#8)) (fun t => (t.status, t.errPos, t.inPos)) =
    some (0x102#32, 1#32, 2#32) := by decide
/-- V-DEC-20: a control byte with nothing after it ends the stream. -/
theorem test_input_exhausted : after (step (slotState [] [] 0x00#8)) (fun t => (t.status, t.inPos)) =
    some (0x2#32, 1#32) := by decide
/-- V-DEC-6: the warning. -/
theorem test_length_mismatch : after (step (expecting (slotState [] [0x41#8, 0x42#8] 0xFF#8) 5)) (fun t => (t.status, t.outLen)) =
    some (0x6#32, 2#32) := by decide
/-- V-REG-6: DECODE with EXP_VALID. -/
theorem test_cmd_decode : after (step (withMove (loaded [0xFF#8]) (.regWrite 0 4 9#32))) (fun t => (t.ctrl, t.status, t.xv, t.phase)) =
    some (8#32, 1#32, true, .decCtrl) := by decide
/-- V-REG-5: INPUT_OVERFLOW comes first. -/
theorem test_cmd_decode_input_overflow :
    after (step { State.reset with inLen := 65536, schedule := [.regWrite 0 4 1#32] }) (fun t => t.status) =
    some 0x502#32 := by decide
/-- R141: LSET is seeded at START. -/
theorem test_cmd_encode : after (step (withMove (loaded [0x41#8]) (.regWrite 0 4 3#32))) (fun t => (t.lset, t.phase)) =
    some (0x8001#32, .encParse) := by decide
/-- V-REG-2. -/
theorem test_cmd_reserved : after (step (withMove State.reset (.regWrite 0 4 5#32))) (fun t => (t.status, t.ctrl)) =
    some (0x602#32, 4#32) := by decide
/-- V-REG-11. -/
theorem test_ctrl_write_no_start : after (step (withMove State.reset (.regWrite 0 4 0xFFFFFFFE#32))) (fun t => (t.ctrl, t.status)) =
    some (0xE#32, 0#32) := by decide
/-- V-REG-10. -/
theorem test_flags2_reserved : after (step (withMove State.reset (.regWrite 0x28 4 0xFFFFFF0A#32))) (fun t => t.flags2) =
    some 0xA#32 := by decide
/-- V-CLS-2, V-CLS-5, V-CLS-6, V-CLS-7. -/
theorem test_classify : (classify 0x43#8 0x44#8, classify 0xF0#8 0xFF#8, classify 0x43#8 0x33#8, classify 0x35#8 0x33#8) =
    (some (2, 4#4), some (6, 15#4), none, none) := by decide
/-- V-MF-1, V-MF-3 and V-MF-5. -/
theorem test_find_match_overlap : findMatch (List.replicate 6 0x41#8) 1 = some (1, 5) := by decide
theorem test_find_match_leftmost :
    findMatch [0x41#8, 0x42#8, 0x43#8, 0x58#8, 0x41#8, 0x42#8, 0x43#8, 0x59#8, 0x41#8, 0x42#8, 0x43#8] 8 = some (8, 3) := by
  decide
theorem test_find_match_short : findMatch [0x41#8, 0x42#8, 0x41#8, 0x42#8] 2 = none := by decide
/-- V-AL-5: a full set clamps 9 to 5. -/
theorem test_alloc_clamp : alloc 0x803F#16 9 = (0x803F#16, 5) := by decide
/-- V-AL-3's ControlFlags. -/
theorem test_control_flags : controlFlags 0x8085#16 = ⟨1, 3, 4, 5, 6, 8, 9, 10, 11⟩ := by decide
/-- V-ENC-16: the reference result of "ABCDABCD". -/
theorem test_encode : referenceResult [0x41#8, 0x42#8, 0x43#8, 0x44#8, 0x41#8, 0x42#8, 0x43#8, 0x44#8] =
    (⟨2, 3, 4, 5, 6, 7, 8, 9, 10⟩, [0xC0#8, 0x41#8, 0x42#8, 0x44#8, 0x1F#8, 0xFC#8]) := by decide
/-- V-HOST-1, with the model's MAGIC_A. -/
theorem test_serialize : (serialize Config.initial .a ⟨1, 3, 4, 5, 6, 7, 8, 9, 10⟩ [0x80#8, 0x41#8, 0x2F#8, 0xFF#8] 6).toOption.map (List.drop 5) =
    some [0x16#8, 0#8, 1#8, 3#8, 4#8, 5#8, 6#8, 7#8, 8#8, 9#8, 10#8, 6#8, 0#8, 0x80#8, 0x41#8, 0x2F#8, 0xFF#8] := by decide
/-- P2's first lines. -/
theorem test_assemble :
    assemble [.flags ⟨1, 3, 4, 5, 6, 7, 8, 9, 10⟩, .lit 0x41#8, .bref 5 1, .nibb 0x77#8 0x77#8] =
      some (⟨1, 3, 4, 5, 6, 7, 8, 9, 10⟩, [0x80#8, 0x41#8, 0x2F#8, 0xFF#8, 0x17#8]) := by decide

/-- R256: FLAGS2 read during a DECODE is a draw with its reserved bits 0; CTRL is exact. -/
theorem test_busy_flags_drawn :
    busyState.busyValue 0x28 = Config.freeWord 0 &&& 0x000000FF#32 ∧ busyState.busyValue 0x00 = 0#32 := ⟨rfl, rfl⟩
/-- R261: a buffer write while BUSY breaks NO_HOST_TOUCH, a reset NO_RESET, a register read neither. -/
theorem test_launch_premises :
    ¬ (withMove busyState (.outWrite 0 1#8)).NoHostTouch 3 ∧ ¬ (withMove busyState .reset).NoReset 3 ∧
    (withMove busyState (.regRead 0 4)).NoHostTouch 3 ∧ (withMove State.reset (.inWrite 0 1#8)).NoHostTouch 3 := by decide
/-- R261 with R126's worked table: a LengthSet member in the table is no FLAGS_VALID table. -/
theorem test_flags_valid :
    flagsValid tableF9 0x8001#16 = true ∧ flagsValid tableF9 0x8003#16 = false ∧ legalFlags tableF9 = true := by decide

/-! ## Witnesses: every statement's hypotheses are met -/

theorem witness_DecodeOfEncodeIsIdentity :
    wellFormed .control (.ctrl 0#8) = true ∧ wellFormed (.slot true tableF9) (.lit 0#8) = true ∧
    wellFormed (.slot false tableF9) (.nib8 15#4) = true ∧ wellFormed (.slot false tableNone) (.bref 15#4 0xFFF#12) = true ∧
    wellFormed .command (.cmdReserved 2#2 true) = true := by decide
theorem witness_EncodeOfDecodedStreamBytes :
    Context.slot false tableF9 ≠ .command ∧ decode (.slot false tableF9) [0x0F#8, 0xFE#8] = .ok (.bref 0#4 0xFFE#12, []) :=
  ⟨by decide, rfl⟩
theorem witness_CommandWordKeepsItsLowBits : ctrlStart 0xFFFFFFFF#32 = true ∧ ctrlStart 0xFFFFFFFE#32 = false := by decide
theorem witness_NibIndexIsLeastMatch :
    legalFlags tableF9 = true ∧ tableF9.get 8 = (hi 0x9F#8).setWidth 8 ∧ 15 < (tableNone.get 0).toNat := by decide
theorem witness_SlotClassification :
    slotBit 0x80#8 0 = true ∧ slotBit 0x80#8 7 = false ∧ tableF9.get 0 = (hi 0x10#8).setWidth 8 ∧
    (∀ k : Fin 9, tableF9.get k ≠ (hi 0x00#8).setWidth 8) := by decide
theorem witness_BackReferenceOperands :
    decode (.slot false tableF9) [0xFF#8, 0xFF#8] = .ok (.bref 15#4 0xFFF#12, []) ∧
    decode (.slot false tableF9) [0x00#8, 0x00#8] = .ok (.bref 0#4 0#12, []) := ⟨rfl, rfl⟩
theorem witness_StepRunsControlByte :
    ∃ s : State, s.schedule = [] ∧ s.phase = .decCtrl ∧ s.stopTest = none ∧ s.streamByte 0 = some 0x41#8 ∧
      decode .control [0x41#8] = .ok (.ctrl 0x41#8, []) :=
  ⟨{ slotState [0x41#8] [] 0#8 with phase := .decCtrl }, by decide, by decide, by decide, by decide, rfl⟩
theorem witness_StepRunsSlotOperation_one_byte :
    ∃ s : State, s.schedule = [] ∧ s.phase = .decSlot ∧ s.stopTest = none ∧ s.streamByte 0 = some 0x34#8 ∧
      decode (.slot (slotBit s.ctrlByte s.slot) s.ft) [0x34#8] = .ok (.nib2 4#4, []) :=
  ⟨slotState [0x34#8] [] 0#8, by decide, by decide, by decide, by decide, rfl⟩
theorem witness_StepRunsSlotOperation_two_bytes :
    ∃ s : State, s.schedule = [] ∧ s.phase = .decSlot ∧ s.stopTest = none ∧ s.streamByte 0 = some 0x0F#8 ∧
      s.ip + 1 ≠ s.il ∧ s.streamByte 1 = some 0xFE#8 ∧
      decode (.slot (slotBit s.ctrlByte s.slot) s.ft) [0x0F#8, 0xFE#8] = .ok (.bref 0#4 0xFFE#12, []) :=
  ⟨slotState [0x0F#8, 0xFE#8] [] 0#8, by decide, by decide, by decide, by decide, by decide, by decide, rfl⟩
theorem witness_StepRunsSlotOperation_truncated :
    ∃ s : State, s.schedule = [] ∧ s.phase = .decSlot ∧ s.stopTest = none ∧ s.streamByte 0 = some 0x0F#8 ∧
      s.ip + 1 = s.il ∧ decode (.slot (slotBit s.ctrlByte s.slot) s.ft) [0x0F#8] = .error .missingSecondByte :=
  ⟨slotState [0x0F#8] [] 0#8, by decide, by decide, by decide, by decide, by decide, rfl⟩
theorem witness_StepRunsHostCommand :
    (withMove State.reset (.regWrite 0 4 3#32)).schedule = .regWrite 0 4 3#32 :: [] ∧
    decodeCommand 3#32 = .ok (.cmdEncode false) ∧
    (withMove busyState .engineTurn).schedule = .engineTurn :: [] ∧
    State.reset.schedule = [] ∧ State.reset.phase = .idle := ⟨rfl, rfl, rfl, rfl, rfl⟩
theorem witness_StopTestsEndDecode :
    (∃ s : State, s.schedule = [] ∧ s.phase = .decSlot ∧ s.xv = true ∧ s.olen = s.xl) ∧
    (∃ s : State, s.schedule = [] ∧ s.phase = .decSlot ∧ ¬ (s.xv = true ∧ s.olen = s.xl) ∧ s.ip = s.il ∧
      s.xv = true ∧ s.olen.toNat < s.xl.toNat) ∧
    (∃ s : State, s.schedule = [] ∧ s.phase = .decCtrl ∧ ¬ (s.xv = true ∧ s.olen = s.xl) ∧ s.ip = s.il ∧ s.xv = false) :=
  ⟨⟨expecting (slotState [0#8] [0x41#8] 0#8) 1, by decide⟩, ⟨expecting (slotState [] [0x41#8] 0#8) 5, by decide⟩,
   ⟨{ slotState [] [] 0#8 with phase := .decCtrl }, by decide⟩⟩
theorem witness_LitAppendsItsByte :
    ∃ s : State, ¬ (s.xv = true ∧ s.olen = s.xl) ∧ s.olen.toNat ≠ s.cfg.outCap ∧ s.slot = 7 :=
  ⟨{ slotState [0x41#8] [] 0x01#8 with slot := 7 }, by decide⟩
theorem witness_NibAppendsItsPattern :
    ∃ s : State, ¬ (s.xv = true ∧ s.olen = s.xl) ∧ ¬ (s.xv = true ∧ s.olen + 1 = s.xl) ∧
      s.olen.toNat ≠ s.cfg.outCap ∧ (s.olen + 1).toNat ≠ s.cfg.outCap ∧ s.xv = true ∧ s.cfg.outCap = 2 :=
  ⟨capacity (expecting (slotState [0x34#8] [] 0#8) 2) 2, by decide⟩
theorem witness_NibCutByExpectedLength :
    ∃ s : State, s.xv = true ∧ s.olen + 1 = s.xl ∧ s.olen.toNat ≠ s.cfg.outCap :=
  ⟨expecting (slotState [0x34#8] [] 0#8) 1, by decide⟩

/-- A copy of three bytes at the window's and the output's edges: offset = `olen` = 2. -/
def copyState : State := capacity (expecting (slotState [0x0F#8, 0xFE#8] [0x41#8, 0x42#8] 0#8) 5) 5

theorem witness_BrefCopiesCyclically :
    copyState.ip + 1 ≠ copyState.il ∧ brefOffset 0xFFE#12 ≤ copyState.olen.toNat ∧
    copyState.olen.toNat + brefLength 0#4 ≤ copyState.cfg.outCap ∧ copyState.cfg.outCap < 2 ^ 32 ∧
    (copyState.xv = true → copyState.olen.toNat + brefLength 0#4 ≤ copyState.xl.toNat) ∧
    (∀ j, j < brefOffset 0xFFE#12 → (Memory.read copyState.outBuf (copyState.olen.toNat - brefOffset 0xFFE#12 + j)).isSome = true) := by
  decide
theorem witness_BrefEqualsOverlappingCopy : (after (exec (.bref 0#4 0xFFE#12) copyState) (fun t => t.olen)) = some 5#32 := by
  decide
theorem witness_BrefCutByExpectedLength :
    ∃ s : State, s.ip + 1 ≠ s.il ∧ brefOffset 0xFFF#12 ≤ s.olen.toNat ∧ s.xv = true ∧ s.olen.toNat ≤ s.xl.toNat ∧
      s.xl.toNat < s.olen.toNat + brefLength 2#4 ∧ s.xl.toNat ≤ s.cfg.outCap ∧
      (∀ j, j < brefOffset 0xFFF#12 → (Memory.read s.outBuf (s.olen.toNat - brefOffset 0xFFF#12 + j)).isSome = true) :=
  ⟨capacity (expecting (slotState [0x2F#8, 0xFF#8] [0x41#8] 0#8) 4) 4, by decide⟩
theorem witness_BrefOverflowKeepsCopiedBytes :
    ∃ s : State, s.ip + 1 ≠ s.il ∧ brefOffset 0xFFF#12 ≤ s.olen.toNat ∧ s.olen.toNat ≤ s.cfg.outCap ∧
      s.cfg.outCap < s.olen.toNat + brefLength 2#4 ∧ s.cfg.outCap < 2 ^ 32 ∧ (s.xv = true → s.cfg.outCap < s.xl.toNat) ∧
      (∀ j, j < brefOffset 0xFFF#12 → (Memory.read s.outBuf (s.olen.toNat - brefOffset 0xFFF#12 + j)).isSome = true) :=
  ⟨capacity (expecting (slotState [0x2F#8, 0xFF#8] [0x41#8] 0#8) 5) 4, by decide⟩
theorem witness_BrefTruncatedInput : ∃ s : State, s.ip + 1 = s.il := ⟨slotState [0x0F#8] [] 0#8, by decide⟩
theorem witness_BrefInvalidOffset : ∃ s : State, s.ip + 1 ≠ s.il ∧ s.olen.toNat < brefOffset 0xFFE#12 :=
  ⟨slotState [0x0F#8, 0xFE#8] [0x41#8] 0#8, by decide⟩
theorem witness_AppendOverflow :
    (∃ s : State, ¬ (s.xv = true ∧ s.olen = s.xl) ∧ s.olen.toNat = s.cfg.outCap) ∧
    (∃ s : State, ¬ (s.xv = true ∧ s.olen = s.xl) ∧ ¬ (s.xv = true ∧ s.olen + 1 = s.xl) ∧
      s.olen.toNat ≠ s.cfg.outCap ∧ (s.olen + 1).toNat = s.cfg.outCap) :=
  ⟨⟨capacity (slotState [0x34#8] [0x41#8] 0#8) 1, by decide⟩, ⟨capacity (slotState [0x34#8] [] 0#8) 1, by decide⟩⟩
theorem witness_ExpectedLengthBeforeOverflow : ∃ s : State, s.xv = true ∧ s.olen = s.xl ∧ s.olen.toNat = s.cfg.outCap :=
  ⟨capacity (expecting (slotState [0x34#8] [0x41#8] 0#8) 1) 1, by decide⟩
theorem witness_StreamOperationFrame :
    isStreamOp (.bref 0#4 0xFFE#12) = true ∧ copyState.olen.toNat ≤ copyState.cfg.outCap ∧ copyState.cfg.outCap < 2 ^ 32 ∧
    (nextState (exec (.bref 0#4 0xFFE#12) copyState)).isSome = true ∧
    isStreamOp (.nib3 0#4) = true ∧ (nextState (exec (.nib3 0#4) copyState)).isSome = true := by decide
theorem witness_CmdDecodeStarts :
    ∃ s : State, s.busy = false ∧ s.inLen.toNat ≤ s.cfg.inCap ∧ s.cfg.strictFlags = true ∧
      (s.cfg.strictFlags = true → legalFlags (startedState 0 true s).ft = true) :=
  ⟨{ State.reset with
     cfg := { Config.initial with strictFlags := true }, inLen := 65535
     flags0 := 0x04030201#32, flags1 := 0x08070605#32, flags2 := 9#32 }, by decide⟩
theorem witness_CmdEncodeStarts : ∃ s : State, s.busy = false ∧ s.inLen.toNat ≤ s.cfg.inCap := ⟨State.reset, by decide⟩
theorem witness_CmdReservedRaisesBadCommand : 2 ≤ (2#2).toNat ∧ 2 ≤ (3#2).toNat ∧ State.reset.busy = false := by decide
theorem witness_StartErrorPriority :
    (∃ s : State, s.busy = false ∧ s.cfg.inCap < s.inLen.toNat) ∧
    (∃ s : State, s.busy = false ∧ s.inLen.toNat ≤ s.cfg.inCap ∧ s.cfg.strictFlags = true ∧
      legalFlags (startedState 0 false s).ft = false) :=
  ⟨⟨{ State.reset with inLen := 65536 }, by decide⟩,
   ⟨{ State.reset with cfg := { Config.initial with strictFlags := true } }, by decide⟩⟩
theorem witness_RegisterWritesIgnoredWhileBusy :
    busyState.busy = true ∧ (withMove busyState (.regWrite 0x3C 4 7#32)).schedule = .regWrite 0x3C 4 7#32 :: [] := by decide
theorem witness_RegisterWritesIgnoredWhileBusy_no_touch :
    (withMove busyState (.regRead 0x10 4)).touchesBuffer = false ∧ (withMove busyState (.regRead 0x10 4)).resetsCommand = false ∧
    (withMove busyState .waitDone).touchesBuffer = false ∧ (withMove busyState .waitDone).resetsCommand = false := by decide
theorem witness_CommandFrame :
    wellFormed .command (.cmdEncode true) = true ∧ State.reset.busy = false ∧
    (nextState (exec (.cmdEncode true) State.reset)).isSome = true := by decide
theorem witness_ResetLeavesRegistersZero : (withMove busyState .reset).schedule = .reset :: [] := by decide
theorem witness_IdleRegisterReads :
    State.reset.busy = false ∧ (withMove State.reset (.regRead 0x3C 4)).schedule = .regRead 0x3C 4 :: [] := by decide
theorem witness_IdleRegisterWrites :
    State.reset.busy = false ∧ (0xFFFFFFFE#32).getLsbD 0 = false ∧
    (withMove State.reset (.regWrite 0 4 0xFFFFFFFE#32)).schedule = .regWrite 0 4 0xFFFFFFFE#32 :: [] := by decide
theorem witness_BusyRegisterReads :
    busyState.busy = true ∧ (withMove busyState (.regRead 0x10 4)).schedule = .regRead 0x10 4 :: [] ∧
    (nextState (runEngine busyState.stepBound { busyState with schedule := [] })).isSome = true := by decide
theorem witness_HostBufferAndAccessRules :
    busyState.busy = true ∧ State.reset.busy = false ∧ 65534 < State.reset.cfg.inCap ∧ 65534 < State.reset.cfg.outCap ∧
    (2 ≠ 4 ∨ 0 % 4 ≠ 0) ∧ (4 ≠ 4 ∨ 2 % 4 ≠ 0) := by decide
theorem witness_ClassifyInvertsExpand :
    classify 0x43#8 0x44#8 = some (2, 4#4) ∧ hi 0x43#8 ≠ lo 0x43#8 ∧ hi 0x33#8 = lo 0x43#8 ∧ lo 0x33#8 = lo 0x43#8 := by decide
theorem witness_MatchFinderIsSound : 1 < (List.replicate 6 0x41#8).length ∧ findMatch (List.replicate 6 0x41#8) 1 = some (1, 5) := by
  decide
theorem witness_MatchFinderIsLongestAndLeftmost :
    1 ≤ 1 ∧ 1 ≤ min 1 4096 ∧ 5 ≤ min 18 ((List.replicate 6 0x41#8).length - 1) ∧
    (∀ j, j < 5 → byteAt (List.replicate 6 0x41#8) (1 - 1 + j) = byteAt (List.replicate 6 0x41#8) (1 + j)) := by decide
theorem lengthSetOk_seed : lengthSetOk Config.lsSeed := ⟨by decide, by decide, by decide⟩
theorem lengthSetOk_full : lengthSetOk 0x803F#16 := ⟨by decide, by decide, by decide⟩
theorem witness_AllocatorClampsDownOnly :
    lengthSetOk 0x803F#16 ∧ 9 ≤ 15 ∧ lsMember 0x803F#16 9 = false ∧ lsSize 0x803F#16 = 7 ∧ lsSize Config.lsSeed < 7 :=
  ⟨lengthSetOk_full, by decide⟩
theorem witness_ControlFlagsAvoidLengthSet : lengthSetOk 0x803F#16 ∧ lsSize 0x803F#16 = 7 ∧ lengthSetOk Config.lsSeed :=
  ⟨lengthSetOk_full, by decide, lengthSetOk_seed⟩
theorem witness_ParseStepTakesFirstChoice_match :
    ∃ s : State, s.schedule = [] ∧ s.phase = .encParse ∧ s.inputBytes = .ok (List.replicate 6 0x41#8) ∧
      s.pos.toNat < s.n.toNat ∧ findMatch (List.replicate 6 0x41#8) s.pos.toNat = some (1, 5) :=
  ⟨parsing (List.replicate 6 0x41#8) 1 [.lit 0x41#8], rfl, rfl, rfl, by decide, by decide⟩
theorem witness_ParseStepTakesFirstChoice_pattern :
    ∃ s : State, s.schedule = [] ∧ s.phase = .encParse ∧ s.inputBytes = .ok [0x43#8, 0x44#8] ∧ s.pos.toNat < s.n.toNat ∧
      findMatch [0x43#8, 0x44#8] s.pos.toNat = none ∧ s.pos.toNat + 2 ≤ [0x43#8, 0x44#8].length ∧
      classify (byteAt [0x43#8, 0x44#8] s.pos.toNat) (byteAt [0x43#8, 0x44#8] (s.pos.toNat + 1)) = some (2, 4#4) :=
  ⟨parsing [0x43#8, 0x44#8] 0 [], rfl, rfl, rfl, by decide, by decide, by decide, by decide⟩
theorem witness_ParseStepTakesFirstChoice_literal :
    ∃ s : State, s.schedule = [] ∧ s.phase = .encParse ∧ s.inputBytes = .ok [0x41#8] ∧ s.pos.toNat < s.n.toNat ∧
      findMatch [0x41#8] s.pos.toNat = none ∧ [0x41#8].length < s.pos.toNat + 2 :=
  ⟨parsing [0x41#8] 0 [], rfl, rfl, rfl, by decide, by decide, by decide⟩
theorem witness_EncodeCheckRejectsOversize_parsed :
    ∃ s : State, s.schedule = [] ∧ s.phase = .encParse ∧ s.inputBytes = .ok [0x41#8] ∧ s.pos = s.n :=
  ⟨parsing [0x41#8] 1 [.lit 0x41#8], rfl, rfl, rfl, rfl⟩

/-- An engine in ENC_CHECK with two operations in OPBUF. -/
def checking : State := { parsing [0x43#8, 0x33#8] 2 [.lit 0x43#8, .lit 0x33#8] with phase := .encCheck }

theorem streamSize_literals (k : Nat) (v : Byte) : streamSize (List.replicate k (.lit v)) = (k + 7) / 8 + k := by
  have : brefCount (List.replicate k (.lit v)) = 0 := by
    simp [brefCount, Op.isBref]
  simp [streamSize, this]
theorem witness_EncodeCheckRejectsOversize_size :
    ∃ s : State, s.schedule = [] ∧ s.phase = .encCheck ∧ s.cfg.encoderModel = .reference ∧ 65535 < streamSize s.opbuf :=
  ⟨{ checking with opbuf := List.replicate 60000 (.lit 0#8) }, rfl, rfl, rfl, by rw [streamSize_literals]; decide⟩
theorem witness_EncodeCheckRejectsOversize_capacity :
    ∃ s : State, s.schedule = [] ∧ s.phase = .encCheck ∧ s.cfg.encoderModel = .reference ∧ streamSize s.opbuf ≤ 65535 ∧
      s.cfg.outCap < streamSize s.opbuf := ⟨capacity checking 2, rfl, rfl, rfl, by decide, by decide⟩
theorem witness_EncodeCheckRejectsOversize_fits :
    ∃ s : State, s.schedule = [] ∧ s.phase = .encCheck ∧ s.cfg.encoderModel = .reference ∧ streamSize s.opbuf ≤ 65535 ∧
      streamSize s.opbuf ≤ s.cfg.outCap := ⟨capacity checking 3, rfl, rfl, rfl, by decide, by decide⟩
theorem witness_EncodeEmitPublishes :
    ∃ s : State, s.schedule = [] ∧ s.phase = .encEmit ∧ s.olen = 0 ∧ streamSize s.opbuf ≤ 65535 :=
  ⟨{ checking with phase := .encEmit }, rfl, rfl, rfl, by decide⟩
theorem witness_EmptyInputEncodes :
    State.reset.busy = false ∧ State.reset.inLen = 0 ∧ State.reset.cfg.encoderModel = .reference ∧
    (nextState (exec (.cmdEncode false) State.reset)).isSome = true := by decide
theorem witness_ReferenceEncoderRoundTrip :
    (List.replicate 6 0x41#8).length < 2 ^ 32 ∧ streamSize (parse (List.replicate 6 0x41#8)).1 ≤ 65535 := by decide
theorem witness_EncodeRunsToReferenceResult :
    (loaded [0x41#8, 0x41#8]).Idle ∧ (loaded [0x41#8, 0x41#8]).inLen.toNat = [0x41#8, 0x41#8].length ∧
    Memory.readBytes (loaded [0x41#8, 0x41#8]).inBuf 0 2 = .ok [0x41#8, 0x41#8] ∧
    streamSize (parse [0x41#8, 0x41#8]).1 ≤ (loaded [0x41#8, 0x41#8]).cfg.outCap ∧
    (nextState (exec (.cmdEncode false) (loaded [0x41#8, 0x41#8]))).isSome = true :=
  ⟨⟨by decide, by decide⟩, by decide, rfl, by decide, by decide⟩

/-- A decode in progress inside its bounds. -/
theorem busyState_bounds : copyState.EngineBounds where
  config := by decide
  in_below := by decide
  out_below := by decide
  decode := fun _ => ⟨by decide, by decide, by decide, by decide, by decide, by decide, by decide, by decide⟩
  encode := fun h => absurd h (by decide)
theorem witness_DecodeAlwaysEnds :
    copyState.EngineBounds ∧ copyState.inDecode = true ∧ (∀ a, a < copyState.il.toNat → (Memory.read copyState.inBuf a).isSome = true) :=
  ⟨busyState_bounds, by decide, by decide⟩

/-- An encode in progress. -/
def encodeState : State := parsing [0x41#8, 0x42#8] 1 [.lit 0x41#8]

theorem encodeState_bounds : encodeState.EngineBounds where
  config := by decide
  in_below := by decide
  out_below := by decide
  decode := fun h => absurd h (by decide)
  encode := fun _ => ⟨by decide, by decide, by decide, lengthSetOk_seed, by
    intro o ho
    have : o = .lit 0x41#8 := by simpa [encodeState, parsing] using ho
    subst this; trivial, by decide, by decide⟩
theorem witness_EncodeAlwaysEnds :
    encodeState.EngineBounds ∧ encodeState.inEncode = true ∧
    (∀ a, a < encodeState.n.toNat → (Memory.read encodeState.inBuf a).isSome = true) :=
  ⟨encodeState_bounds, by decide, by decide⟩
theorem witness_DecodeOutcomeIsDeterminedByItsInputs :
    (loaded [0xFF#8, 0x41#8]).Idle ∧
    (nextState (exec (.cmdDecode false) (loaded [0xFF#8, 0x41#8]))).isSome = true ∧
    (after (exec (.cmdDecode false) (loaded [0xFF#8, 0x41#8])) (fun u => (nextState (runEngine 4 u)).isSome)) = some true :=
  ⟨⟨by decide, by decide⟩, by decide, by decide⟩
theorem witness_StepKeepsBuffersCanonical : copyState.BuffersCanonical ∧ (nextState (step copyState)).isSome = true :=
  ⟨⟨by decide, by decide⟩, by decide⟩
theorem busyState_legal : copyState.RegistersLegal where
  ctrl_reserved := by decide
  status_legal := .inr (.inl rfl)
  busy_iff := by decide
  errPos_zero := by decide
  lset_reserved := by decide
  flags2_reserved := by decide
theorem witness_StepKeepsRegistersLegal : copyState.RegistersLegal ∧ (nextState (step copyState)).isSome = true :=
  ⟨busyState_legal, by decide⟩
theorem witness_StepKeepsEngineBounds :
    copyState.EngineBounds ∧ (nextState (step copyState)).isSome = true ∧ encodeState.EngineBounds ∧
    (nextState (step encodeState)).isSome = true := ⟨busyState_bounds, by decide, encodeState_bounds, by decide⟩
/-- An unwritten input byte stops the engine (R53, X6). -/
theorem witness_EngineFaultsOnlyOnUnwrittenInput :
    engineStep { copyState with inBuf := [] } = .fault (.unwrittenIn 1) ∧ ({ copyState with inBuf := [] } : State).EngineBounds :=
  ⟨rfl, ⟨by decide, by decide, by decide,
    fun _ => ⟨by decide, by decide, by decide, by decide, by decide, by decide, by decide, by decide⟩, fun h => absurd h (by decide)⟩⟩
theorem witness_EngineNeverWritesInput : (nextState (engineStep copyState)).isSome = true ∧ copyState.inDecode = true := by decide
theorem witness_StatusChangesOnlyAtStartAndEnd :
    after (step (expecting copyState 2)) (fun t => decide (t.status ≠ copyState.status)) = some true := by decide
theorem witness_DeserializeOfSerialize :
    Config.initial.wf = true ∧ (serialize Config.initial .b tableF9 [0x80#8] 6).isOk = true ∧
    (serialize Config.initial .a tableF9 [] 65535).isOk = true := by decide
theorem witness_SerializeLimits : Config.initial.wf = true ∧ (serialize Config.initial .a tableF9 [0x80#8] 6).isOk = true := by decide

end Sys2Proof.Tests
end

/-! # The encoding: what the encoder writes, the decoder reads back (30_encoding.md, R11) -/

namespace Sys2Proof

/-! ## The flag index (R62, R68) -/

/-- The chain of comparisons is a search for the first index that holds the nibble. -/
theorem flagIndex_eq_find? (ft : FlagTable) (h : Nibble) :
    flagIndex ft h = Fin.find? (fun k => ft.get k = h.setWidth 8) := by
  simp only [flagIndex, Fin.find?_succ, apply_ite (Option.map Fin.succ), Option.map_some, Fin.find?_zero,
    decide_eq_true_eq, Option.map_none]
  rfl

theorem flagIndex_eq_some_iff {ft : FlagTable} {h : Nibble} {k : Fin 9} :
    flagIndex ft h = some k ↔ ft.get k = h.setWidth 8 ∧ ∀ j < k, ft.get j ≠ h.setWidth 8 := by
  simp [flagIndex_eq_find?]

theorem flagIndex_eq_none_iff {ft : FlagTable} {h : Nibble} :
    flagIndex ft h = none ↔ ∀ k, ft.get k ≠ h.setWidth 8 := by
  simp [flagIndex_eq_find?]

/-- A byte not above 15 is its own low nibble, zero-extended. -/
theorem setWidth_setWidth_of_le {b : Byte} (h : b.toNat ≤ 15) : (b.setWidth 4).setWidth 8 = b := by
  apply BitVec.eq_of_toNat_eq
  simp only [BitVec.toNat_setWidth]
  omega

theorem flagIndex_of_nibbleFlagOk {ft : FlagTable} {k : Fin 9} (h : nibbleFlagOk ft k = true) :
    flagIndex ft ((ft.get k).setWidth 4) = some k := by
  simp only [nibbleFlagOk, Bool.and_eq_true, decide_eq_true_eq] at h
  obtain ⟨hle, hleast⟩ := h
  rw [flagIndex_eq_some_iff, setWidth_setWidth_of_le hle]
  exact ⟨rfl, hleast⟩

theorem flagIndex_of_deltaOk {ft : FlagTable} {d : Nibble} (h : deltaOk ft d = true) : flagIndex ft d = none :=
  flagIndex_eq_none_iff.mpr (of_decide_eq_true h)

/-! ## Decoding what the encoder writes, kind by kind -/

theorem Context.special_eq_some {c : Context} {ft : FlagTable} (h : c.special = some ft) : c = .slot false ft := by
  match c with
  | .command | .control | .slot true _ => cases h
  | .slot false _ => cases h; rfl

theorem Context.of_admitsNib {c : Context} {k : Fin 9} (h : c.admitsNib k = true) :
    ∃ ft, c = .slot false ft ∧ nibbleFlagOk ft k = true := by
  unfold Context.admitsNib at h
  split at h
  · next ft hs => exact ⟨ft, Context.special_eq_some hs, h⟩
  · cases h

theorem Context.of_admitsBref {c : Context} {d : Nibble} (h : c.admitsBref d = true) :
    ∃ ft, c = .slot false ft ∧ deltaOk ft d = true := by
  unfold Context.admitsBref at h
  split at h
  · next ft hs => exact ⟨ft, Context.special_eq_some hs, h⟩
  · cases h

theorem decode_nibByte {c : Context} {k : Fin 9} (h : c.admitsNib k = true) (p : Nibble) (rest : List Byte) :
    decode c (nibByte c.table k p :: rest) = .ok (nibInstr k p, rest) := by
  obtain ⟨ft, rfl, hk⟩ := Context.of_admitsNib h
  simp [decode, decodeSpecial, Context.table, nibByte, flagIndex_of_nibbleFlagOk hk]

/-- The encoded offset is put together again from its two parts (R44(b)). -/
theorem brefOffset_parts (x : BitVec 12) : x.extractLsb' 8 4 ++ x.extractLsb' 0 8 = x := by
  apply BitVec.eq_of_getLsbD_eq
  intro i hi
  simp only [BitVec.getLsbD_append, BitVec.getLsbD_extractLsb']
  interval_cases i <;> rfl

theorem decode_brefBytes {c : Context} {d : Nibble} (h : c.admitsBref d = true) (x : BitVec 12)
    (rest : List Byte) : decode c (brefBytes d x ++ rest) = .ok (.bref d x, rest) := by
  obtain ⟨ft, rfl, hd⟩ := Context.of_admitsBref h
  simp [decode, decodeSpecial, brefBytes, flagIndex_of_deltaOk hd, brefOffset_parts]

theorem decode_lit {c : Context} (h : c.isLiteral = true) (v : Byte) (rest : List Byte) :
    decode c (v :: rest) = .ok (.lit v, rest) := by
  match c with
  | .slot true _ => rfl
  | .command | .control | .slot false _ => cases h

theorem decode_command_wordBytes (w : Word) (rest : List Byte) :
    decode .command (wordBytes w ++ rest) = (decodeCommand w).map (·, rest) := by
  simp only [wordBytes, List.cons_append, List.nil_append, decode, wordOfBytes_wordBytes]
  cases decodeCommand w <;> rfl

/-- A CTRL word with START = 1 is decoded by its MODE (R11). -/
theorem decodeCommand_start {w : Word} (h : ctrlStart w = true) : decodeCommand w = .ok (
    if ctrlMode w = 0#2 then .cmdDecode (ctrlExpValid w)
    else if ctrlMode w = 1#2 then .cmdEncode (ctrlExpValid w)
    else .cmdReserved (ctrlMode w) (ctrlExpValid w)) := by
  simp only [decodeCommand, h, if_true]
  split_ifs <;> rfl

theorem decodeCommand_noStart {w : Word} (h : ctrlStart w = false) : decodeCommand w = .error .notAStart := by
  simp [decodeCommand, h]

theorem decode_encode_command {i : Instr} (h : wellFormed .command i = true) (ft : FlagTable) (rest : List Byte) :
    decode .command (encode ft i ++ rest) = .ok (i, rest) := by
  match i with
  | .cmdDecode e | .cmdEncode e => simp [encode, decode_command_wordBytes, decodeCommand_start, Except.map]
  | .cmdReserved m e =>
    have hm : 2 ≤ m.toNat := by simpa [wellFormed] using h
    have h0 : m ≠ 0#2 := by rintro rfl; simp at hm
    have h1 : m ≠ 1#2 := by rintro rfl; simp at hm
    simp [encode, decode_command_wordBytes, decodeCommand_start, h0, h1, Except.map]

theorem decode_encode {c : Context} {i : Instr} (rest : List Byte) (h : wellFormed c i = true) :
    decode c (encode c.table i ++ rest) = .ok (i, rest) := by
  cases i with
  | ctrl b => obtain rfl : c = .control := of_decide_eq_true h; rfl
  | lit v => exact decode_lit h v rest
  | nib0 p | nib1 p | nib2 p | nib3 p | nib4 p | nib5 p | nib6 p | nib7 p | nib8 p => exact decode_nibByte h p rest
  | bref d x => exact decode_brefBytes h x rest
  | cmdDecode e | cmdEncode e =>
    obtain rfl : c = .command := of_decide_eq_true h
    exact decode_encode_command h _ rest
  | cmdReserved m e =>
    obtain rfl : c = .command := of_decide_eq_true (Bool.and_eq_true_iff.mp h).1
    exact decode_encode_command h _ rest

/-! ## The CTRL word (R11) -/

theorem ctrlWord_fields (w : Word) :
    ctrlWord (ctrlStart w) (ctrlMode w) (ctrlExpValid w) = w &&& 0x0000000F#32 := by
  apply BitVec.eq_of_getLsbD_eq
  intro i hi
  simp only [ctrlWord, ctrlStart, ctrlMode, ctrlExpValid, BitVec.getLsbD_append, BitVec.getLsbD_extractLsb',
    BitVec.getLsbD_and]
  interval_cases i <;> simp

theorem two_le_toNat_of_ne {m : BitVec 2} (h0 : m ≠ 0#2) (h1 : m ≠ 1#2) : 2 ≤ m.toNat := by
  revert m; decide

/-- What a CTRL write starts is a well-formed command, encoded as the word's bits 3:0. -/
theorem decodeCommand_ok {w : Word} {i : Instr} (h : decodeCommand w = .ok i) :
    wellFormed .command i = true ∧ ∀ ft, encode ft i = wordBytes (w &&& 0x0000000F#32) := by
  cases hs : ctrlStart w
  · rw [decodeCommand_noStart hs] at h; cases h
  · rw [decodeCommand_start hs] at h
    have hw := ctrlWord_fields w
    rw [hs] at hw
    split_ifs at h with h0 h1 <;> cases h
    · exact ⟨rfl, fun _ => by rw [← hw, h0]; rfl⟩
    · exact ⟨rfl, fun _ => by rw [← hw, h1]; rfl⟩
    · exact ⟨by simpa [wellFormed] using two_le_toNat_of_ne h0 h1, fun _ => by rw [← hw]; rfl⟩

end Sys2Proof

namespace Sys2Proof.Proofs

open Sys2Proof Sys2Proof.Machine

/-- Settles O2, kind by kind of instruction. -/
theorem decodeOfEncodeIsIdentity : Obligations.DecodeOfEncodeIsIdentity :=
  fun _ _ rest h => decode_encode rest h

/-- Settles O4. -/
theorem commandWordKeepsItsLowBits : Obligations.CommandWordKeepsItsLowBits := by
  intro w rest
  rw [decode_command_wordBytes]
  constructor
  · intro hs
    obtain ⟨hwf, hbytes⟩ := decodeCommand_ok (decodeCommand_start hs)
    exact ⟨_, by rw [decodeCommand_start hs]; rfl, hwf, hbytes tableF9⟩
  · intro hs
    rw [decodeCommand_noStart hs]; rfl
end Sys2Proof.Proofs


/-! # The engine's step: rules for a decoder operation, cases of an encoder step, effect on the registers -/

namespace Sys2Proof.Machine

/-! ## What a step leaves after the two ends of a command (R231, R232) -/

/-- The values the two ends of a command may write: no error and ERR_POS = 0, or an error of codes 1 to 7
without the warning. -/
def LegalEnd (warn : Bool) (err : BitVec 4) (errPos : Word) : Prop :=
  (err = errNone ∧ errPos = 0) ∨ (warn = false ∧ 1 ≤ err.toNat ∧ err.toNat ≤ 7)

theorem LegalEnd.finish (w : Bool) : LegalEnd w errNone 0 := .inl ⟨rfl, rfl⟩

theorem LegalEnd.raise {err : BitVec 4} (h : 1 ≤ err.toNat ∧ err.toNat ≤ 7) (p : Word) : LegalEnd false err p :=
  .inr ⟨rfl, h⟩

/-- The state a command's end leaves: STATUS and ERR_POS as one of the two ends writes them, the engine IDLE. -/
def State.EndsLegally (t : State) : Prop :=
  t.phase = .idle ∧ ∃ w err, LegalEnd w err t.errPos ∧ t.status = statusEnded w err

theorem State.endCommand_endsLegally (s : State) {w : Bool} {err : BitVec 4} {p : Word} (h : LegalEnd w err p)
    (o i : Word) : (s.endCommand w err p o i).EndsLegally :=
  ⟨rfl, w, err, h, rfl⟩

theorem State.EndsLegally.done {t : State} (h : t.EndsLegally) : t.done = true := by
  obtain ⟨-, w, err, -, hst⟩ := h
  simp [State.done, hst]

/-! ## Rules for the parts of a decoder operation -/

/-- `P` of the state an operation goes on with, `Q` of the state the command has ended in. -/
def Flow.Post (P Q : State → Prop) (x : Flow) : Prop :=
  match x with
  | .go t => P t
  | .ended t => Q t
  | .fault _ => True

theorem Flow.Post.andThen {P P' Q : State → Prop} {x : Flow} {f : State → Flow} (h : x.Post P Q)
    (hf : ∀ t, P t → (f t).Post P' Q) : (x.andThen f).Post P' Q := by
  cases x with
  | go t => exact hf t h
  | ended t => exact h
  | fault r => trivial

theorem Flow.Post.endOp {P Q : State → Prop} {x : Flow} {t : State} (h : x.Post P Q)
    (hn : ∀ u, P u → Q u.nextSlot) (ht : x.endOp = .next t) : Q t := by
  rcases Flow.endOp_next ht with ⟨u, rfl, rfl⟩ | rfl
  · exact hn u h
  · exact h

/-- The control byte is taken and its first slot is next (R173). -/
def State.openGroup (s : State) (c : Byte) : State :=
  { s.advance 1 with ctrlByte := c, slot := 0, phase := .decSlot }

theorem execCtrl_eq (c : Byte) (s : State) : execCtrl c s = .next (s.openGroup c) := rfl

/-- What a claim about the decoder has to show, one rule for each update that an operation makes: `I` holds
inside an operation, `Q` between two steps. -/
structure OperationRules (I Q : State → Prop) : Prop where
  markOp : ∀ {s}, I s → I s.markOp
  readOne : ∀ {s}, I s → s.ip ≠ s.il → I (s.advance 1)
  readTwo : ∀ {s}, I s → s.ip ≠ s.il → s.ip + 1 ≠ s.il → I (s.advance 2)
  putByte : ∀ {s} v, I s → s.expReached = false → s.olen.toNat ≠ s.cfg.outCap → I (s.putByte v)
  beginCopy : ∀ {s} o l, I s → I (s.beginCopy o l)
  countCopy : ∀ {s}, I s → I s.countCopy
  openGroup : ∀ {s} c, I s → s.ip ≠ s.il → Q (s.openGroup c)
  nextSlot : ∀ {s}, I s → Q s.nextSlot
  endCommand : ∀ {s w err p}, I s → LegalEnd w err p → Q (s.endCommand w err p s.olen s.ip)

section
variable {I Q : State → Prop} (h : OperationRules I Q)
include h

theorem OperationRules.append {s : State} (hI : I s) (v : Byte) : (append v s).Post I Q := by
  rcases append_cases v s with ⟨-, e⟩ | ⟨-, -, e⟩ | ⟨hx, hc, e⟩ <;> rw [e]
  · exact h.endCommand hI (.finish false)
  · exact h.endCommand hI (.raise (by decide) _)
  · exact h.putByte v hI hx hc

theorem OperationRules.appendPair {s : State} (hI : I s) (b : Byte × Byte) : (appendPair b s).Post I Q :=
  (h.append hI b.1).andThen fun _ ht => h.append ht b.2

theorem OperationRules.copyByte {s : State} (hI : I s) : (copyByte s).Post I Q := by
  rcases copyByte_cases s with ⟨-, e⟩ | ⟨v, -, e⟩ <;> rw [e]
  · trivial
  · exact (h.append hI v).andThen fun _ ht => h.countCopy ht

theorem OperationRules.copyBytes (k : Nat) {s : State} (hI : I s) : (copyBytes k s).Post I Q := by
  induction k generalizing s with
  | zero => exact hI
  | succ k ih => exact (h.copyByte hI).andThen fun _ ht => ih ht

theorem OperationRules.finishCopy {s t : State} (hI : I s) (ht : finishCopy s = .next t) : Q t :=
  (h.copyBytes _ hI).endOp (fun _ => h.nextSlot) ht

theorem OperationRules.truncatedBref {s t : State} (hI : I s) (hip : s.ip ≠ s.il)
    (ht : truncatedBref s = .next t) : Q t := by
  cases ht
  exact h.endCommand (h.readOne hI hip) (.raise (by decide) _)

theorem OperationRules.execLit {s t : State} (hI : I s) (hip : s.ip ≠ s.il) {v : Byte}
    (ht : execLit v s = .next t) : Q t :=
  (h.append (h.readOne hI hip) v).endOp (fun _ => h.nextSlot) ht

theorem OperationRules.nibOp {s t : State} (hI : I s) (hip : s.ip ≠ s.il) {k : Fin 9} {p : Nibble}
    (ht : nibOp k p s = .next t) : Q t :=
  (h.appendPair (h.readOne hI hip) _).endOp (fun _ => h.nextSlot) ht

theorem OperationRules.execBref {s t : State} (hI : I s) (hip : s.ip ≠ s.il) {d : Nibble} {x : BitVec 12}
    (ht : execBref d x s = .next t) : Q t := by
  simp only [Machine.execBref] at ht
  split_ifs at ht with h1 h2
  · exact h.truncatedBref hI hip ht
  · cases ht
    exact h.endCommand (h.readTwo hI hip h1) (.raise (by decide) _)
  · exact h.finishCopy (h.beginCopy _ _ (h.readTwo hI hip h1)) ht

end

/-! ## What the engine fetches (R62, R172) -/

/-- The operations of a slot: LIT, NIB0 to NIB8, BREF. -/
inductive SlotOperation : Instr → Prop where
  | lit (v : Byte) : SlotOperation (.lit v)
  | nib (k : Fin 9) (p : Nibble) : SlotOperation (nibInstr k p)
  | bref (d : Nibble) (x : BitVec 12) : SlotOperation (.bref d x)

theorem decodeSpecial_slotOperation {ft : FlagTable} {b : Byte} {rest rest' : List Byte} {i : Instr}
    (h : decodeSpecial ft b rest = .ok (i, rest')) : SlotOperation i := by
  unfold decodeSpecial at h
  split at h
  · cases h; exact .nib _ _
  · split at h
    · cases h
    · cases h; exact .bref _ _

theorem decode_slotOperation {l : Bool} {ft : FlagTable} {bytes rest : List Byte} {i : Instr}
    (h : decode (.slot l ft) bytes = .ok (i, rest)) : SlotOperation i := by
  match l, bytes with
  | true, [] | false, [] => cases h
  | true, b :: _ => cases h; exact .lit b
  | false, b :: _ => exact decodeSpecial_slotOperation h

theorem fetchedOf_instr {c : Context} {bytes : List Byte} {i : Instr} (h : fetchedOf c bytes = .instr i) :
    ∃ rest, decode c bytes = .ok (i, rest) := by
  unfold fetchedOf at h
  split at h
  · next e => cases h; exact ⟨_, e⟩
  · cases h

/-- An instruction that is fetched was decoded in its context. -/
theorem fetch_instr {c : Context} {s : State} {i : Instr} (h : fetch c s = .instr i) :
    ∃ bytes rest, decode c bytes = .ok (i, rest) := by
  unfold fetch at h
  split at h
  · cases h
  · split_ifs at h
    · exact ⟨_, fetchedOf_instr h⟩
    · split at h
      · cases h
      · exact ⟨_, fetchedOf_instr h⟩

/-- A control byte is fetched whole wherever it is written. -/
theorem fetch_control_cases (s : State) :
    (∃ f, fetch .control s = .fault f) ∨ ∃ b, fetch .control s = .instr (.ctrl b) := by
  unfold fetch
  split
  · exact .inl ⟨_, rfl⟩
  · next b _ => exact .inr ⟨b, rfl⟩

theorem exec_nibInstr (k : Fin 9) (p : Nibble) (s : State) : exec (nibInstr k p) s = nibOp k p s := by
  match k with
  | 0 | 1 | 2 | 3 | 4 | 5 | 6 | 7 | 8 => rfl

/-! ## The phases of the engine (R27) -/

/-- The step of a phase. -/
def phaseStep (p : Phase) : State → Result :=
  match p with
  | .idle => .next
  | .decCtrl => decodeControl
  | .decSlot => decodeSlot
  | .decCopy => finishCopy
  | .encParse => encParse
  | .encCheck => encCheck
  | .encEmit => encEmit

theorem engineStep_eq {s : State} {p : Phase} (h : s.phase = p) : engineStep s = phaseStep p s := by
  unfold engineStep
  cases p <;> rw [h] <;> rfl

theorem engineStep_idle {s : State} (h : s.phase = .idle) : engineStep s = .next s := engineStep_eq h

theorem State.inDecode_phase {s : State} (h : s.inDecode = true) :
    s.phase = .decCtrl ∨ s.phase = .decSlot ∨ s.phase = .decCopy := by
  unfold State.inDecode at h
  split at h <;> simp_all

theorem State.inEncode_phase {s : State} (h : s.inEncode = true) :
    s.phase = .encParse ∨ s.phase = .encCheck ∨ s.phase = .encEmit := by
  unfold State.inEncode at h
  split at h <;> simp_all

/-- The engine is IDLE or runs one of the two commands. -/
theorem State.phase_cases (s : State) : s.phase = .idle ∨ s.inDecode = true ∨ s.inEncode = true := by
  unfold State.inDecode State.inEncode
  cases s.phase <;> simp

/-! ## The decoder's step by the rules (R172) -/

/-- Past the stop tests there is a byte to read and the expected length is not reached. -/
theorem State.stopTest_none {s : State} (h : s.stopTest = none) : s.expReached = false ∧ s.ip ≠ s.il := by
  unfold State.stopTest at h
  split_ifs at h with h1 h2
  exact ⟨by simpa using h1, by simpa [State.inputDone] using h2⟩

section
variable {I Q : State → Prop} (h : OperationRules I Q)
include h

theorem OperationRules.slotOperation {s t : State} (hI : I s) (hip : s.ip ≠ s.il) {i : Instr}
    (hi : SlotOperation i) (ht : exec i s = .next t) : Q t := by
  cases hi with
  | lit v => exact h.execLit hI hip ht
  | nib k p => rw [exec_nibInstr] at ht; exact h.nibOp hI hip ht
  | bref d x => exact h.execBref hI hip ht

theorem OperationRules.decodeControl {s t : State} (hI : I s) (ht : decodeControl s = .next t) : Q t := by
  unfold Machine.decodeControl at ht
  split at ht
  · cases ht; exact h.endCommand hI (.finish _)
  · next hstop =>
    obtain ⟨-, hip⟩ := State.stopTest_none hstop
    rcases fetch_control_cases s with ⟨f, e⟩ | ⟨b, e⟩ <;> rw [e] at ht <;> cases ht
    exact h.openGroup b hI hip

theorem OperationRules.decodeSlot {s t : State} (hI : I s) (ht : decodeSlot s = .next t) : Q t := by
  unfold Machine.decodeSlot at ht
  split at ht
  · cases ht; exact h.endCommand hI (.finish _)
  · next hstop =>
    obtain ⟨-, hip⟩ := State.stopTest_none hstop
    cases e : fetch s.slotContext s <;> rw [e] at ht
    case instr i =>
      obtain ⟨bytes, rest, hdec⟩ := fetch_instr e
      exact h.slotOperation (h.markOp hI) hip (decode_slotOperation hdec) ht
    case truncated => exact h.truncatedBref (h.markOp hI) hip ht
    case fault f => cases ht

/-- A step of a DECODE in progress, by the rules. -/
theorem OperationRules.decodeStep {s t : State} (hI : I s) (hd : s.inDecode = true)
    (ht : engineStep s = .next t) : Q t := by
  rcases State.inDecode_phase hd with hp | hp | hp <;> rw [engineStep_eq hp] at ht
  · exact h.decodeControl hI ht
  · exact h.decodeSlot hI ht
  · exact h.finishCopy hI ht

end

/-! ## The encoder's step (R142 to R156) -/

theorem encParse_next {s t : State} (h : encParse s = .next t) :
    ∃ D, s.inputBytes = .ok D ∧ t = parseStep D s := by
  unfold encParse at h
  split at h
  · cases h
  · next D e => cases h; exact ⟨D, e, rfl⟩

/-- Everything ENC_CHECK can do: raise an error, LSET kept or (under ANY_VALID) drawn; go on to ENC_EMIT
where the stream fits; or publish a free result that fits. -/
inductive EncCheckCase (s : State) : State → Prop where
  | rejects (l : Word) (hl : l = s.lset ∨ ∃ x : BitVec 16, l = x.setWidth 32) (err : BitVec 4)
      (herr : 1 ≤ err.toNat ∧ err.toNat ≤ 7) : EncCheckCase s ({ s with lset := l }.raiseEncode err)
  | emits (hmax : streamSize s.opbuf ≤ Config.maxCompressed) (hcap : streamSize s.opbuf ≤ s.cfg.outCap) :
      EncCheckCase s { s with olen := 0, phase := .encEmit }
  | publishes (x : BitVec 16) (cf : Nine Nibble) (bytes : List Byte) (hcap : bytes.length ≤ s.cfg.outCap) :
      EncCheckCase s ({ s with lset := x.setWidth 32 }.publishStream cf bytes)

theorem encCheckReference_case (s : State) : EncCheckCase s (encCheckReference s) := by
  simp only [encCheckReference]
  split_ifs with h1 h2
  · exact .rejects s.lset (.inl rfl) _ (by decide)
  · exact .rejects s.lset (.inl rfl) _ (by decide)
  · exact .emits (Nat.not_lt.mp h1) (Nat.not_lt.mp h2)

theorem encCheckAnyValid_case (D : List Byte) (s : State) : EncCheckCase s (encCheckAnyValid D s) := by
  simp only [encCheckAnyValid]
  split
  · exact .rejects _ (.inr ⟨_, rfl⟩) _ (by decide)
  · next cf bytes _ =>
    split_ifs with h1 h2
    · exact .rejects _ (.inr ⟨_, rfl⟩) _ (by decide)
    · exact .publishes _ cf bytes (Nat.not_lt.mp h2)
    · exact .rejects _ (.inr ⟨_, rfl⟩) _ (by decide)

theorem encCheck_case {s t : State} (h : encCheck s = .next t) : EncCheckCase s t := by
  unfold encCheck at h
  split at h
  · cases h; exact encCheckReference_case s
  · split at h
    · cases h
    · cases h; exact encCheckAnyValid_case _ s

/-- Emission touches OUT, `olen` and OUT_LEN alone. -/
theorem emitBytes_frame (vs : List Byte) (s : State) :
    emitBytes vs s = { s with
      outBuf := (emitBytes vs s).outBuf, olen := (emitBytes vs s).olen, outLen := (emitBytes vs s).outLen } := by
  induction vs generalizing s with
  | nil => rfl
  | cons v rest ih => exact ih (s.putByte v)

/-- What a successful ENCODE leaves, apart from OUT, `olen`, OUT_LEN and FLAGS0 and FLAGS1. -/
theorem publish_emitBytes_frame (vs : List Byte) (s : State) (cf : Nine Nibble) (k : Nat) :
    ((emitBytes vs s).publish cf k).EndsLegally ∧ ((emitBytes vs s).publish cf k).cfg = s.cfg ∧
      ((emitBytes vs s).publish cf k).ctrl = s.ctrl ∧
      ((emitBytes vs s).publish cf k).lset = s.lset ∧ ((emitBytes vs s).publish cf k).inBuf = s.inBuf ∧
      ((emitBytes vs s).publish cf k).flags2 = packFlags2 (flagTableOfNibbles cf) := by
  rw [emitBytes_frame]
  exact ⟨State.endCommand_endsLegally _ (.finish false) _ _, rfl, rfl, rfl, rfl, rfl⟩

/-! ## What an engine step does to the registers that the invariant names -/

/-- CTRL is kept; LSET and FLAGS2 are kept or get a value of their width; STATUS and ERR_POS are kept while
the command goes on, and written by one of its two ends (R11, R12, R18, R19, R231, R232). -/
structure RegisterEffect (s t : State) : Prop where
  ctrl : t.ctrl = s.ctrl
  lset : t.lset = s.lset ∨ ∃ x : BitVec 16, t.lset = x.setWidth 32
  flags2 : t.flags2 = s.flags2 ∨ ∃ b : Byte, t.flags2 = b.setWidth 32
  status : (t.status = s.status ∧ t.errPos = s.errPos ∧ t.phase ≠ .idle) ∨ t.EndsLegally

/-- The registers of the invariant are as they were. -/
structure SameRegisters (s t : State) : Prop where
  ctrl : t.ctrl = s.ctrl
  lset : t.lset = s.lset
  flags2 : t.flags2 = s.flags2
  status : t.status = s.status
  errPos : t.errPos = s.errPos

theorem sameRegisters_operationRules (s : State) : OperationRules (SameRegisters s) (RegisterEffect s) where
  markOp h := ⟨h.ctrl, h.lset, h.flags2, h.status, h.errPos⟩
  readOne h _ := ⟨h.ctrl, h.lset, h.flags2, h.status, h.errPos⟩
  readTwo h _ _ := ⟨h.ctrl, h.lset, h.flags2, h.status, h.errPos⟩
  putByte _ h _ _ := ⟨h.ctrl, h.lset, h.flags2, h.status, h.errPos⟩
  beginCopy _ _ h := ⟨h.ctrl, h.lset, h.flags2, h.status, h.errPos⟩
  countCopy h := ⟨h.ctrl, h.lset, h.flags2, h.status, h.errPos⟩
  openGroup _ h _ := ⟨h.ctrl, .inl h.lset, .inl h.flags2, .inl ⟨h.status, h.errPos, nofun⟩⟩
  nextSlot h := ⟨h.ctrl, .inl h.lset, .inl h.flags2, .inl ⟨h.status, h.errPos, by
    rw [State.nextSlot_phase]; split_ifs <;> nofun⟩⟩
  endCommand h hend := ⟨h.ctrl, .inl h.lset, .inl h.flags2, .inr (State.endCommand_endsLegally _ hend _ _)⟩

theorem parseStep_registerEffect (D : List Byte) {s : State} (hp : s.phase = .encParse) :
    RegisterEffect s (parseStep D s) := by
  simp only [parseStep]
  split_ifs
  · exact ⟨rfl, .inl rfl, .inl rfl, .inl ⟨rfl, rfl, by simp [hp]⟩⟩
  · exact ⟨rfl, .inr ⟨s.ls, rfl⟩, .inl rfl, .inl ⟨rfl, rfl, nofun⟩⟩

theorem EncCheckCase.registerEffect {s t : State} (h : EncCheckCase s t) : RegisterEffect s t := by
  cases h with
  | rejects l hl err herr =>
    exact ⟨rfl, hl, .inl rfl, .inr (State.endCommand_endsLegally _ (.raise herr _) _ _)⟩
  | emits => exact ⟨rfl, .inl rfl, .inl rfl, .inl ⟨rfl, rfl, nofun⟩⟩
  | publishes x cf bytes =>
    obtain ⟨hend, -, hctrl, hlset, -, hflags2⟩ := publish_emitBytes_frame bytes
      { s with lset := x.setWidth 32, olen := 0, cf := cf } cf bytes.length
    exact ⟨hctrl, .inr ⟨x, hlset⟩, .inr ⟨_, hflags2⟩, .inr hend⟩

theorem encEmit_registerEffect {s t : State} (h : encEmit s = .next t) : RegisterEffect s t := by
  cases h
  obtain ⟨hend, -, hctrl, hlset, -, hflags2⟩ := publish_emitBytes_frame
    (emitStream (flagTableOfNibbles s.cf) s.opbuf) s s.cf (emitStream (flagTableOfNibbles s.cf) s.opbuf).length
  exact ⟨hctrl, .inl hlset, .inr ⟨_, hflags2⟩, .inr hend⟩

/-- An engine step of a command in progress. -/
theorem engineStep_registerEffect {s t : State} (hp : s.phase ≠ .idle) (h : engineStep s = .next t) :
    RegisterEffect s t := by
  rcases s.phase_cases with hi | hd | he
  · exact absurd hi hp
  · exact (sameRegisters_operationRules s).decodeStep ⟨rfl, rfl, rfl, rfl, rfl⟩ hd h
  · rcases State.inEncode_phase he with e | e | e <;> rw [engineStep_eq e] at h
    · obtain ⟨D, -, rfl⟩ := encParse_next h
      exact parseStep_registerEffect D e
    · exact (encCheck_case h).registerEffect
    · exact encEmit_registerEffect h

end Sys2Proof.Machine


/-! # The step of the system by cases, and the register invariant (10_state.md) -/

namespace Sys2Proof.Machine

/-! ## The start checks and the commands (R230) -/

theorem startCheck_some {s : State} {err : BitVec 4} (h : startCheck s = some err) :
    1 ≤ err.toNat ∧ err.toNat ≤ 7 := by
  unfold startCheck at h
  split_ifs at h <;> cases h <;> decide

theorem startCheck_none_inCap {s : State} (h : startCheck s = none) : s.il.toNat ≤ s.cfg.inCap := by
  by_contra hlt
  rw [startCheck_input (Nat.not_le.mp hlt)] at h
  cases h

/-- Everything a command can do: nothing while BUSY; else latch its inputs and end with an error found at
START, or begin a DECODE or an ENCODE of an input inside IN. -/
inductive CommandCase (s : State) (i : Instr) : State → Prop where
  | ignored (hb : s.busy = true) : CommandCase s i s
  | rejects (hb : s.busy = false) (m : BitVec 2) (e : Bool) (err : BitVec 4)
      (herr : 1 ≤ err.toNat ∧ err.toNat ≤ 7) : CommandCase s i ((s.latch m e).raiseStart err)
  | decodes (hb : s.busy = false) (e : Bool) (hi : i = .cmdDecode e) (hin : s.inLen.toNat ≤ s.cfg.inCap) :
      CommandCase s i (s.latch 0 e).beginDecode
  | encodes (hb : s.busy = false) (e : Bool) (hi : i = .cmdEncode e) (hin : s.inLen.toNat ≤ s.cfg.inCap) :
      CommandCase s i (s.latch 1 e).beginEncode

theorem execCmdDecode_case {e : Bool} {s t : State} (h : execCmdDecode e s = .next t) :
    CommandCase s (.cmdDecode e) t := by
  unfold execCmdDecode at h
  split at h
  · next hb => cases h; exact .ignored hb
  · next hb =>
    rw [Bool.not_eq_true] at hb
    cases hc : startCheck (s.latch 0#2 e) <;> simp only [hc] at h <;> cases h
    · exact .decodes hb e rfl (startCheck_none_inCap hc)
    · exact .rejects hb _ _ _ (startCheck_some hc)

theorem execCmdEncode_case {e : Bool} {s t : State} (h : execCmdEncode e s = .next t) :
    CommandCase s (.cmdEncode e) t := by
  unfold execCmdEncode at h
  split at h
  · next hb => cases h; exact .ignored hb
  · next hb =>
    rw [Bool.not_eq_true] at hb
    cases hc : startCheck (s.latch 1#2 e) <;> simp only [hc] at h <;> cases h
    · exact .encodes hb e rfl (startCheck_none_inCap hc)
    · exact .rejects hb _ _ _ (startCheck_some hc)

theorem execCmdReserved_case {m : BitVec 2} {e : Bool} {s t : State} (h : execCmdReserved m e s = .next t) :
    CommandCase s (.cmdReserved m e) t := by
  unfold execCmdReserved at h
  split at h
  · next hb => cases h; exact .ignored hb
  · next hb => cases h; exact .rejects (Bool.not_eq_true _ ▸ hb) _ _ _ (by decide)

theorem exec_commandCase {i : Instr} {s t : State} (hi : wellFormed .command i = true) (h : exec i s = .next t) :
    CommandCase s i t := by
  cases i with
  | cmdDecode e => exact execCmdDecode_case h
  | cmdEncode e => exact execCmdEncode_case h
  | cmdReserved m e => exact execCmdReserved_case h
  | _ => cases hi

theorem exec_command_busy {i : Instr} {s : State} (hi : wellFormed .command i = true) (hb : s.busy = true) :
    exec i s = .next s := by
  cases i with
  | cmdDecode e | cmdEncode e | cmdReserved m e => exact if_pos hb
  | _ => cases hi

/-! CFG_LATCHED (R261) is about what START latched, which neither end nor beginning of a command changes. -/

theorem State.CfgLatched.endCommand {s : State} (h : s.CfgLatched) (w : Bool) (err : BitVec 4) (p o i : Word) :
    (s.endCommand w err p o i).CfgLatched := ⟨h.mode, h.expValid, h.expLen, h.inLen, h.flags⟩

theorem State.CfgLatched.beginDecode {s : State} (h : s.CfgLatched) : s.beginDecode.CfgLatched :=
  ⟨h.mode, h.expValid, h.expLen, h.inLen, h.flags⟩

theorem State.CfgLatched.beginEncode {s : State} (h : s.CfgLatched) : s.beginEncode.CfgLatched :=
  ⟨h.mode, h.expValid, h.expLen, h.inLen, h.flags⟩

theorem startedState_eq_latch (m : BitVec 2) (e : Bool) (s : State) : startedState m e s = s.latch m e := by
  have hctrl : ∀ (m : BitVec 2) (e : Bool),
      ((if e then 8#32 else 0#32) ||| (m.setWidth 32 <<< 1)) = ctrlWord false m e := by decide
  unfold startedState
  rw [hctrl]
  rfl

/-! ## Reads change the host's fields alone (R46) -/

theorem regRead_next {offset width : Nat} {s t : State} (h : regRead offset width s = .next t) :
    ∃ r k, t = { s with readData := r, draws := k } := by
  unfold regRead at h
  split_ifs at h <;> cases h
  · exact ⟨_, _, rfl⟩
  · exact ⟨_, s.draws, rfl⟩

theorem inRead_next {a : Nat} {s t : State} (h : inRead a s = .next t) :
    ∃ r k, t = { s with readData := r, draws := k } := by
  unfold inRead at h
  split_ifs at h
  cases h
  exact ⟨_, _, rfl⟩

theorem outRead_next {a : Nat} {s t : State} (h : outRead a s = .next t) :
    ∃ r k, t = { s with readData := r, draws := k } := by
  unfold outRead at h
  split_ifs at h <;> cases h
  · exact ⟨_, _, rfl⟩
  · exact ⟨_, _, rfl⟩

theorem regWrite_next_busy {offset width : Nat} {v : Word} {s t : State} (hb : s.busy = true)
    (h : regWrite offset width v s = .next t) : t = s := by
  unfold regWrite at h
  split_ifs at h
  cases h
  rfl

/-! ## Progress registers read while BUSY (R25) -/

theorem drawUpTo_le (bound : Word) (k : Nat) : (drawUpTo bound k).toNat ≤ bound.toNat := by
  have hlt : (Config.freeWord k).toNat % (bound.toNat + 1) < bound.toNat + 1 := Nat.mod_lt _ (Nat.succ_pos _)
  rw [drawUpTo, BitVec.toNat_ofNat]
  exact (Nat.mod_le _ _).trans (Nat.le_of_lt_succ hlt)

theorem drawProgress_le {s u : State} (h : runEngine s.stepBound s = .next u) (reg : State → Word) :
    (s.drawProgress reg).toNat ≤ (reg u).toNat := by
  have hfinal : s.final = some u := by rw [State.final, h]
  rw [State.drawProgress, hfinal]
  exact drawUpTo_le _ _

/-! ## Everything a step can do -/

/-- The engine's own step; a host move that changes the host's fields alone (a read, an ignored write, a
poll that ends); a START; a register write while IDLE; a buffer write while IDLE; a reset. -/
inductive StepCase (s : State) : State → Prop where
  | engine {t : State} (ms : List Move) (ht : engineStep { s with schedule := ms } = .next t) : StepCase s t
  | host (ms : List Move) (r : Option Word) (k : Nat) :
      StepCase s { s with schedule := ms, readData := r, draws := k }
  | command {t : State} (rest : List Move) (w : Word) (i : Instr) (hs : s.schedule = .regWrite 0 4 w :: rest)
      (hb : s.busy = false) (hi : decodeCommand w = .ok i) (ht : exec i { s with schedule := rest } = .next t) :
      StepCase s t
  | register (hb : s.busy = false) (rest : List Move) (c inLen expLen f0 f1 f2 : Word)
      (hc : c = s.ctrl ∨ ∃ m e, c = ctrlWord false m e) (hf : f2 = s.flags2 ∨ ∃ v, f2 = v &&& 0x000000FF#32) :
      StepCase s { s with
        schedule := rest, ctrl := c, inLen := inLen, expLen := expLen, flags0 := f0, flags1 := f1, flags2 := f2 }
  | inByte (hb : s.busy = false) (rest : List Move) (a : Nat) (v : Byte) (ha : a < s.cfg.inCap) :
      StepCase s { s with schedule := rest, inBuf := Memory.write s.inBuf a v }
  | outByte (hb : s.busy = false) (rest : List Move) (a : Nat) (v : Byte) (ha : a < s.cfg.outCap) :
      StepCase s { s with schedule := rest, outBuf := Memory.write s.outBuf a v }
  | reset (rest : List Move) (hs : s.schedule = .reset :: rest) :
      StepCase s (State.afterReset { s with schedule := rest })

theorem badAccess_eq_false {offset width : Nat} (h : badAccess offset width = false) :
    width = 4 ∧ offset % 4 = 0 := by
  simpa [badAccess] using h

/-- A write of a register other than CTRL. -/
theorem writeReg_case {s : State} (hb : s.busy = false) (offset : Nat) (v : Word) (rest : List Move) :
    StepCase s (State.writeReg { s with schedule := rest } offset v) := by
  unfold State.writeReg
  split
  · exact .register hb rest s.ctrl v s.expLen s.flags0 s.flags1 s.flags2 (.inl rfl) (.inl rfl)
  · exact .register hb rest s.ctrl s.inLen v s.flags0 s.flags1 s.flags2 (.inl rfl) (.inl rfl)
  · exact .register hb rest s.ctrl s.inLen s.expLen v s.flags1 s.flags2 (.inl rfl) (.inl rfl)
  · exact .register hb rest s.ctrl s.inLen s.expLen s.flags0 v s.flags2 (.inl rfl) (.inl rfl)
  · exact .register hb rest s.ctrl s.inLen s.expLen s.flags0 s.flags1 _ (.inl rfl) (.inr ⟨v, rfl⟩)
  · exact .host rest s.readData s.draws

theorem regWrite_case {offset width : Nat} {v : Word} {s t : State} {rest : List Move}
    (hs : s.schedule = .regWrite offset width v :: rest)
    (h : regWrite offset width v { s with schedule := rest } = .next t) : StepCase s t := by
  unfold regWrite at h
  split_ifs at h with hbad hoff hb h0
  · cases h; exact .host rest s.readData s.draws
  · obtain ⟨rfl, -⟩ := badAccess_eq_false (Bool.not_eq_true _ ▸ hbad)
    subst h0
    have hb : s.busy = false := Bool.not_eq_true _ ▸ hb
    unfold writeCtrlReg at h
    split at h
    · next i hi => exact .command rest v i hs hb hi h
    · cases h
      exact .register hb rest _ s.inLen s.expLen s.flags0 s.flags1 s.flags2 (.inr ⟨_, _, rfl⟩) (.inl rfl)
  · cases h; exact writeReg_case (Bool.not_eq_true _ ▸ hb) offset v rest

theorem inWrite_case {a : Nat} {v : Byte} {s t : State} {rest : List Move}
    (h : inWrite a v { s with schedule := rest } = .next t) : StepCase s t := by
  unfold inWrite at h
  split_ifs at h with hb ha
  cases h
  exact .inByte (Bool.not_eq_true _ ▸ hb) rest a v (Nat.not_le.mp ha)

theorem outWrite_case {a : Nat} {v : Byte} {s t : State} {rest : List Move}
    (h : outWrite a v { s with schedule := rest } = .next t) : StepCase s t := by
  unfold outWrite at h
  split_ifs at h with hb ha
  cases h
  exact .outByte (Bool.not_eq_true _ ▸ hb) rest a v (Nat.not_le.mp ha)

theorem step_case {s t : State} (h : step s = .next t) : StepCase s t := by
  rcases hs : s.schedule with _ | ⟨m, rest⟩
  · rw [step_engine hs] at h; exact .engine s.schedule h
  rw [step_hostTurn hs] at h
  cases m with
  | regWrite offset width v => exact regWrite_case hs h
  | regRead offset width => obtain ⟨r, k, rfl⟩ := regRead_next h; exact .host rest r k
  | inWrite a v => exact inWrite_case h
  | inRead a => obtain ⟨r, k, rfl⟩ := inRead_next h; exact .host rest r k
  | outWrite a v => exact outWrite_case h
  | outRead a => obtain ⟨r, k, rfl⟩ := outRead_next h; exact .host rest r k
  | reset => cases h; exact .reset rest hs
  | engineTurn => exact .engine rest h
  | waitIdle =>
    simp only [hostTurn] at h
    split at h
    · exact .engine s.schedule h
    · cases h; exact .host rest s.readData s.draws
  | waitDone =>
    simp only [hostTurn] at h
    split at h
    · cases h; exact .host rest s.readData s.draws
    · exact .engine s.schedule h

/-- An engine step that changes STATUS ends the command (R28). -/
theorem engineStep_status_ne {s t : State} (h : engineStep s = .next t) (hne : t.status ≠ s.status) :
    s.phase ≠ .idle ∧ t.phase = .idle ∧ t.done = true := by
  by_cases hp : s.phase = .idle
  · rw [engineStep_idle hp] at h; cases h; exact absurd rfl hne
  · rcases (engineStep_registerEffect hp h).status with ⟨hst, -, -⟩ | hend
    · exact absurd hst hne
    · exact ⟨hp, hend.1, hend.done⟩

/-! ## Accesses of REG, by cases (R24, R25, R45) -/

theorem badAccess_aligned {offset : Nat} (h : offset % 4 = 0) : badAccess offset 4 = false := by
  simp [badAccess, h]

section
variable {offset : Nat} (ho : offset % 4 = 0) (hlt : offset < 64) {s : State}
include ho hlt

theorem regRead_idle (hb : s.busy = false) : regRead offset 4 s = .next (s.deliver (s.regValue offset)) := by
  simp [regRead, badAccess_aligned ho, Nat.not_le.mpr hlt, hb]

theorem regRead_busy (hb : s.busy = true) : regRead offset 4 s = .next (s.deliverDraw (s.busyValue offset)) := by
  simp [regRead, badAccess_aligned ho, Nat.not_le.mpr hlt, hb]

theorem regWrite_busy (hb : s.busy = true) (v : Word) : regWrite offset 4 v s = .next s := by
  simp [regWrite, badAccess_aligned ho, Nat.not_le.mpr hlt, hb]

theorem regWrite_idle (hb : s.busy = false) (h0 : offset ≠ 0) (v : Word) :
    regWrite offset 4 v s = .next (s.writeReg offset v) := by
  simp [regWrite, badAccess_aligned ho, Nat.not_le.mpr hlt, hb, h0]

end

theorem regWrite_ctrl_idle {s : State} (hb : s.busy = false) (v : Word) : regWrite 0 4 v s = writeCtrlReg v s := by
  simp [regWrite, badAccess, hb]

/-- A write of CTRL that decodes to a command is exec of it, in either case of BUSY: while BUSY the command
does nothing. -/
theorem regWrite_command {w : Word} {i : Instr} (hi : decodeCommand w = .ok i) (s : State) :
    regWrite 0 4 w s = exec i s := by
  cases hb : s.busy
  · rw [regWrite_ctrl_idle hb, writeCtrlReg, hi]
  · rw [regWrite_busy rfl (by decide) hb, exec_command_busy (decodeCommand_ok hi).1 hb]

/-- A write of CTRL with START = 0 keeps the written bits 3:1 (R11). -/
theorem writeCtrlReg_noStart {v : Word} (h : ctrlStart v = false) (s : State) :
    writeCtrlReg v s = .next { s with ctrl := v &&& 0x0000000E#32 } := by
  have hv := ctrlWord_fields v
  rw [h] at hv
  have hmask : v &&& 0x0000000F#32 = v &&& 0x0000000E#32 := by
    apply BitVec.eq_of_getLsbD_eq
    intro i hi
    rw [BitVec.getLsbD_and, BitVec.getLsbD_and]
    interval_cases i
    · rw [show v.getLsbD 0 = false from h]; rfl
    all_goals rfl
  rw [writeCtrlReg, decodeCommand_noStart h]
  show Host.Outcome.next (s.writeCtrl _ _) = _
  rw [State.writeCtrl, hv, hmask]

theorem State.regValue_eq (s : State) (offset : Nat) : s.regValue offset =
    if offset = 0x00 then s.ctrl else if offset = 0x04 then s.status else if offset = 0x08 then s.inLen
    else if offset = 0x0C then s.expLen else if offset = 0x10 then s.outLen
    else if offset = 0x14 then s.inPos else if offset = 0x18 then s.errPos
    else if offset = 0x1C then s.lset else if offset = 0x20 then s.flags0
    else if offset = 0x24 then s.flags1 else if offset = 0x28 then s.flags2 else 0 := by
  unfold State.regValue
  split <;> simp_all

theorem State.writeReg_eq (s : State) (offset : Nat) (v : Word) : s.writeReg offset v = { s with
    inLen := if offset = 0x08 then v else s.inLen
    expLen := if offset = 0x0C then v else s.expLen
    flags0 := if offset = 0x20 then v else s.flags0
    flags1 := if offset = 0x24 then v else s.flags1
    flags2 := if offset = 0x28 then v &&& 0x000000FF#32 else s.flags2 } := by
  unfold State.writeReg
  split <;> simp_all

/-- While BUSY a move that neither writes a buffer nor resets is the engine's own step, or changes the host's
fields alone. -/
theorem step_busy_untouched {s : State} (hb : s.busy = true) (hnt : s.touchesBuffer = false)
    (hnr : s.resetsCommand = false) :
    (∃ ms : List Move, step s = engineStep { s with schedule := ms }) ∨
      ∀ t : State, step s = .next t →
        t = { s with schedule := t.schedule, readData := t.readData, draws := t.draws } := by
  rcases hs : s.schedule with _ | ⟨m, rest⟩
  · exact .inl ⟨s.schedule, step_engine hs⟩
  have hb' : State.busy { s with schedule := rest } = true := hb
  rw [step_hostTurn hs]
  cases m with
  | engineTurn => exact .inl ⟨rest, rfl⟩
  | waitIdle => exact .inl ⟨s.schedule, if_pos hb⟩
  | waitDone => exact .inl ⟨s.schedule, if_neg (by simp [State.ended, State.busy] at hb ⊢; simp [hb])⟩
  | regWrite => exact .inr fun t ht => by rw [regWrite_next_busy hb' ht]
  | regRead => exact .inr fun t ht => by obtain ⟨r, k, rfl⟩ := regRead_next ht; rfl
  | inRead => exact .inr fun t ht => by obtain ⟨r, k, rfl⟩ := inRead_next ht; rfl
  | outRead => exact .inr fun t ht => by obtain ⟨r, k, rfl⟩ := outRead_next ht; rfl
  | inWrite | outWrite => simp [State.touchesBuffer, hb, hs, Move.writesBuffer] at hnt
  | reset => simp [State.resetsCommand, hb, hs, Move.resets] at hnr

/-! ## Every step keeps the registers legal (R11, R12, R17 to R19, R27) -/

theorem ctrlWord_reserved (m : BitVec 2) (e : Bool) : ctrlWord false m e &&& 0xFFFFFFF1#32 = 0 := by
  revert m e; decide

theorem setWidth16_reserved (x : BitVec 16) : x.setWidth 32 &&& 0xFFFF0000#32 = 0 := by
  apply BitVec.eq_of_getLsbD_eq
  intro i hi
  by_cases h : i < 16
  · interval_cases i <;> simp
  · simp [BitVec.getLsbD_of_ge x i (by omega)]

theorem setWidth8_reserved (b : Byte) : b.setWidth 32 &&& 0xFFFFFF00#32 = 0 := by
  revert b; decide

theorem low8_reserved (v : Word) : (v &&& 0x000000FF#32) &&& 0xFFFFFF00#32 = 0 := by
  rw [BitVec.and_assoc]; simp

theorem low16_reserved (v : Word) : (v &&& 0x0000FFFF#32) &&& 0xFFFF0000#32 = 0 := by
  rw [BitVec.and_assoc]; simp

theorem State.EndsLegally.statusLegal {t : State} (h : t.EndsLegally) : statusLegal t.status := by
  obtain ⟨-, w, err, hend, hst⟩ := h
  rw [hst]
  rcases hend with ⟨rfl, -⟩ | ⟨rfl, h1, h7⟩
  · cases w
    · exact .inr (.inr (.inl rfl))
    · exact .inr (.inr (.inr (.inl rfl)))
  · exact .inr (.inr (.inr (.inr ⟨err, h1, h7, rfl⟩)))

theorem State.EndsLegally.errPos_zero {t : State} (h : t.EndsLegally) (he : statusErr t.status = errNone) :
    t.errPos = 0 := by
  obtain ⟨-, w, err, hend, hst⟩ := h
  rw [hst, statusErr_ended] at he
  rcases hend with ⟨-, hp⟩ | ⟨-, h1, -⟩
  · exact hp
  · rw [he] at h1; exact absurd h1 (by decide)

theorem State.EndsLegally.busy_iff {t : State} (h : t.EndsLegally) : t.busy = true ↔ t.phase ≠ .idle := by
  obtain ⟨hp, w, err, -, hst⟩ := h
  simp [State.busy, hst, hp]

/-- The invariant at the end of a command: what is left to show is that the reserved fields read 0. -/
theorem State.EndsLegally.registersLegal {t : State} (h : t.EndsLegally) (hc : t.ctrl &&& 0xFFFFFFF1#32 = 0)
    (hl : t.lset &&& 0xFFFF0000#32 = 0) (hf : t.flags2 &&& 0xFFFFFF00#32 = 0) : t.RegistersLegal :=
  ⟨hc, h.statusLegal, h.busy_iff, h.errPos_zero, hl, hf⟩

theorem RegisterEffect.registersLegal {s t : State} (h : RegisterEffect s t) (hp : s.phase ≠ .idle)
    (hs : s.RegistersLegal) : t.RegistersLegal := by
  have hc : t.ctrl &&& 0xFFFFFFF1#32 = 0 := h.ctrl ▸ hs.ctrl_reserved
  have hl : t.lset &&& 0xFFFF0000#32 = 0 := by
    rcases h.lset with e | ⟨x, e⟩ <;> rw [e]
    · exact hs.lset_reserved
    · exact setWidth16_reserved x
  have hf : t.flags2 &&& 0xFFFFFF00#32 = 0 := by
    rcases h.flags2 with e | ⟨b, e⟩ <;> rw [e]
    · exact hs.flags2_reserved
    · exact setWidth8_reserved b
  rcases h.status with ⟨hst, hep, htp⟩ | hend
  · have hb : t.busy = true := by rw [State.busy, hst]; exact hs.busy_iff.mpr hp
    exact ⟨hc, hst ▸ hs.status_legal, iff_of_true hb htp, by rw [hst, hep]; exact hs.errPos_zero, hl, hf⟩
  · exact hend.registersLegal hc hl hf

theorem CommandCase.registersLegal {s t : State} {i : Instr} (h : CommandCase s i t) (hs : s.RegistersLegal) :
    t.RegistersLegal := by
  cases h with
  | ignored => exact hs
  | rejects _ m e err herr =>
    exact (State.endCommand_endsLegally _ (.raise herr 0) 0 0).registersLegal (ctrlWord_reserved m e)
      hs.lset_reserved hs.flags2_reserved
  | decodes _ e =>
    exact ⟨ctrlWord_reserved 0 e, .inr (.inl rfl), iff_of_true statusBusy_started nofun, fun _ => rfl, hs.lset_reserved,
      hs.flags2_reserved⟩
  | encodes _ e =>
    exact ⟨ctrlWord_reserved 1 e, .inr (.inl rfl), iff_of_true statusBusy_started nofun, fun _ => rfl,
      setWidth16_reserved Config.lsSeed, hs.flags2_reserved⟩

theorem State.RegistersLegal.withSchedule {s : State} (h : s.RegistersLegal) (ms : List Move) :
    State.RegistersLegal { s with schedule := ms } := by
  obtain ⟨hc, hst, hb, he, hl, hf⟩ := h
  exact ⟨hc, hst, hb, he, hl, hf⟩

theorem engineStep_registersLegal {s t : State} (hs : s.RegistersLegal) (h : engineStep s = .next t) :
    t.RegistersLegal := by
  by_cases hp : s.phase = .idle
  · rw [engineStep_idle hp] at h; cases h; exact hs
  · exact (engineStep_registerEffect hp h).registersLegal hp hs

theorem reset_registersLegal : State.reset.RegistersLegal :=
  ⟨by decide, .inl rfl, by decide, fun _ => rfl, by decide, by decide⟩

theorem StepCase.registersLegal {s t : State} (h : StepCase s t) (hs : s.RegistersLegal) : t.RegistersLegal := by
  have hs' := hs
  obtain ⟨hc, hst, hb, he, hl, hf⟩ := hs
  cases h with
  | engine ms ht => exact engineStep_registersLegal (hs'.withSchedule ms) ht
  | host => exact ⟨hc, hst, hb, he, hl, hf⟩
  | command rest w i _ _ hi ht =>
    exact (exec_commandCase (decodeCommand_ok hi).1 ht).registersLegal (hs'.withSchedule rest)
  | register _ _ c _ _ _ _ f2 hc' hf' =>
    refine ⟨?_, hst, hb, he, hl, ?_⟩
    · rcases hc' with rfl | ⟨m, e, rfl⟩
      · exact hc
      · exact ctrlWord_reserved m e
    · rcases hf' with rfl | ⟨v, rfl⟩
      · exact hf
      · exact low8_reserved v
  | inByte | outByte => exact ⟨hc, hst, hb, he, hl, hf⟩
  | reset =>
    obtain ⟨hc, hst, hb, he, hl, hf⟩ := reset_registersLegal
    exact ⟨hc, hst, hb, he, hl, hf⟩

end Sys2Proof.Machine

namespace Sys2Proof.Proofs

open Sys2Proof Sys2Proof.Machine

/-- Settles O53, by the cases of a step. -/
theorem stepKeepsRegistersLegal : Obligations.StepKeepsRegistersLegal :=
  fun _ _ hs ht => (step_case ht).registersLegal hs

/-- Settles O58, by the cases of a step. -/
theorem statusChangesOnlyAtStartAndEnd : Obligations.StatusChangesOnlyAtStartAndEnd := by
  intro s t h hne
  cases step_case h with
  | engine ms ht => exact .inl (engineStep_status_ne (s := { s with schedule := ms }) ht hne)
  | command rest w i hs hb hi => exact .inr (.inl ⟨w, rest, i, hs, hb, hi⟩)
  | reset rest hs => exact .inr (.inr ⟨rest, hs, rfl⟩)
  | host | register | inByte | outByte => exact absurd rfl hne

/-- Settles O30, by the cases of a command. -/
theorem commandFrame : Obligations.CommandFrame := by
  intro i s t hi ht
  cases exec_commandCase hi ht with
  | ignored hb => simp [hb]
  | rejects hb m e => simp [(s.latch_cfgLatched m e).endCommand]
  | decodes hb e hi => simp [hi, (s.latch_cfgLatched 0#2 e).beginDecode]
  | encodes hb e hi => simp [hi, (s.latch_cfgLatched 1#2 e).beginEncode, Config.lsSeed]

/-- Settles O10. -/
theorem stepRunsHostCommand : Obligations.StepRunsHostCommand := by
  intro s rest
  refine ⟨fun w i hs hi => ?_, fun hs => step_hostTurn hs, step_engine, fun hs hp => ?_⟩
  · rw [step_hostTurn hs]
    exact regWrite_command hi _
  · rw [step_engine hs, engineStep_idle hp]

/-- Settles O25. -/
theorem cmdDecodeStarts : Obligations.CmdDecodeStarts := by
  intro e s hb hin hlegal
  rw [startedState_eq_latch] at hlegal ⊢
  have hc : startCheck (s.latch 0#2 e) = none := startCheck_none hin fun _ => hlegal
  simp only [exec, execCmdDecode, hb, hc]
  rfl

/-- Settles O29. -/
theorem registerWritesIgnoredWhileBusy : Obligations.RegisterWritesIgnoredWhileBusy := by
  intro s hb
  refine ⟨fun e => ⟨if_pos hb, if_pos hb⟩, fun m e => if_pos hb, fun offset v rest ho hlt hs => ?_,
    step_busy_untouched hb⟩
  have hb : State.busy { s with schedule := rest } = true := hb
  exact (step_hostTurn hs).trans (regWrite_busy ho hlt hb v)

/-- Settles O31. -/
theorem resetLeavesRegistersZero : Obligations.ResetLeavesRegistersZero := by
  intro s rest hs
  exact ⟨State.afterReset { s with schedule := rest }, step_hostTurn hs, rfl, rfl, rfl, rfl, rfl, rfl, rfl, rfl, rfl,
    rfl, rfl, rfl, fun _ => ⟨rfl, rfl⟩, State.afterReset_outcome _, rfl, rfl⟩

/-- Settles O32. -/
theorem idleRegisterReads : Obligations.IdleRegisterReads := by
  intro s offset rest hb ho hlt hs
  rw [step_hostTurn hs, ← State.regValue_eq]
  exact regRead_idle ho hlt hb

/-- Settles O33. -/
theorem idleRegisterWrites : Obligations.IdleRegisterWrites := by
  intro s offset v rest hb ho hlt hstart hs
  have hb : State.busy { s with schedule := rest } = false := hb
  rw [step_hostTurn hs]
  by_cases h0 : offset = 0
  · subst h0
    exact (regWrite_ctrl_idle hb v).trans (writeCtrlReg_noStart (hstart rfl) _)
  · rw [if_neg h0]
    exact (regWrite_idle ho hlt hb h0 v).trans (congrArg _ (State.writeReg_eq _ _ _))

/-- Settles O34. -/
theorem busyRegisterReads : Obligations.BusyRegisterReads := by
  intro s rest hb
  have hread : ∀ offset, offset % 4 = 0 → offset < 64 → s.schedule = .regRead offset 4 :: rest →
      ∃ t, step s = .next t ∧ t.readData = some (State.busyValue { s with schedule := rest } offset) :=
    fun offset ho hlt hs => ⟨_, (step_hostTurn hs).trans (regRead_busy ho hlt hb), rfl⟩
  refine ⟨hread 0x00 rfl (by decide), hread 0x04 rfl (by decide), hread 0x08 rfl (by decide),
    hread 0x0C rfl (by decide), fun hs => ?_, fun hs => ?_, fun u hu => ⟨fun hs => ?_, fun hs => ?_⟩⟩
  · obtain ⟨t, ht, hv⟩ := hread 0x1C rfl (by decide) hs
    exact ⟨t, _, ht, hv, low16_reserved _⟩
  · obtain ⟨t, ht, hv⟩ := hread 0x28 rfl (by decide) hs
    exact ⟨t, _, ht, hv, low8_reserved _⟩
  · obtain ⟨t, ht, hv⟩ := hread 0x10 rfl (by decide) hs
    exact ⟨t, _, ht, hv, drawProgress_le hu _⟩
  · obtain ⟨t, ht, hv⟩ := hread 0x14 rfl (by decide) hs
    exact ⟨t, _, ht, hv, drawProgress_le hu _⟩

end Sys2Proof.Proofs


/-! # The encoder's components: ranges of the match finder, the allocator, the choice, the stream's size -/

namespace Sys2Proof.Machine

/-! ## The match finder's ranges (R101 to R104) -/

theorem extendMatch_le (D : List Byte) (s pos k L : Nat) : extendMatch D s pos k L ≤ L + k := by
  induction k generalizing L with
  | zero => exact Nat.le_refl L
  | succ k ih =>
    rw [extendMatch]
    split
    · have := ih (L + 1); omega
    · omega

theorem candidateLength_le (D : List Byte) (s pos : Nat) {maxlen : Nat} (h : Config.minMatch ≤ maxlen) :
    candidateLength D s pos maxlen ≤ maxlen := by
  unfold candidateLength
  split
  · have := extendMatch_le D s pos (maxlen - Config.minMatch) Config.minMatch; omega
  · exact Nat.zero_le _

/-- The scan answers the match it began with, or one inside its window and lookahead. -/
theorem scanWindow_range (D : List Byte) (pos : Nat) {maxlen : Nat} (h : Config.minMatch ≤ maxlen) (k : Nat)
    (best : Nat × Nat) :
    scanWindow D pos maxlen k best = best ∨
      1 ≤ (scanWindow D pos maxlen k best).1 ∧ (scanWindow D pos maxlen k best).1 ≤ k ∧
        (scanWindow D pos maxlen k best).2 ≤ maxlen := by
  induction k generalizing best with
  | zero => exact .inl rfl
  | succ k ih =>
    have hL := candidateLength_le D (pos - (k + 1)) pos h
    rw [scanWindow]
    split_ifs
    · exact .inr ⟨Nat.succ_pos k, Nat.le_refl _, hL⟩
    · rcases ih (k + 1, candidateLength D (pos - (k + 1)) pos maxlen) with e | ⟨h1, hk, hm⟩
      · rw [e]; exact .inr ⟨Nat.succ_pos k, Nat.le_refl _, hL⟩
      · exact .inr ⟨h1, Nat.le_succ_of_le hk, hm⟩
    · rcases ih best with e | ⟨h1, hk, hm⟩
      · exact .inl e
      · exact .inr ⟨h1, Nat.le_succ_of_le hk, hm⟩

/-- A match found has a length of 3 to 18 inside the input and an offset inside the window. -/
theorem findMatch_range {D : List Byte} {pos : Nat} {m : Nat × Nat} (h : findMatch D pos = some m) :
    3 ≤ m.2 ∧ m.2 ≤ 18 ∧ m.2 ≤ D.length - pos ∧ 1 ≤ m.1 ∧ m.1 ≤ 4096 := by
  simp only [findMatch] at h
  split_ifs at h with hmax hbest
  cases h
  rcases scanWindow_range D pos (Nat.not_lt.mp hmax) (min pos Config.window) (0, 0) with e | ⟨h1, hk, hm⟩
  · rw [e] at hbest; exact absurd hbest (by decide)
  · simp only [Config.window, Config.maxMatch, Config.minMatch] at *
    omega

/-! ## The allocator (R121 to R123) -/

theorem lsMember_insert (ls : BitVec 16) {d : Nat} (hd : d ≤ 15) (v : Nat) :
    lsMember (lsInsert ls d) v = (lsMember ls v || decide (v = d)) := by
  unfold lsMember lsInsert
  rw [BitVec.getLsbD_or, BitVec.getLsbD_shiftLeft, BitVec.getLsbD_one]
  congr 1
  rw [Bool.eq_iff_iff]
  simp
  omega

theorem lsSize_insert_le (ls : BitVec 16) {d : Nat} (hd : d ≤ 15) : lsSize (lsInsert ls d) ≤ lsSize ls + 1 := by
  have hsub : (List.range 16).filter (lsMember (lsInsert ls d)) ⊆ d :: (List.range 16).filter (lsMember ls) := by
    intro v hv
    simp only [List.mem_filter, lsMember_insert ls hd, Bool.or_eq_true, decide_eq_true_eq] at hv
    rcases hv with ⟨hv, hm | rfl⟩
    · exact List.mem_cons_of_mem _ (List.mem_filter.mpr ⟨hv, hm⟩)
    · exact List.mem_cons_self
  exact ((List.nodup_range.filter _).subperm hsub).length_le

theorem clampDown_le (ls : BitVec 16) (d : Nat) : clampDown ls d ≤ d := by
  induction d with
  | zero => exact Nat.le_refl 0
  | succ d ih =>
    rw [clampDown]
    split
    · exact Nat.le_refl _
    · exact Nat.le_succ_of_le ih

theorem lsMember_clampDown {ls : BitVec 16} (h0 : lsMember ls 0 = true) (d : Nat) :
    lsMember ls (clampDown ls d) = true := by
  induction d with
  | zero => exact h0
  | succ d ih =>
    rw [clampDown]
    split
    · assumption
    · exact ih

/-- What an allocation keeps and answers: the invariant, a delta of the new set not above the one asked for,
and every member of the old set. -/
structure Allocated (ls : BitVec 16) (d : Nat) (r : BitVec 16 × Nat) : Prop where
  lengthSet : lengthSetOk r.1
  le : r.2 ≤ d
  member : lsMember r.1 r.2 = true
  grows : ∀ v, lsMember ls v = true → lsMember r.1 v = true

theorem alloc_allocated {ls : BitVec 16} {d : Nat} (h : lengthSetOk ls) (hd : d ≤ 15) :
    Allocated ls d (alloc ls d) := by
  obtain ⟨h0, h15, hsize⟩ := h
  unfold alloc
  split_ifs with hm hroom
  · exact ⟨⟨h0, h15, hsize⟩, Nat.le_refl d, hm, fun _ hv => hv⟩
  · have hgrow : ∀ v, lsMember ls v = true → lsMember (lsInsert ls d) v = true := fun v hv => by
      rw [lsMember_insert ls hd, hv, Bool.true_or]
    refine ⟨⟨hgrow 0 h0, hgrow 15 h15, ?_⟩, Nat.le_refl d, ?_, hgrow⟩
    · exact (lsSize_insert_le ls hd).trans hroom
    · rw [lsMember_insert ls hd]; simp
  · exact ⟨⟨h0, h15, hsize⟩, clampDown_le ls d, lsMember_clampDown h0 d, fun _ hv => hv⟩

theorem lengthSetOk_seed : lengthSetOk Config.lsSeed := by
  unfold lengthSetOk
  decide

/-! ## The operation chosen (R142 to R146) -/

theorem classifyOdd_flag {n0 nk : Nibble} {less more f : Fin 9} {p : Nibble}
    (h : classifyOdd n0 nk less more = some (f, p)) : f = less ∨ f = more := by
  unfold classifyOdd at h
  split_ifs at h <;> cases h
  · exact .inl rfl
  · exact .inr rfl

/-- The encoder's inverse of the table never answers index 1 or 5 (R90). -/
theorem classify_flag {b0 b1 : Byte} {f : Fin 9} {p : Nibble} (h : classify b0 b1 = some (f, p)) :
    f ≠ 1 ∧ f ≠ 5 := by
  unfold classify classifyNibbles at h
  split_ifs at h
  · cases h; decide
  · rcases classifyOdd_flag h with rfl | rfl <;> decide
  · rcases classifyOdd_flag h with rfl | rfl <;> decide
  · rcases classifyOdd_flag h with rfl | rfl <;> decide

theorem Op.Allowed.mono {ls ls' : BitVec 16} (h : ∀ v, lsMember ls v = true → lsMember ls' v = true) {o : Op}
    (ho : o.Allowed ls) : o.Allowed ls' := by
  cases o with
  | lit v => trivial
  | nib f p => exact ho
  | bref length offset =>
    obtain ⟨h1, h2, h3, h4, hm⟩ := ho
    exact ⟨h1, h2, h3, h4, h _ hm⟩

/-- What the choice at `pos` answers: an operation that the encoder may hold, inside the input, and a
LengthSet that keeps its invariant and its members. -/
structure Chosen (D : List Byte) (pos : Nat) (ls : BitVec 16) (c : Op × BitVec 16) : Prop where
  inside : pos + c.1.width ≤ D.length
  allowed : c.1.Allowed c.2
  lengthSet : lengthSetOk c.2
  grows : ∀ v, lsMember ls v = true → lsMember c.2 v = true

theorem Chosen.keepsSet {D : List Byte} {pos : Nat} {ls : BitVec 16} {o : Op} (h : lengthSetOk ls)
    (hin : pos + o.width ≤ D.length) (ho : o.Allowed ls) : Chosen D pos ls (o, ls) :=
  ⟨hin, ho, h, fun _ hv => hv⟩

theorem chooseBref_chosen {D : List Byte} {pos : Nat} {ls : BitVec 16} {m : Nat × Nat} (h : lengthSetOk ls)
    (hm : findMatch D pos = some m) : Chosen D pos ls (chooseBref ls m) := by
  obtain ⟨h3, h18, hin, hoff, hwin⟩ := findMatch_range hm
  obtain ⟨hok, hle, hmem, hgrow⟩ := alloc_allocated (d := m.2 - 3) h (by omega)
  refine ⟨?_, ⟨by omega, by omega, hoff, hwin, hmem⟩, hok, hgrow⟩
  show pos + ((alloc ls (m.2 - 3)).2 + 3) ≤ D.length
  omega

theorem chooseNib0_chosen {D : List Byte} {pos : Nat} {ls : BitVec 16} {o : Op} (h : lengthSetOk ls)
    (ho : chooseNib0 D pos = some o) : Chosen D pos ls (o, ls) := by
  unfold chooseNib0 at ho
  split at ho
  · next hin =>
    split at ho
    · split_ifs at ho
      cases ho
      exact .keepsSet h hin (by decide : (0 : Fin 9) ≠ 1 ∧ (0 : Fin 9) ≠ 5)
    · cases ho
  · cases ho

theorem chooseNib_chosen {D : List Byte} {pos : Nat} {ls : BitVec 16} {o : Op} (h : lengthSetOk ls)
    (ho : chooseNib D pos = some o) : Chosen D pos ls (o, ls) := by
  unfold chooseNib at ho
  split at ho
  · next hin =>
    split at ho
    · next hc =>
      split_ifs at ho
      cases ho
      exact .keepsSet h hin (classify_flag hc)
    · cases ho
  · cases ho

theorem chooseOp_chosen {D : List Byte} {pos : Nat} {ls : BitVec 16} (h : lengthSetOk ls) (hpos : pos < D.length) :
    Chosen D pos ls (chooseOp D pos ls) := by
  unfold chooseOp
  split
  · next hm => exact chooseBref_chosen h hm
  · split
    · next ho => exact chooseNib0_chosen h ho
    · split
      · next ho => exact chooseNib_chosen h ho
      · exact .keepsSet h hpos trivial

/-! ## The size of the stream (R74, R149) -/

theorem encode_nibInstr (ft : FlagTable) (k : Fin 9) (p : Nibble) :
    encode ft (nibInstr k p) = [nibByte ft k p] := by
  match k with
  | 0 | 1 | 2 | 3 | 4 | 5 | 6 | 7 | 8 => rfl

theorem emitOp_length (ft : FlagTable) (o : Op) : (emitOp ft o).length = 1 + (if o.isBref then 1 else 0) := by
  cases o with
  | lit v => rfl
  | nib f p => rw [emitOp, Op.toInstr, encode_nibInstr]; rfl
  | bref length offset => rfl

theorem emitOps_length (ft : FlagTable) (ops : List Op) :
    (ops.flatMap (emitOp ft)).length = ops.length + brefCount ops := by
  induction ops with
  | nil => rfl
  | cons o rest ih =>
    rw [List.flatMap_cons, List.length_append, emitOp_length, ih, brefCount, brefCount, List.filter_cons]
    split <;> simp <;> omega

theorem flushGroup_length (ft : FlagTable) {ops : List Op} (h : ops ≠ []) :
    (flushGroup ft ops).length = 1 + ops.length + brefCount ops := by
  cases ops with
  | nil => exact absurd rfl h
  | cons o rest => rw [flushGroup, List.length_cons, emitOps_length]; omega

theorem brefCount_append (a b : List Op) : brefCount (a ++ b) = brefCount a + brefCount b := by
  simp [brefCount]

/-- A whole group adds its control byte, its operations and their second bytes. -/
theorem streamSize_append_group {group : List Op} (h : group.length = Config.group) (ops : List Op) :
    streamSize (group ++ ops) = 1 + Config.group + brefCount group + streamSize ops := by
  simp only [streamSize, List.length_append, brefCount_append, h, Config.group]
  omega

theorem emitGroups_length (ft : FlagTable) {group : List Op} (hg : group.length < Config.group) (ops : List Op) :
    (emitGroups ft group ops).length = streamSize (group ++ ops) := by
  induction ops generalizing group with
  | nil =>
    rw [emitGroups, List.append_nil, streamSize]
    by_cases h : group = []
    · subst h; rfl
    · have hpos := List.length_pos_of_ne_nil h
      rw [flushGroup_length ft h]
      simp only [Config.group] at hg
      omega
  | cons o rest ih =>
    rw [emitGroups, List.append_cons group o rest]
    split
    · next h => exact ih (by simpa using h)
    · next h =>
      have hfull : (group ++ [o]).length = Config.group := by
        rw [List.length_append, List.length_singleton]
        exact Nat.le_antisymm hg (Nat.not_lt.mp h)
      rw [List.length_append, flushGroup_length ft (by simp), ih (by decide), streamSize_append_group hfull, hfull]
      rfl

theorem emitStream_length (ft : FlagTable) (ops : List Op) : (emitStream ft ops).length = streamSize ops :=
  emitGroups_length ft (by decide) ops

end Sys2Proof.Machine


/-! # The engine's bounds (R20, R41 to R43, R123, R180) -/

namespace Sys2Proof.Machine

/-! ## The bounds inside a decoder operation (R20, R41 to R43, R180) -/

/-- The engine's bounds while a DECODE is within an operation: those of `DecodeBounds` that do not depend on
the phase, with the parameters and the buffers. -/
structure State.OperationBounds (s : State) : Prop where
  config : s.cfg.wf = true
  in_below : Memory.below s.inBuf s.cfg.inCap = true
  out_below : Memory.below s.outBuf s.cfg.outCap = true
  il_le : s.il.toNat ≤ s.cfg.inCap
  ip_le : s.ip.toNat ≤ s.il.toNat
  olen_le : s.olen.toNat ≤ s.cfg.outCap
  expected_le : s.xv = true → s.olen.toNat ≤ s.xl.toNat
  outLen_eq : s.outLen = s.olen
  written : ∀ a, a < s.olen.toNat → (Memory.read s.outBuf a).isSome = true

theorem State.EngineBounds.operation {s : State} (h : s.EngineBounds) (hd : s.inDecode = true) :
    s.OperationBounds := by
  obtain ⟨hil, hip, hol, hexp, hout, hw, -, -⟩ := h.decode hd
  exact ⟨h.config, h.in_below, h.out_below, hil, hip, hol, hexp, hout, hw⟩

/-- Between commands only the parameters and the buffers are bounded. -/
theorem State.EngineBounds.of_idle {s : State} (hc : s.cfg.wf = true) (hi : Memory.below s.inBuf s.cfg.inCap = true)
    (ho : Memory.below s.outBuf s.cfg.outCap = true) (hp : s.phase = .idle) : s.EngineBounds :=
  ⟨hc, hi, ho, fun hd => by simp [State.inDecode, hp] at hd, fun he => by simp [State.inEncode, hp] at he⟩

/-- Between two steps of a DECODE outside a copy. -/
theorem State.OperationBounds.engineBounds {s : State} (h : s.OperationBounds)
    (hp : s.phase = .decCtrl ∨ s.phase = .decSlot ∧ s.slot ≤ 7) : s.EngineBounds := by
  obtain ⟨hc, hi, ho, hil, hip, hol, hexp, hout, hw⟩ := h
  refine ⟨hc, hi, ho, fun _ => ⟨hil, hip, hol, hexp, hout, hw, fun hs => ?_, fun hs => ?_⟩, fun he => ?_⟩
  · rcases hp with hp | ⟨-, hslot⟩
    · rw [hp] at hs; cases hs
    · exact hslot
  · rcases hp with hp | ⟨hp, -⟩ <;> rw [hp] at hs <;> cases hs
  · rcases hp with hp | ⟨hp, -⟩ <;> simp [State.inEncode, hp] at he

theorem Config.wf_outCap {c : Config} (h : c.wf = true) : c.outCap < 2 ^ 32 := by
  simp only [Config.wf, Bool.and_eq_true, decide_eq_true_eq] at h
  omega

theorem State.OperationBounds.readOne {s : State} (h : s.OperationBounds) (hip : s.ip ≠ s.il) :
    (s.advance 1).OperationBounds := by
  obtain ⟨hc, hi, ho, hil, hle, hol, hexp, hout, hw⟩ := h
  refine ⟨hc, hi, ho, hil, ?_, hol, hexp, hout, hw⟩
  show (s.ip + 1).toNat ≤ s.il.toNat
  bv_omega

theorem State.OperationBounds.readTwo {s : State} (h : s.OperationBounds) (hip : s.ip ≠ s.il)
    (hip1 : s.ip + 1 ≠ s.il) : (s.advance 2).OperationBounds := by
  obtain ⟨hc, hi, ho, hil, hle, hol, hexp, hout, hw⟩ := h
  refine ⟨hc, hi, ho, hil, ?_, hol, hexp, hout, hw⟩
  show (s.ip + 2).toNat ≤ s.il.toNat
  bv_omega

theorem State.OperationBounds.putByte {s : State} (h : s.OperationBounds) (v : Byte) (hx : s.expReached = false)
    (hcap : s.olen.toNat ≠ s.cfg.outCap) : (s.putByte v).OperationBounds := by
  obtain ⟨hc, hi, ho, hil, hip, hol, hexp, hout, hw⟩ := h
  have hlt : s.olen.toNat < s.cfg.outCap := Nat.lt_of_le_of_ne hol hcap
  have hnext : (s.olen + 1).toNat = s.olen.toNat + 1 := by
    have := Config.wf_outCap hc
    bv_omega
  refine ⟨hc, hi, Memory.write_below ho hlt v, hil, hip, hnext ▸ hlt, fun hxv => ?_, rfl, fun a ha => ?_⟩
  · have hne : s.olen ≠ s.xl := by simpa [State.expReached, show s.xv = true from hxv] using hx
    have hle := hexp hxv
    show (s.olen + 1).toNat ≤ s.xl.toNat
    bv_omega
  · have ha : a < s.olen.toNat + 1 := hnext ▸ ha
    show (Memory.read (Memory.write s.outBuf s.olen.toNat v) a).isSome = true
    rw [Memory.read_write]
    split
    · rfl
    · exact hw a (by omega)

theorem State.OperationBounds.nextSlot {s : State} (h : s.OperationBounds) : s.nextSlot.EngineBounds := by
  have hb : s.nextSlot.OperationBounds := by
    obtain ⟨hc, hi, ho, hil, hip, hol, hexp, hout, hw⟩ := h
    exact ⟨hc, hi, ho, hil, hip, hol, hexp, hout, hw⟩
  refine hb.engineBounds ?_
  rw [State.nextSlot_phase, State.nextSlot_slot]
  split
  · next hslot => exact .inr ⟨rfl, Nat.le_of_lt_succ hslot⟩
  · exact .inl rfl

theorem operationBounds_rules : OperationRules State.OperationBounds State.EngineBounds where
  markOp h := ⟨h.config, h.in_below, h.out_below, h.il_le, h.ip_le, h.olen_le, h.expected_le, h.outLen_eq, h.written⟩
  readOne h hip := h.readOne hip
  readTwo h hip hip1 := h.readTwo hip hip1
  putByte v h hx hcap := h.putByte v hx hcap
  beginCopy _ _ h :=
    ⟨h.config, h.in_below, h.out_below, h.il_le, h.ip_le, h.olen_le, h.expected_le, h.outLen_eq, h.written⟩
  countCopy h :=
    ⟨h.config, h.in_below, h.out_below, h.il_le, h.ip_le, h.olen_le, h.expected_le, h.outLen_eq, h.written⟩
  openGroup c h hip := by
    obtain ⟨hc, hi, ho, hil, hip, hol, hexp, hout, hw⟩ := h.readOne hip
    exact State.OperationBounds.engineBounds ⟨hc, hi, ho, hil, hip, hol, hexp, hout, hw⟩
      (.inr ⟨rfl, Nat.zero_le 7⟩)
  nextSlot h := h.nextSlot
  endCommand h _ := .of_idle h.config h.in_below h.out_below rfl

/-! ## The bounds of the encoder's steps (R123, R142, R148 to R150) -/

theorem opsWidth_append (ops : List Op) (o : Op) : opsWidth (ops ++ [o]) = opsWidth ops + o.width := by
  simp [opsWidth]

theorem State.EncodeBounds.engineBounds {s : State} (h : s.EncodeBounds) (hc : s.cfg.wf = true)
    (hi : Memory.below s.inBuf s.cfg.inCap = true) (ho : Memory.below s.outBuf s.cfg.outCap = true)
    (he : s.inEncode = true) : s.EngineBounds := by
  refine ⟨hc, hi, ho, fun hd => ?_, fun _ => h⟩
  rcases State.inEncode_phase he with hp | hp | hp <;> simp [State.inDecode, hp] at hd

theorem State.EncodeBounds.pushOp {s : State} {D : List Byte} {c : Op × BitVec 16} (h : s.EncodeBounds)
    (hp : s.phase = .encParse) (hD : D.length = s.n.toNat) (hc : Chosen D s.pos.toNat s.ls c) :
    (s.pushOp c.1 c.2).EncodeBounds := by
  obtain ⟨hn, hpos, hcons, -, hall, -, -⟩ := h
  have hin : s.pos.toNat + c.1.width ≤ s.n.toNat := hD ▸ hc.inside
  have hnext : (s.pos + BitVec.ofNat 32 c.1.width).toNat = s.pos.toNat + c.1.width := by
    rw [BitVec.toNat_add, BitVec.toNat_ofNat, Nat.add_mod_mod]
    exact Nat.mod_eq_of_lt (Nat.lt_of_le_of_lt hin s.n.isLt)
  refine ⟨hn, hnext ▸ hin, ?_, hc.lengthSet, fun o ho => ?_, fun hne => absurd hp hne,
    fun he => absurd (hp.symm.trans he) nofun⟩
  · show opsWidth (s.opbuf ++ [c.1]) = (s.pos + BitVec.ofNat 32 c.1.width).toNat
    rw [opsWidth_append, hcons, hnext]
  · rcases List.mem_append.mp ho with ho | ho
    · exact (hall o ho).mono hc.grows
    · exact List.mem_singleton.mp ho ▸ hc.allowed

theorem State.EncodeBounds.endParse {s : State} (h : s.EncodeBounds) (hpos : ¬ s.pos.toNat < s.n.toNat) :
    s.endParse.EncodeBounds := by
  obtain ⟨hn, hle, hcons, hls, hall, -, -⟩ := h
  have heq : s.pos = s.n := BitVec.eq_of_toNat_eq (Nat.le_antisymm hle (Nat.not_lt.mp hpos))
  exact ⟨hn, hle, hcons, hls, hall, fun _ => ⟨heq, rfl⟩, nofun⟩

theorem parseStep_bounds {s : State} {D : List Byte} (h : s.EngineBounds) (hp : s.phase = .encParse)
    (hD : s.inputBytes = .ok D) : (parseStep D s).EngineBounds := by
  have he := h.encode (by simp [State.inEncode, hp])
  have hlen : D.length = s.n.toNat := Memory.readBytes_length hD
  unfold parseStep
  split
  · next hlt =>
    have hc : Chosen D s.pos.toNat s.ls (chooseOp D s.pos.toNat s.ls) := chooseOp_chosen he.lengthSet (hlen ▸ hlt)
    exact (he.pushOp hp hlen hc).engineBounds h.config h.in_below h.out_below (by simp [State.inEncode, hp])
  · next hge => exact (he.endParse hge).engineBounds h.config h.in_below h.out_below rfl

/-- Emission inside OUT lists no address outside it. -/
theorem emitBytes_below {vs : List Byte} {s : State} {cap : Nat} (h : Memory.below s.outBuf cap = true)
    (hlen : s.olen.toNat + vs.length ≤ cap) (hcap : cap < 2 ^ 32) :
    Memory.below (emitBytes vs s).outBuf cap = true := by
  induction vs generalizing s with
  | nil => exact h
  | cons v rest ih =>
    rw [List.length_cons] at hlen
    have hnext : (s.putByte v).olen.toNat = s.olen.toNat + 1 := by
      show (s.olen + 1).toNat = _
      bv_omega
    exact ih (Memory.write_below h (by omega) v) (by omega)

/-- A stream published from address 0 that fits in OUT. -/
theorem publish_emitBytes_bounds {vs : List Byte} {s : State} (hc : s.cfg.wf = true)
    (hi : Memory.below s.inBuf s.cfg.inCap = true) (ho : Memory.below s.outBuf s.cfg.outCap = true)
    (h0 : s.olen = 0) (hlen : vs.length ≤ s.cfg.outCap) (cf : Nine Nibble) (k : Nat) :
    ((emitBytes vs s).publish cf k).EngineBounds := by
  obtain ⟨hend, hcfg, -, -, hin, -⟩ := publish_emitBytes_frame vs s cf k
  have hbelow : Memory.below (emitBytes vs s).outBuf s.cfg.outCap = true :=
    emitBytes_below ho (by simpa [h0] using hlen) (Config.wf_outCap hc)
  exact .of_idle (by rwa [hcfg]) (by rwa [hcfg, hin]) (by rw [hcfg]; exact hbelow) hend.1

theorem EncCheckCase.bounds {s t : State} (hcase : EncCheckCase s t) (h : s.EngineBounds) (hp : s.phase = .encCheck) :
    t.EngineBounds := by
  cases hcase with
  | rejects => exact .of_idle h.config h.in_below h.out_below rfl
  | emits hmax hcap =>
    obtain ⟨hn, hle, hcons, hls, hall, hparsed, -⟩ := h.encode (by simp [State.inEncode, hp])
    have hparsed := hparsed (by simp [hp])
    exact State.EncodeBounds.engineBounds
      ⟨hn, hle, hcons, hls, hall, fun _ => hparsed, fun _ => ⟨rfl, hmax, hcap⟩⟩ h.config h.in_below h.out_below rfl
  | publishes x cf bytes hcap =>
    exact publish_emitBytes_bounds (s := { s with lset := x.setWidth 32, olen := 0, cf := cf })
      h.config h.in_below h.out_below rfl hcap cf bytes.length

theorem encEmit_bounds {s t : State} (ht : encEmit s = .next t) (h : s.EngineBounds) (hp : s.phase = .encEmit) :
    t.EngineBounds := by
  cases ht
  obtain ⟨h0, -, hcap⟩ := (h.encode (by simp [State.inEncode, hp])).sized hp
  exact publish_emitBytes_bounds h.config h.in_below h.out_below h0 (by rwa [emitStream_length]) _ _

/-! ## Every step keeps the engine's bounds -/

theorem engineStep_bounds {s t : State} (h : s.EngineBounds) (ht : engineStep s = .next t) : t.EngineBounds := by
  rcases s.phase_cases with hp | hd | he
  · rw [engineStep_idle hp] at ht; cases ht; exact h
  · exact operationBounds_rules.decodeStep (h.operation hd) hd ht
  · rcases State.inEncode_phase he with hp | hp | hp <;> rw [engineStep_eq hp] at ht
    · obtain ⟨D, hD, rfl⟩ := encParse_next ht
      exact parseStep_bounds h hp hD
    · exact (encCheck_case ht).bounds h hp
    · exact encEmit_bounds ht h hp

/-- The bounds do not speak of the host's fields nor of the registers it writes; the buffers may be others
within their capacities where every OUT byte written before stays written. -/
theorem State.EngineBounds.hostChange {s : State} (h : s.EngineBounds) (ms : List Move) (r : Option Word) (k : Nat)
    (c inLen expLen f0 f1 f2 : Word) {i o : Memory} (hi : Memory.below i s.cfg.inCap = true)
    (ho : Memory.below o s.cfg.outCap = true)
    (hw : ∀ a, (Memory.read s.outBuf a).isSome = true → (Memory.read o a).isSome = true) :
    State.EngineBounds { s with
      schedule := ms, readData := r, draws := k, ctrl := c, inLen := inLen, expLen := expLen, flags0 := f0,
      flags1 := f1, flags2 := f2, inBuf := i, outBuf := o } := by
  refine ⟨h.config, hi, ho, fun hd => ?_, fun he => ?_⟩
  · obtain ⟨hil, hip, hol, hexp, hout, hwr, hslot, hcopy⟩ := h.decode hd
    exact ⟨hil, hip, hol, hexp, hout, fun a ha => hw a (hwr a ha), hslot, hcopy⟩
  · obtain ⟨hn, hle, hcons, hls, hall, hparsed, hsized⟩ := h.encode he
    exact ⟨hn, hle, hcons, hls, hall, hparsed, hsized⟩

theorem CommandCase.bounds {s t : State} {i : Instr} (hcase : CommandCase s i t) (h : s.EngineBounds) :
    t.EngineBounds := by
  cases hcase with
  | ignored => exact h
  | rejects => exact .of_idle h.config h.in_below h.out_below rfl
  | decodes _ e _ hin =>
    exact State.OperationBounds.engineBounds
      ⟨h.config, h.in_below, h.out_below, hin, Nat.zero_le _, Nat.zero_le _, fun _ => Nat.zero_le _, rfl,
        fun a ha => absurd ha (Nat.not_lt_zero a)⟩ (.inl rfl)
  | encodes _ e _ hin =>
    exact State.EncodeBounds.engineBounds
      ⟨hin, Nat.zero_le _, rfl, lengthSetOk_seed, nofun, fun hne => absurd rfl hne, nofun⟩
      h.config h.in_below h.out_below rfl

theorem StepCase.bounds {s t : State} (hcase : StepCase s t) (h : s.EngineBounds) : t.EngineBounds := by
  cases hcase with
  | engine ms ht =>
    exact engineStep_bounds (h.hostChange ms s.readData s.draws s.ctrl s.inLen s.expLen s.flags0 s.flags1 s.flags2
      h.in_below h.out_below fun _ ha => ha) ht
  | host ms r k =>
    exact h.hostChange ms r k s.ctrl s.inLen s.expLen s.flags0 s.flags1 s.flags2 h.in_below h.out_below fun _ ha => ha
  | command rest w i _ _ hi ht =>
    exact (exec_commandCase (decodeCommand_ok hi).1 ht).bounds (h.hostChange rest s.readData s.draws s.ctrl s.inLen
      s.expLen s.flags0 s.flags1 s.flags2 h.in_below h.out_below fun _ ha => ha)
  | register _ rest c inLen expLen f0 f1 f2 =>
    exact h.hostChange rest s.readData s.draws c inLen expLen f0 f1 f2 h.in_below h.out_below fun _ ha => ha
  | inByte _ rest a v ha =>
    exact h.hostChange rest s.readData s.draws s.ctrl s.inLen s.expLen s.flags0 s.flags1 s.flags2
      (Memory.write_below h.in_below ha v) h.out_below fun _ ha => ha
  | outByte _ rest a v ha =>
    refine h.hostChange rest s.readData s.draws s.ctrl s.inLen s.expLen s.flags0 s.flags1 s.flags2 h.in_below
      (Memory.write_below h.out_below ha v) fun b hb => ?_
    rw [Memory.read_write]
    split
    · rfl
    · exact hb
  | reset => exact .of_idle h.config rfl rfl rfl

theorem reset_bounds : State.reset.EngineBounds := .of_idle (by decide) rfl rfl rfl

end Sys2Proof.Machine

namespace Sys2Proof.Proofs

open Sys2Proof Sys2Proof.Machine

/-- Settles O54, by the cases of a step. -/
theorem stepKeepsEngineBounds : Obligations.StepKeepsEngineBounds :=
  fun _ _ hs ht => (step_case ht).bounds hs

/-- Settles O55. -/
theorem resetMeetsInvariants : Obligations.ResetMeetsInvariants :=
  ⟨⟨Memory.wf_nil, Memory.wf_nil⟩, reset_registersLegal, reset_bounds⟩

end Sys2Proof.Proofs


/-! # The buffers: canonical form, the engine's reads, and what no engine step writes (20_memory.md) -/

namespace Sys2Proof.Machine

/-! ## Every step keeps both buffers in canonical form (R40, R42) -/

theorem State.BuffersCanonical.putByte {s : State} (h : s.BuffersCanonical) (v : Byte) :
    (s.putByte v).BuffersCanonical :=
  ⟨h.1, Memory.write_wf h.2 _ v⟩

/-- Append is the one part of a decoder operation that writes a buffer. -/
theorem buffersCanonical_rules : OperationRules State.BuffersCanonical State.BuffersCanonical where
  markOp h := h
  readOne h _ := h
  readTwo h _ _ := h
  putByte v h _ _ := h.putByte v
  beginCopy _ _ h := h
  countCopy h := h
  openGroup _ h _ := h
  nextSlot h := h
  endCommand h _ := h

theorem emitBytes_buffersCanonical {s : State} (h : s.BuffersCanonical) (vs : List Byte) :
    (emitBytes vs s).BuffersCanonical := by
  induction vs generalizing s with
  | nil => exact h
  | cons v rest ih => exact ih (h.putByte v)

theorem parseStep_buffersCanonical {s : State} (h : s.BuffersCanonical) (D : List Byte) :
    (parseStep D s).BuffersCanonical := by
  unfold parseStep
  split <;> exact h

theorem EncCheckCase.buffersCanonical {s t : State} (hcase : EncCheckCase s t) (h : s.BuffersCanonical) :
    t.BuffersCanonical := by
  cases hcase with
  | rejects | emits => exact h
  | publishes x cf bytes =>
    exact emitBytes_buffersCanonical (s := { s with lset := x.setWidth 32, olen := 0, cf := cf }) h bytes

theorem engineStep_buffersCanonical {s t : State} (h : s.BuffersCanonical) (ht : engineStep s = .next t) :
    t.BuffersCanonical := by
  rcases s.phase_cases with hp | hd | he
  · rw [engineStep_idle hp] at ht; cases ht; exact h
  · exact buffersCanonical_rules.decodeStep h hd ht
  · rcases State.inEncode_phase he with hp | hp | hp <;> rw [engineStep_eq hp] at ht
    · obtain ⟨D, -, rfl⟩ := encParse_next ht
      exact parseStep_buffersCanonical h D
    · exact (encCheck_case ht).buffersCanonical h
    · cases ht
      exact emitBytes_buffersCanonical h _

theorem CommandCase.buffersCanonical {s t : State} {i : Instr} (hcase : CommandCase s i t)
    (h : s.BuffersCanonical) : t.BuffersCanonical := by
  cases hcase with
  | ignored | rejects | decodes | encodes => exact h

theorem StepCase.buffersCanonical {s t : State} (hcase : StepCase s t) (h : s.BuffersCanonical) :
    t.BuffersCanonical := by
  cases hcase with
  | engine ms ht => exact engineStep_buffersCanonical (s := { s with schedule := ms }) h ht
  | command rest w i _ _ hi ht =>
    exact (exec_commandCase (s := { s with schedule := rest }) (decodeCommand_ok hi).1 ht).buffersCanonical h
  | host | register => exact h
  | inByte _ rest a v => exact ⟨Memory.write_wf h.1 a v, h.2⟩
  | outByte _ rest a v => exact ⟨h.1, Memory.write_wf h.2 a v⟩
  | reset => exact ⟨Memory.wf_nil, Memory.wf_nil⟩

/-! ## What no engine step writes (R18, R19, R23, R41, R50) -/

/-- IN, the parameters, the registers that the host alone writes, the host's fields, and what START latched. -/
def State.hostSide (s : State) :
    Memory × Config × Word × Word × Word × List Move × Option Word × BitVec 2 × Bool × Word × Word × FlagTable :=
  (s.inBuf, s.cfg, s.ctrl, s.inLen, s.expLen, s.schedule, s.readData, s.mode, s.xv, s.xl, s.il, s.ft)

/-- LSET and FLAGS0..2, which an engine step writes in an ENCODE alone. -/
def State.encoderRegisters (s : State) : Word × Word × Word × Word := (s.lset, s.flags0, s.flags1, s.flags2)

/-- What a DECODE must leave alone of `s` is the same in `t`. -/
def DecodeKeeps (s t : State) : Prop := t.hostSide = s.hostSide ∧ t.encoderRegisters = s.encoderRegisters

theorem decodeKeeps_rules (s : State) : OperationRules (DecodeKeeps s) (DecodeKeeps s) where
  markOp h := h
  readOne h _ := h
  readTwo h _ _ := h
  putByte _ h _ _ := h
  beginCopy _ _ h := h
  countCopy h := h
  openGroup _ h _ := h
  nextSlot h := h
  endCommand h _ := h

theorem parseStep_hostSide (D : List Byte) (s : State) : (parseStep D s).hostSide = s.hostSide := by
  unfold parseStep
  split <;> rfl

theorem publish_emitBytes_hostSide (vs : List Byte) (s : State) (cf : Nine Nibble) (k : Nat) :
    ((emitBytes vs s).publish cf k).hostSide = s.hostSide := by
  rw [emitBytes_frame]; rfl

theorem EncCheckCase.hostSide {s t : State} (h : EncCheckCase s t) : t.hostSide = s.hostSide := by
  cases h with
  | rejects | emits => rfl
  | publishes => exact publish_emitBytes_hostSide _ _ _ _

theorem decodeStep_keeps {s t : State} (hd : s.inDecode = true) (h : engineStep s = .next t) : DecodeKeeps s t :=
  (decodeKeeps_rules s).decodeStep ⟨rfl, rfl⟩ hd h

theorem engineStep_hostSide {s t : State} (h : engineStep s = .next t) : t.hostSide = s.hostSide := by
  rcases s.phase_cases with hp | hd | he
  · rw [engineStep_idle hp] at h; cases h; rfl
  · exact (decodeStep_keeps hd h).1
  · rcases State.inEncode_phase he with hp | hp | hp <;> rw [engineStep_eq hp] at h
    · obtain ⟨D, -, rfl⟩ := encParse_next h
      exact parseStep_hostSide D s
    · exact (encCheck_case h).hostSide
    · cases h
      exact publish_emitBytes_hostSide _ _ _ _

/-! ## The engine's reads: every OUT byte it copies from is written (R43, R53) -/

/-- The part of an operation does not fault, and `P` holds where it goes on. -/
def Flow.Runs (P : State → Prop) (x : Flow) : Prop :=
  match x with
  | .go t => P t
  | .ended _ => True
  | .fault _ => False

theorem Flow.Runs.andThen {P P' : State → Prop} {x : Flow} {f : State → Flow} (h : x.Runs P)
    (hf : ∀ t, P t → (f t).Runs P') : (x.andThen f).Runs P' := by
  cases x with
  | go t => exact hf t h
  | ended t => trivial
  | fault r => exact h.elim

theorem Flow.Runs.endOp {P : State → Prop} {x : Flow} (h : x.Runs P) : ∃ t, x.endOp = .next t := by
  cases x with
  | go t => exact ⟨_, rfl⟩
  | ended t => exact ⟨_, rfl⟩
  | fault r => exact h.elim

theorem append_runs {P : State → Prop} {v : Byte} {s : State}
    (hput : s.expReached = false → s.olen.toNat ≠ s.cfg.outCap → P (s.putByte v)) : (append v s).Runs P := by
  rcases append_cases v s with ⟨-, e⟩ | ⟨-, -, e⟩ | ⟨hx, hc, e⟩ <;> rw [e]
  · trivial
  · trivial
  · exact hput hx hc

theorem append_runs_always (v : Byte) (s : State) : (append v s).Runs fun _ => True :=
  append_runs fun _ _ => trivial

theorem appendPair_runs_always (b : Byte × Byte) (s : State) : (appendPair b s).Runs fun _ => True :=
  (append_runs_always b.1 s).andThen fun t _ => append_runs_always b.2 t

/-- The bounds while a copy is in progress: its source, `copyOffset` bytes from `copyBase` on, lies below
`olen` (R179). -/
structure State.CopyBounds (s : State) : Prop where
  operation : s.OperationBounds
  offset_pos : 1 ≤ s.copyOffset.toNat
  source_le : s.copyBase.toNat + s.copyOffset.toNat ≤ s.olen.toNat

theorem State.OperationBounds.putByte_olen {s : State} (h : s.OperationBounds) (v : Byte)
    (hcap : s.olen.toNat ≠ s.cfg.outCap) : (s.putByte v).olen.toNat = s.olen.toNat + 1 := by
  have hle := h.olen_le
  have hlt := Config.wf_outCap h.config
  show (s.olen + 1).toNat = s.olen.toNat + 1
  bv_omega

theorem State.CopyBounds.putByte {s : State} (h : s.CopyBounds) (v : Byte) (hx : s.expReached = false)
    (hcap : s.olen.toNat ≠ s.cfg.outCap) : (s.putByte v).CopyBounds := by
  refine ⟨h.operation.putByte v hx hcap, h.offset_pos, ?_⟩
  rw [h.operation.putByte_olen v hcap]
  exact Nat.le_succ_of_le h.source_le

theorem State.CopyBounds.countCopy {s : State} (h : s.CopyBounds) : s.countCopy.CopyBounds :=
  ⟨operationBounds_rules.countCopy h.operation, h.offset_pos, h.source_le⟩

/-- R43: the copy's next source byte has been written. -/
theorem State.CopyBounds.source_written {s : State} (h : s.CopyBounds) :
    (Memory.read s.outBuf s.copySource).isSome = true := by
  refine h.operation.written _ (Nat.lt_of_lt_of_le ?_ h.source_le)
  exact Nat.add_lt_add_left (Nat.mod_lt _ h.offset_pos) _

/-- The offset check of R178 puts the copy's source below `olen`. -/
theorem State.OperationBounds.beginCopy {s : State} (h : s.OperationBounds) {x : BitVec 12}
    (hx : badOffset (brefOffset x) s = false) (l : Nat) : (s.beginCopy (brefOffset x) l).CopyBounds := by
  have hpos : 1 ≤ brefOffset x := by unfold brefOffset; omega
  have hmax : brefOffset x ≤ 4096 := by unfold brefOffset; omega
  have hle : brefOffset x ≤ s.olen.toNat := by simp [badOffset] at hx; exact hx.2
  have hoffset : (BitVec.ofNat 13 (brefOffset x)).toNat = brefOffset x := by
    rw [BitVec.toNat_ofNat]; omega
  refine ⟨operationBounds_rules.beginCopy _ l h, hoffset.symm ▸ hpos, ?_⟩
  show (s.olen - BitVec.ofNat 32 (brefOffset x)).toNat + (BitVec.ofNat 13 (brefOffset x)).toNat ≤ s.olen.toNat
  rw [hoffset]
  bv_omega

theorem copyByte_runs {s : State} (h : s.CopyBounds) : (copyByte s).Runs State.CopyBounds := by
  rcases copyByte_cases s with ⟨hnone, -⟩ | ⟨v, -, e⟩
  · have hsome := h.source_written
    rw [hnone] at hsome
    cases hsome
  · rw [e]
    exact (append_runs (h.putByte v)).andThen fun _ ht => ht.countCopy

theorem copyBytes_runs (k : Nat) {s : State} (h : s.CopyBounds) : (copyBytes k s).Runs State.CopyBounds := by
  induction k generalizing s with
  | zero => exact h
  | succ k ih => exact (copyByte_runs h).andThen fun _ ht => ih ht

theorem finishCopy_answers {s : State} (h : s.CopyBounds) : ∃ t, finishCopy s = .next t :=
  (copyBytes_runs _ h).endOp

theorem execBref_answers {s : State} (h : s.OperationBounds) (hip : s.ip ≠ s.il) (d : Nibble) (x : BitVec 12) :
    ∃ t, execBref d x s = .next t := by
  simp only [execBref]
  split_ifs with h1 h2
  · exact ⟨_, rfl⟩
  · exact ⟨_, rfl⟩
  · exact finishCopy_answers ((h.readTwo hip h1).beginCopy (Bool.not_eq_true _ ▸ h2) _)

theorem slotOperation_answers {s : State} (h : s.OperationBounds) (hip : s.ip ≠ s.il) {i : Instr}
    (hi : SlotOperation i) : ∃ t, exec i s = .next t := by
  cases hi with
  | lit v => exact (append_runs_always v _).endOp
  | nib k p => rw [exec_nibInstr]; exact (appendPair_runs_always _ _).endOp
  | bref d x => exact execBref_answers h hip d x

/-- The engine's step answers a next state, or faults at an IN byte that nothing has written. -/
def AnswersUnlessUnwritten (s : State) (r : Result) : Prop :=
  (∃ t, r = .next t) ∨ ∃ a, r = .fault (.unwrittenIn a) ∧ Memory.read s.inBuf a = none

theorem fetchedOf_ne_fault (c : Context) (bytes : List Byte) (f : Fault) : fetchedOf c bytes ≠ .fault f := by
  unfold fetchedOf
  split <;> nofun

/-- A fetch faults only at an IN byte that nothing has written. -/
theorem fetch_fault {c : Context} {s : State} {f : Fault} (h : fetch c s = .fault f) :
    ∃ a, f = .unwrittenIn a ∧ Memory.read s.inBuf a = none := by
  unfold fetch at h
  split at h
  · next e => cases h; exact ⟨_, rfl, by simpa [State.streamByte] using e⟩
  · split_ifs at h
    · exact absurd h (fetchedOf_ne_fault _ _ _)
    · split at h
      · next e => cases h; exact ⟨_, rfl, e⟩
      · exact absurd h (fetchedOf_ne_fault _ _ _)

theorem decodeControl_answers (s : State) : AnswersUnlessUnwritten s (decodeControl s) := by
  unfold decodeControl
  split
  · exact .inl ⟨_, rfl⟩
  · rcases fetch_control_cases s with ⟨f, e⟩ | ⟨b, e⟩ <;> rw [e]
    · obtain ⟨a, rfl, ha⟩ := fetch_fault e
      exact .inr ⟨a, rfl, ha⟩
    · exact .inl ⟨_, rfl⟩

theorem decodeSlot_answers {s : State} (h : s.OperationBounds) : AnswersUnlessUnwritten s (decodeSlot s) := by
  unfold decodeSlot
  split
  · exact .inl ⟨_, rfl⟩
  · next hstop =>
    obtain ⟨-, hip⟩ := State.stopTest_none hstop
    cases e : fetch s.slotContext s with
    | instr i =>
      obtain ⟨bytes, rest, hdec⟩ := fetch_instr e
      exact .inl (slotOperation_answers (operationBounds_rules.markOp h) hip (decode_slotOperation hdec))
    | truncated => exact .inl ⟨_, rfl⟩
    | fault f =>
      obtain ⟨a, rfl, ha⟩ := fetch_fault e
      exact .inr ⟨a, rfl, ha⟩

theorem inputBytes_error {s : State} {a : Nat} (h : s.inputBytes = .error a) : Memory.read s.inBuf a = none :=
  (Memory.readBytes_error h).2.2

theorem encParse_answers (s : State) : AnswersUnlessUnwritten s (encParse s) := by
  unfold encParse
  split
  · next a e => exact .inr ⟨a, rfl, inputBytes_error e⟩
  · exact .inl ⟨_, rfl⟩

theorem encCheck_answers (s : State) : AnswersUnlessUnwritten s (encCheck s) := by
  unfold encCheck
  split
  · exact .inl ⟨_, rfl⟩
  · split
    · next a e => exact .inr ⟨a, rfl, inputBytes_error e⟩
    · exact .inl ⟨_, rfl⟩

/-- Inside its bounds the engine never reads an unwritten OUT byte and never refuses (R43, R53). -/
theorem engineStep_answers {s : State} (h : s.EngineBounds) : AnswersUnlessUnwritten s (engineStep s) := by
  have hop := h.operation
  cases hp : s.phase <;> rw [engineStep_eq hp]
  case idle => exact .inl ⟨s, rfl⟩
  case decCtrl => exact decodeControl_answers s
  case decSlot => exact decodeSlot_answers (hop (by simp [State.inDecode, hp]))
  case decCopy =>
    have hd : s.inDecode = true := by simp [State.inDecode, hp]
    obtain ⟨hpos, hle⟩ := (h.decode hd).copy_source hp
    exact .inl (finishCopy_answers ⟨hop hd, hpos, hle⟩)
  case encParse => exact encParse_answers s
  case encCheck => exact encCheck_answers s
  case encEmit => exact .inl ⟨_, rfl⟩

/-! ## The host's accesses (R40, R45, R51) -/

theorem badAccess_iff {offset width : Nat} : badAccess offset width = true ↔ width ≠ 4 ∨ offset % 4 ≠ 0 := by
  simp [badAccess]

theorem inWrite_idle {a : Nat} {s : State} (hb : s.busy = false) (ha : a < s.cfg.inCap) (v : Byte) :
    inWrite a v s = .next { s with inBuf := Memory.write s.inBuf a v } := by
  simp [inWrite, hb, Nat.not_le.mpr ha]

theorem outWrite_idle {a : Nat} {s : State} (hb : s.busy = false) (ha : a < s.cfg.outCap) (v : Byte) :
    outWrite a v s = .next { s with outBuf := Memory.write s.outBuf a v } := by
  simp [outWrite, hb, Nat.not_le.mpr ha]

end Sys2Proof.Machine

namespace Sys2Proof.Proofs

open Sys2Proof Sys2Proof.Machine

/-- Settles O52, by the cases of a step. -/
theorem stepKeepsBuffersCanonical : Obligations.StepKeepsBuffersCanonical :=
  fun _ _ hs ht => (step_case ht).buffersCanonical hs

/-- Settles O56, by the phases of the engine: inside the bounds a copy's source lies below `olen`. -/
theorem engineFaultsOnlyOnUnwrittenInput : Obligations.EngineFaultsOnlyOnUnwrittenInput := by
  intro s hs
  rcases engineStep_answers hs with ⟨t, e⟩ | ⟨a, e, ha⟩ <;> rw [e]
  · exact ⟨nofun, nofun⟩
  · refine ⟨fun f hf => ?_, nofun⟩
    cases hf
    exact ⟨a, rfl, ha⟩

/-- Settles O57, by the phases of the engine. -/
theorem engineNeverWritesInput : Obligations.EngineNeverWritesInput := by
  intro s t ht
  have hhost := engineStep_hostSide ht
  have hregs : s.inDecode = true → t.encoderRegisters = s.encoderRegisters := fun hd => (decodeStep_keeps hd ht).2
  simp only [State.hostSide, State.encoderRegisters, Prod.mk.injEq] at hhost hregs
  simpa only [and_assoc] using And.intro hhost hregs

/-- Settles O35, by the host's moves. -/
theorem hostBufferAndAccessRules : Obligations.HostBufferAndAccessRules := by
  intro s a width v w rest
  refine ⟨fun hbad hs => ?_, fun hbad hs => ?_, fun hb hs => ?_, fun hb hs => ?_, fun hb ha hs => ?_,
    fun hb ha hs => ?_⟩ <;> rw [step_hostTurn hs]
  · exact if_pos (badAccess_iff.mpr hbad)
  · exact if_pos (badAccess_iff.mpr hbad)
  · exact if_pos hb
  · exact if_pos hb
  · exact ⟨_, inWrite_idle (s := { s with schedule := rest }) hb ha v, rfl, Memory.read_write_same _ a v,
      fun b hne => Memory.read_write_other _ a b v hne⟩
  · exact ⟨_, outWrite_idle (s := { s with schedule := rest }) hb ha v, rfl, Memory.read_write_same _ a v,
      fun b hne => Memory.read_write_other _ a b v hne⟩

end Sys2Proof.Proofs


/-! # What a slot's bytes decode to (R62, R66 to R68) -/

namespace Sys2Proof

/-! ## A special operation, by the search of the flag table -/

theorem decode_special_of_index {ft : FlagTable} {b : Byte} {k : Fin 9} (h : flagIndex ft (hi b) = some k)
    (rest : List Byte) : decode (.slot false ft) (b :: rest) = .ok (nibInstr k (lo b), rest) := by
  simp [decode, decodeSpecial, h]

theorem decode_special_of_noIndex {ft : FlagTable} {b : Byte} (h : flagIndex ft (hi b) = none)
    (b2 : Byte) (rest : List Byte) :
    decode (.slot false ft) (b :: b2 :: rest) = .ok (.bref (hi b) (lo b ++ b2), rest) := by
  simp [decode, decodeSpecial, h]

theorem decode_special_truncated {ft : FlagTable} {b : Byte} (h : flagIndex ft (hi b) = none) :
    decode (.slot false ft) [b] = .error .missingSecondByte := by
  simp [decode, decodeSpecial, h]

theorem nibInstr_ne_bref (k : Fin 9) (p d : Nibble) (x : BitVec 12) : nibInstr k p ≠ .bref d x := by
  match k with
  | 0 | 1 | 2 | 3 | 4 | 5 | 6 | 7 | 8 => nofun

theorem decode_special_eq_nib_iff {ft : FlagTable} {b : Byte} {rest : List Byte} {k : Fin 9} :
    decode (.slot false ft) (b :: rest) = .ok (nibInstr k (lo b), rest) ↔ flagIndex ft (hi b) = some k := by
  refine ⟨fun h => ?_, fun h => decode_special_of_index h rest⟩
  cases hidx : flagIndex ft (hi b) with
  | some j =>
    rw [decode_special_of_index hidx] at h
    obtain ⟨hinstr, -⟩ := Prod.mk.inj (Except.ok.inj h)
    rw [(nibInstr_inj hinstr).1]
  | none =>
    cases rest with
    | nil => rw [decode_special_truncated hidx] at h; cases h
    | cons b2 rest =>
      rw [decode_special_of_noIndex hidx] at h
      obtain ⟨hinstr, -⟩ := Prod.mk.inj (Except.ok.inj h)
      exact absurd hinstr.symm (nibInstr_ne_bref k _ _ _)

/-- A BREF's operands are the fields of the two bytes it was read from (R65). -/
theorem bref_operands_of_decode {ft : FlagTable} {b b2 : Byte} {rest rest' : List Byte} {d : Nibble}
    {x : BitVec 12} (h : decode (.slot false ft) (b :: b2 :: rest) = .ok (.bref d x, rest')) :
    d = hi b ∧ x = lo b ++ b2 := by
  cases hidx : flagIndex ft (hi b) with
  | some k =>
    rw [decode_special_of_index hidx] at h
    obtain ⟨hinstr, -⟩ := Prod.mk.inj (Except.ok.inj h)
    exact absurd hinstr (nibInstr_ne_bref k _ d x)
  | none =>
    rw [decode_special_of_noIndex hidx] at h
    cases h
    exact ⟨rfl, rfl⟩

/-! ## The flag table's entries (R68, R186) -/

theorem Nine.get_eq_getElem_toList {α : Type} (t : Nine α) (k : Fin 9) : t.get k = t.toList[k.val]'k.isLt := by
  match k with
  | 0 | 1 | 2 | 3 | 4 | 5 | 6 | 7 | 8 => rfl

theorem legalFlags_get_inj {ft : FlagTable} (h : Machine.legalFlags ft = true) {j k : Fin 9}
    (hjk : ft.get j = ft.get k) : j = k := by
  obtain ⟨-, hnodup⟩ := Bool.and_eq_true_iff.mp h
  rw [Nine.get_eq_getElem_toList, Nine.get_eq_getElem_toList] at hjk
  exact Fin.ext ((of_decide_eq_true hnodup).getElem_inj_iff.mp hjk)

theorem ne_setWidth_of_above_nibble {v : Byte} (hv : 15 < v.toNat) (h : Nibble) : v ≠ h.setWidth 8 := by
  rintro rfl
  rw [BitVec.toNat_setWidth] at hv
  omega

end Sys2Proof

namespace Sys2Proof.Machine

/-! ## A back-reference's operands (R66, R67) -/

/-- The offset by the parts of its 12-bit field (R66). -/
theorem brefOffset_append (h : Nibble) (b2 : Byte) : brefOffset (h ++ b2) = 4096 - h.toNat * 256 - b2.toNat := by
  rw [brefOffset, BitVec.toNat_append, ← Nat.shiftLeft_add_eq_or_of_lt b2.isLt, Nat.shiftLeft_eq, Nat.sub_add_eq]

theorem brefOffset_range (x : BitVec 12) : 1 ≤ brefOffset x ∧ brefOffset x ≤ 4096 := by
  unfold brefOffset
  omega

theorem brefLength_range (d : Nibble) : 3 ≤ brefLength d ∧ brefLength d ≤ 18 := by
  unfold brefLength
  omega

end Sys2Proof.Machine

namespace Sys2Proof.Proofs

open Sys2Proof Sys2Proof.Machine

/-- Settles O5: the decoder takes the NIB that the search of the flag table finds. -/
theorem nibIndexIsLeastMatch : Obligations.NibIndexIsLeastMatch := by
  intro ft b rest
  refine ⟨fun k => ?_, fun hlegal j k hj hk => ?_, fun k hk => ?_⟩
  · exact decode_special_eq_nib_iff.trans flagIndex_eq_some_iff
  · exact legalFlags_get_inj hlegal (hj.trans hk.symm)
  · exact ne_setWidth_of_above_nibble hk (hi b)

/-- Settles O6, by the control bit and then by the search of the flag table. -/
theorem slotClassification : Obligations.SlotClassification := by
  intro ctrl slot ft b b2 rest
  refine ⟨fun hbit => ?_, fun hbit hmatch => ?_, fun hbit hnone => ?_⟩ <;> rw [hbit]
  · exact decode_lit rfl b rest
  · cases hidx : flagIndex ft (hi b) with
    | some k => exact ⟨k, decode_special_of_index hidx rest⟩
    | none =>
      obtain ⟨k, hk⟩ := hmatch
      exact absurd hk (flagIndex_none hidx k)
  · have hidx := flagIndex_eq_none_iff.mpr hnone
    exact ⟨decode_special_of_noIndex hidx b2 rest, decode_special_truncated hidx⟩

/-- Settles O7: a decoded BREF holds the fields of its two bytes. -/
theorem backReferenceOperands : Obligations.BackReferenceOperands := by
  intro ft b b2 d x h
  obtain ⟨rfl, rfl⟩ := bref_operands_of_decode h
  obtain ⟨hoff, hoff'⟩ := brefOffset_range (lo b ++ b2)
  exact ⟨brefOffset_append (lo b) b2, hoff, hoff', rfl, brefLength_range (hi b)⟩

/-- Settles O41, by the induction over the buffered groups of `emitGroups_length`. -/
theorem streamSizeFormula : Obligations.StreamSizeFormula := emitStream_length

/-- Settles O1: each of the nine byte sequences is evaluated. -/
theorem sampleBytesDecodeAsWritten : Obligations.SampleBytesDecodeAsWritten :=
  ⟨rfl, rfl, rfl, rfl, rfl, rfl, rfl, rfl, rfl⟩

end Sys2Proof.Proofs


/-! # The nibble-pattern table: its inverse, and what NIB0 to NIB8 append (40_nibble_lut.md, R176) -/

namespace Sys2Proof.Machine

/-! ## The table, index by index (R81 to R89) -/

@[simp] theorem expand_zero (p : Nibble) : expand 0 p = (joinNibbles p p, joinNibbles p p) := rfl
@[simp] theorem expand_one (p : Nibble) : expand 1 p = expand 0 (nibbleInc p) := rfl
@[simp] theorem expand_two (p : Nibble) : expand 2 p = (joinNibbles p (nibbleDec p), joinNibbles p p) := rfl
@[simp] theorem expand_three (p : Nibble) : expand 3 p = (joinNibbles p p, joinNibbles (nibbleDec p) p) := rfl
@[simp] theorem expand_four (p : Nibble) : expand 4 p = (joinNibbles p p, joinNibbles p (nibbleDec p)) := rfl
@[simp] theorem expand_five (p : Nibble) : expand 5 p = expand 0 (nibbleDec p) := rfl
@[simp] theorem expand_six (p : Nibble) : expand 6 p = (joinNibbles p (nibbleInc p), joinNibbles p p) := rfl
@[simp] theorem expand_seven (p : Nibble) : expand 7 p = (joinNibbles p p, joinNibbles (nibbleInc p) p) := rfl
@[simp] theorem expand_eight (p : Nibble) : expand 8 p = (joinNibbles p p, joinNibbles p (nibbleInc p)) := rfl

@[simp] theorem nibbleInc_ne_self (p : Nibble) : nibbleInc p ≠ p := by
  unfold nibbleInc
  bv_omega

@[simp] theorem nibbleDec_ne_self (p : Nibble) : nibbleDec p ≠ p := by
  unfold nibbleDec
  bv_omega

@[simp] theorem nibbleInc_ne_nibbleDec (p : Nibble) : nibbleInc p ≠ nibbleDec p := by
  unfold nibbleInc nibbleDec
  bv_omega

/-! ## Soundness of `classify`: what it returns expands to the pair (R90 (a)) -/

/-- A pattern whose four nibbles are the pair's expands to the pair (R80). -/
theorem expand_eq_of_expandNibbles {f : Fin 9} {p : Nibble} {b0 b1 : Byte}
    (h : expandNibbles f p = (hi b0, lo b0, hi b1, lo b1)) : expand f p = (b0, b1) := by
  simp [expand, packNibbles, h]

/-- The odd nibble is one less or one more than the first, and the index says which. -/
theorem classifyOdd_eq_some {n0 nk : Nibble} {less more f : Fin 9} {p : Nibble}
    (h : classifyOdd n0 nk less more = some (f, p)) :
    p = n0 ∧ (f = less ∧ nk = nibbleDec n0 ∨ f = more ∧ nk = nibbleInc n0) := by
  unfold classifyOdd at h
  split_ifs at h with hdec hinc <;> cases h
  · exact ⟨rfl, .inl ⟨rfl, hdec⟩⟩
  · exact ⟨rfl, .inr ⟨rfl, hinc⟩⟩

theorem expandNibbles_of_classifyNibbles {n0 n1 n2 n3 : Nibble} {f : Fin 9} {p : Nibble}
    (h : classifyNibbles n0 n1 n2 n3 = some (f, p)) : expandNibbles f p = (n0, n1, n2, n3) := by
  unfold classifyNibbles at h
  split_ifs at h with hall hodd1 hodd2 hodd3
  · obtain ⟨rfl, rfl, rfl⟩ := hall
    cases h; rfl
  · obtain ⟨rfl, rfl⟩ := hodd1
    obtain ⟨rfl, ⟨rfl, rfl⟩ | ⟨rfl, rfl⟩⟩ := classifyOdd_eq_some h <;> rfl
  · obtain ⟨rfl, rfl⟩ := hodd2
    obtain ⟨rfl, ⟨rfl, rfl⟩ | ⟨rfl, rfl⟩⟩ := classifyOdd_eq_some h <;> rfl
  · obtain ⟨rfl, rfl⟩ := hodd3
    obtain ⟨rfl, ⟨rfl, rfl⟩ | ⟨rfl, rfl⟩⟩ := classifyOdd_eq_some h <;> rfl

theorem expand_of_classify {b0 b1 : Byte} {f : Fin 9} {p : Nibble} (h : classify b0 b1 = some (f, p)) :
    expand f p = (b0, b1) :=
  expand_eq_of_expandNibbles (expandNibbles_of_classifyNibbles h)

/-! ## Completeness of `classify`: every pattern of the table is found (R90 (b), (c)) -/

/-- Indices 1 and 5 give all-equal patterns, which index 0 gives too (R82, R86). -/
theorem exists_expand_eq_ne_one_ne_five (f : Fin 9) (p : Nibble) : ∃ g q, g ≠ 1 ∧ g ≠ 5 ∧ expand g q = expand f p := by
  by_cases h1 : f = 1
  · exact ⟨0, nibbleInc p, by decide, by decide, by rw [h1, expand_one]⟩
  by_cases h5 : f = 5
  · exact ⟨0, nibbleDec p, by decide, by decide, by rw [h5, expand_five]⟩
  exact ⟨f, p, h1, h5, rfl⟩

theorem classify_expand {f : Fin 9} (h1 : f ≠ 1) (h5 : f ≠ 5) (p : Nibble) :
    classify (expand f p).1 (expand f p).2 = some (f, p) := by
  match f with
  | 1 => exact absurd rfl h1
  | 5 => exact absurd rfl h5
  | 0 | 2 | 3 | 4 | 6 | 7 | 8 => simp [classify, classifyNibbles, classifyOdd]

theorem classify_eq_none_iff {b0 b1 : Byte} : classify b0 b1 = none ↔ ∀ f p, expand f p ≠ (b0, b1) := by
  refine ⟨fun hnone f p hexp => ?_, fun hexp => ?_⟩
  · obtain ⟨g, q, h1, h5, hgq⟩ := exists_expand_eq_ne_one_ne_five f p
    have hsome := classify_expand h1 h5 q
    rw [hgq, hexp, hnone] at hsome
    cases hsome
  · rw [Option.eq_none_iff_forall_ne_some]
    rintro ⟨f, p⟩ hsome
    exact hexp f p (expand_of_classify hsome)

/-- Where the first nibble is the odd one the pair has no entry (R90 (e)). -/
theorem classify_first_nibble_odd {b0 b1 : Byte} (h0 : hi b0 ≠ lo b0) (h2 : hi b1 = lo b0) (h3 : lo b1 = lo b0) :
    classify b0 b1 = none := by
  simp [classify, classifyNibbles, h2, h3, h0.symm]

/-! ## What a nibble pattern appends (R176) -/

theorem State.expReached_eq_false_iff {s : State} : s.expReached = false ↔ ¬ (s.xv = true ∧ s.olen = s.xl) := by
  simp [State.expReached]

theorem appendPair_room (b : Byte × Byte) {s : State} (h0 : s.expReached = false) (hc0 : s.olen.toNat ≠ s.cfg.outCap)
    (h1 : (s.putByte b.1).expReached = false) (hc1 : (s.olen + 1).toNat ≠ s.cfg.outCap) :
    appendPair b s = .go ((s.putByte b.1).putByte b.2) := by
  rw [appendPair, append_room h0 hc0]
  exact append_room h1 hc1

/-- The slot loop with its bound written out (R172). -/
theorem State.nextSlot_eq (s : State) : s.nextSlot = { s with
    slot := if s.slot < 7 then s.slot + 1 else 8
    phase := if s.slot < 7 then .decSlot else .decCtrl } := by
  have hslot : s.slot + 1 < Config.group ↔ s.slot < 7 := Nat.succ_lt_succ_iff
  simp only [State.nextSlot, hslot]
  rfl

/-- The state after a nibble pattern, its fields written out. -/
theorem nextSlot_putByte_putByte (b : Byte × Byte) (s : State) :
    (((s.advance 1).putByte b.1).putByte b.2).nextSlot = appendsTwo b.1 b.2 s := by
  have holen : s.olen + 1 + 1 = s.olen + 2 := BitVec.add_assoc s.olen 1 1
  simp only [State.nextSlot_eq, State.putByte, State.advance, appendsTwo, holen]

/-- A pattern appends its two bytes, where the expected length is reached before neither and OUT has room for
both. -/
theorem nibOp_room {s : State} (h0 : ¬ (s.xv = true ∧ s.olen = s.xl)) (h1 : ¬ (s.xv = true ∧ s.olen + 1 = s.xl))
    (hc0 : s.olen.toNat ≠ s.cfg.outCap) (hc1 : (s.olen + 1).toNat ≠ s.cfg.outCap) (k : Fin 9) (p : Nibble) :
    nibOp k p s = .next (appendsTwo (expand k p).1 (expand k p).2 s) := by
  have hpair := appendPair_room (expand k p) (s := s.advance 1) (State.expReached_eq_false_iff.mpr h0) hc0
    (State.expReached_eq_false_iff.mpr h1) hc1
  rw [nibOp, hpair, Flow.endOp_go, nextSlot_putByte_putByte]

end Sys2Proof.Machine

namespace Sys2Proof.Proofs

open Sys2Proof Sys2Proof.Machine

/-- Settles O36: `classify` is sound and complete for the patterns of `expand`. -/
theorem classifyInvertsExpand : Obligations.ClassifyInvertsExpand := by
  intro b0 b1
  refine ⟨fun f p h => ⟨expand_of_classify h, classify_flag h⟩, classify_eq_none_iff, ?_, ?_,
    classify_first_nibble_odd⟩
  · exact classify_expand (f := 2) (by decide) (by decide) 0#4
  · exact classify_expand (f := 6) (by decide) (by decide) 15#4

/-- Settles O14: each NIB appends the two bytes that the table gives for its index. -/
theorem nibAppendsItsPattern : Obligations.NibAppendsItsPattern := by
  intro p s h0 h1 hc0 hc1
  have happends := fun k => (exec_nibInstr k p s).trans (nibOp_room h0 h1 hc0 hc1 k p)
  exact ⟨happends 0, happends 1, happends 2, happends 3, happends 4, happends 5, happends 6, happends 7, happends 8⟩

end Sys2Proof.Proofs


/-! # The match finder: what it returns is a match, the longest and then the farthest (41_match_finder.md) -/

namespace Sys2Proof.Machine

/-- `len` bytes from `s` equal the `len` bytes from `pos`; the two ranges may overlap (R103, R104). -/
def MatchAt (D : List Byte) (s pos len : Nat) : Prop :=
  ∀ j, j < len → byteAt D (s + j) = byteAt D (pos + j)

theorem MatchAt.succ {D : List Byte} {s pos len : Nat} (h : MatchAt D s pos len)
    (hlast : byteAt D (s + len) = byteAt D (pos + len)) : MatchAt D s pos (len + 1) := by
  intro j hj
  rcases Nat.lt_succ_iff_lt_or_eq.mp hj with hlt | rfl
  · exact h j hlt
  · exact hlast

/-- Matching the bytes that lie `off` behind is repeating the `off` bytes before `pos` (R106). -/
theorem MatchAt.cyclic {D : List Byte} {pos off len : Nat} (h : MatchAt D (pos - off) pos len) (h1 : 1 ≤ off)
    (hpos : off ≤ pos) {j : Nat} (hj : j < len) : byteAt D (pos + j) = byteAt D (pos - off + j % off) := by
  induction j using Nat.strongRecOn with
  | ind j ih =>
    rcases Nat.lt_or_ge j off with hlt | hge
    · rw [Nat.mod_eq_of_lt hlt, h j hj]
    · have hback : pos - off + j = pos + (j - off) := by omega
      calc byteAt D (pos + j) = byteAt D (pos - off + j) := (h j hj).symm
        _ = byteAt D (pos + (j - off)) := by rw [hback]
        _ = byteAt D (pos - off + (j - off) % off) := ih (j - off) (by omega) (by omega)
        _ = byteAt D (pos - off + j % off) := by rw [← Nat.mod_eq_sub_mod hge]

/-! ## One candidate: its length is that of the longest match there (R103, R104) -/

theorem matchAt_extendMatch {D : List Byte} {s pos L : Nat} (k : Nat) (h : MatchAt D s pos L) :
    MatchAt D s pos (extendMatch D s pos k L) := by
  induction k generalizing L with
  | zero => exact h
  | succ k ih =>
    rw [extendMatch]
    split
    · next heq => exact ih (h.succ heq)
    · exact h

theorem start_le_extendMatch (D : List Byte) (s pos k L : Nat) : L ≤ extendMatch D s pos k L := by
  induction k generalizing L with
  | zero => exact Nat.le_refl L
  | succ k ih =>
    rw [extendMatch]
    split
    · exact (Nat.le_succ L).trans (ih (L + 1))
    · exact Nat.le_refl L

theorem le_extendMatch {D : List Byte} {s pos k L len : Nat} (h : MatchAt D s pos len) (hL : L ≤ len)
    (hlen : len ≤ L + k) : len ≤ extendMatch D s pos k L := by
  induction k generalizing L with
  | zero => exact hlen
  | succ k ih =>
    rcases Nat.eq_or_lt_of_le hL with rfl | hlt
    · exact start_le_extendMatch D s pos (k + 1) L
    · rw [extendMatch, if_pos (h L hlt)]
      exact ih hlt (by omega)

theorem matchAt_candidateLength (D : List Byte) (s pos maxlen : Nat) :
    MatchAt D s pos (candidateLength D s pos maxlen) := by
  unfold candidateLength
  split
  · next hbegin =>
    obtain ⟨h0, h1, h2⟩ := hbegin
    have hnone : MatchAt D s pos 0 := fun _ hj => absurd hj (Nat.not_lt_zero _)
    exact matchAt_extendMatch _ (((hnone.succ h0).succ h1).succ h2)
  · exact fun _ hj => absurd hj (Nat.not_lt_zero _)

theorem le_candidateLength {D : List Byte} {s pos maxlen len : Nat} (h : MatchAt D s pos len)
    (h3 : Config.minMatch ≤ len) (hlen : len ≤ maxlen) : len ≤ candidateLength D s pos maxlen := by
  have hbegin : ∀ j, j < 3 → byteAt D (s + j) = byteAt D (pos + j) := fun j hj => h j (hj.trans_le h3)
  rw [candidateLength, if_pos ⟨hbegin 0 (by decide), hbegin 1 (by decide), hbegin 2 (by decide)⟩]
  exact le_extendMatch h h3 (by omega)

/-! ## The scan of the window: a strictly longer match replaces the best so far (R103, R105) -/

/-- The scan answers the match it began with, or a strictly longer candidate of its window. -/
theorem scanWindow_eq_best_or_candidate (D : List Byte) (pos maxlen k : Nat) (best : Nat × Nat) :
    scanWindow D pos maxlen k best = best ∨
      ∃ o, 1 ≤ o ∧ o ≤ k ∧ best.2 < candidateLength D (pos - o) pos maxlen ∧
        scanWindow D pos maxlen k best = (o, candidateLength D (pos - o) pos maxlen) := by
  induction k generalizing best with
  | zero => exact .inl rfl
  | succ k ih =>
    rw [scanWindow]
    split_ifs with hlonger hstop
    · exact .inr ⟨k + 1, Nat.succ_pos k, Nat.le_refl _, hlonger, rfl⟩
    · rcases ih (k + 1, candidateLength D (pos - (k + 1)) pos maxlen) with e | ⟨o, h1, hk, hlt, e⟩
      · exact .inr ⟨k + 1, Nat.succ_pos k, Nat.le_refl _, hlonger, e⟩
      · exact .inr ⟨o, h1, Nat.le_succ_of_le hk, hlonger.trans hlt, e⟩
    · rcases ih best with e | ⟨o, h1, hk, hlt, e⟩
      · exact .inl e
      · exact .inr ⟨o, h1, Nat.le_succ_of_le hk, hlt, e⟩

/-- `m` gives way to `r`: it is shorter, or as long and not farther back (R105). -/
def YieldsTo (m r : Nat × Nat) : Prop := m.2 < r.2 ∨ m.2 = r.2 ∧ m.1 ≤ r.1

theorem YieldsTo.of_le {o p L M : Nat} (hL : L ≤ M) (ho : o ≤ p) : YieldsTo (o, L) (p, M) :=
  (Nat.lt_or_eq_of_le hL).imp_right fun heq => ⟨heq, ho⟩

theorem YieldsTo.trans {m r t : Nat × Nat} (h : YieldsTo m r) (h' : YieldsTo r t) : YieldsTo m t := by
  unfold YieldsTo at *
  omega

theorem best_yieldsTo_scanWindow (D : List Byte) (pos maxlen k : Nat) (best : Nat × Nat) :
    YieldsTo best (scanWindow D pos maxlen k best) := by
  rcases scanWindow_eq_best_or_candidate D pos maxlen k best with e | ⟨o, -, -, hlt, e⟩ <;> rw [e]
  · exact .inr ⟨rfl, Nat.le_refl _⟩
  · exact .inl hlt

/-- Every candidate longer than the match the scan began with gives way to its answer; the early stop loses
none, because no candidate is longer than 18. -/
theorem candidate_yieldsTo_scanWindow (D : List Byte) (pos : Nat) {maxlen : Nat} (h3 : Config.minMatch ≤ maxlen)
    (h18 : maxlen ≤ Config.maxMatch) {k o : Nat} (ho : o ≤ k) (h1 : 1 ≤ o) {best : Nat × Nat}
    (hbest : best.2 < candidateLength D (pos - o) pos maxlen) :
    YieldsTo (o, candidateLength D (pos - o) pos maxlen) (scanWindow D pos maxlen k best) := by
  induction k generalizing best with
  | zero => omega
  | succ k ih =>
    rw [scanWindow]
    split_ifs with hlonger hstop
    · rw [hstop]
      exact .of_le ((candidateLength_le D (pos - o) pos h3).trans h18) ho
    · rcases Nat.lt_or_ge (candidateLength D (pos - (k + 1)) pos maxlen) (candidateLength D (pos - o) pos maxlen)
        with hlt | hge
      · have hne : o ≠ k + 1 := by rintro rfl; exact Nat.lt_irrefl _ hlt
        exact ih (by omega) hlt
      · exact (YieldsTo.of_le hge ho).trans (best_yieldsTo_scanWindow ..)
    · have hne : o ≠ k + 1 := by rintro rfl; exact hlonger hbest
      exact ih (by omega) hbest

/-! ## The match returned -/

theorem findMatch_eq_some {D : List Byte} {pos off len : Nat} (h : findMatch D pos = some (off, len)) :
    off ≤ min pos Config.window ∧
      len = candidateLength D (pos - off) pos (min Config.maxMatch (D.length - pos)) := by
  simp only [findMatch] at h
  split_ifs at h with hmax hbest
  have hscan := Option.some.inj h
  rcases scanWindow_eq_best_or_candidate D pos (min Config.maxMatch (D.length - pos)) (min pos Config.window) (0, 0)
    with e | ⟨o, -, ho, -, e⟩
  · rw [e] at hbest; exact absurd hbest (by decide)
  · obtain ⟨rfl, rfl⟩ := Prod.mk.inj (e.symm.trans hscan)
    exact ⟨ho, rfl⟩

theorem matchAt_of_findMatch {D : List Byte} {pos off len : Nat} (h : findMatch D pos = some (off, len)) :
    MatchAt D (pos - off) pos len := by
  rw [(findMatch_eq_some h).2]
  exact matchAt_candidateLength D (pos - off) pos _

/-- A match inside the window and the lookahead gives way to the one returned. -/
theorem MatchAt.yieldsTo_findMatch {D : List Byte} {pos off len : Nat} (h : MatchAt D (pos - off) pos len)
    (h1 : 1 ≤ off) (hwin : off ≤ min pos Config.window) (h3 : Config.minMatch ≤ len)
    (hmax : len ≤ min Config.maxMatch (D.length - pos)) :
    ∃ r, findMatch D pos = some r ∧ YieldsTo (off, len) r := by
  have hcand := le_candidateLength h h3 hmax
  have hpos : 0 < candidateLength D (pos - off) pos (min Config.maxMatch (D.length - pos)) :=
    (Nat.lt_of_lt_of_le (by decide) h3).trans_le hcand
  have hyields := (YieldsTo.of_le hcand (Nat.le_refl off)).trans
    (candidate_yieldsTo_scanWindow D pos (h3.trans hmax) (Nat.min_le_left ..) hwin h1 (best := (0, 0)) hpos)
  have hlen := h3.trans (hyields.elim Nat.le_of_lt fun he => Nat.le_of_eq he.1)
  exact ⟨_, by simp only [findMatch, if_neg (Nat.not_lt.mpr (h3.trans hmax)), if_pos hlen], hyields⟩

end Sys2Proof.Machine

namespace Sys2Proof.Proofs

open Sys2Proof Sys2Proof.Machine

/-- Settles O37: the match returned is a candidate of the window with its length, and a match is cyclic. -/
theorem matchFinderIsSound : Obligations.MatchFinderIsSound := by
  intro D pos off len _ hfind
  obtain ⟨h3, h18, hin, h1, -⟩ := findMatch_range hfind
  obtain ⟨hwin, -⟩ := findMatch_eq_some hfind
  have hmatch := matchAt_of_findMatch hfind
  exact ⟨h3, Nat.le_min.mpr ⟨h18, hin⟩, h1, hwin, hmatch,
    fun j hj => hmatch.cyclic h1 (hwin.trans (Nat.min_le_left ..)) hj⟩

/-- Settles O38: the match given is a candidate of the window, and the scan's answer is not beaten by one. -/
theorem matchFinderIsLongestAndLeftmost : Obligations.MatchFinderIsLongestAndLeftmost := by
  intro D pos off k h1 hwin hmax h3 hmatch
  obtain ⟨⟨bestOff, bestLen⟩, hfind, hyields⟩ := MatchAt.yieldsTo_findMatch hmatch h1 hwin h3 hmax
  refine ⟨bestOff, bestLen, hfind, ?_⟩
  rcases hyields with hlt | ⟨heq, hoff⟩
  · exact ⟨Nat.le_of_lt hlt, fun heq => absurd heq (Nat.ne_of_lt hlt)⟩
  · exact ⟨Nat.le_of_eq heq, fun _ => hoff⟩

end Sys2Proof.Proofs


/-! # The control-flag allocator: the clamp, and the flags left outside the LengthSet (42_flag_allocator.md) -/

namespace Sys2Proof

/-! ## A nine-entry table, index by index -/

@[simp] theorem Nine.get_map {α β : Type} (f : α → β) (t : Nine α) (k : Fin 9) : (t.map f).get k = f (t.get k) := by
  match k with
  | 0 | 1 | 2 | 3 | 4 | 5 | 6 | 7 | 8 => rfl

@[simp] theorem Nine.get_ofList {α : Type} (d : α) (l : List α) (k : Fin 9) :
    (Nine.ofList d l).get k = l.getD k.val d := by
  match k with
  | 0 | 1 | 2 | 3 | 4 | 5 | 6 | 7 | 8 => rfl

theorem Nine.toList_eq_ofFn {α : Type} (t : Nine α) : t.toList = List.ofFn t.get := rfl

theorem Nine.all_toList_iff {α : Type} (t : Nine α) (p : α → Bool) :
    t.toList.all p = true ↔ ∀ k, p (t.get k) = true := by
  rw [t.toList_eq_ofFn, List.all_eq_true, List.forall_mem_ofFn_iff]

theorem Nine.nodup_toList_iff {α : Type} (t : Nine α) : t.toList.Nodup ↔ Function.Injective t.get := by
  rw [t.toList_eq_ofFn, List.nodup_ofFn]

end Sys2Proof

namespace Sys2Proof.Machine

/-! ## The three answers of an allocation (R121) -/

theorem alloc_of_member {ls : BitVec 16} {d : Nat} (h : lsMember ls d = true) : alloc ls d = (ls, d) := if_pos h

theorem alloc_of_room {ls : BitVec 16} {d : Nat} (h : lsMember ls d = false) (hroom : lsSize ls < Config.lsCap) :
    alloc ls d = (lsInsert ls d, d) := by
  rw [alloc, if_neg (Bool.eq_false_iff.mp h), if_pos hroom]

theorem alloc_of_full {ls : BitVec 16} {d : Nat} (h : lsMember ls d = false) (hfull : Config.lsCap ≤ lsSize ls) :
    alloc ls d = (ls, clampDown ls d) := by
  rw [alloc, if_neg (Bool.eq_false_iff.mp h), if_neg (Nat.not_lt.mpr hfull)]

theorem alloc_snd_eq {ls : BitVec 16} {d : Nat} (h : lsMember ls d = true ∨ lsSize ls < Config.lsCap) :
    (alloc ls d).2 = d := by
  cases hm : lsMember ls d with
  | true => rw [alloc_of_member hm]
  | false => rw [alloc_of_room hm (h.resolve_left (Bool.eq_false_iff.mp hm))]

theorem alloc_fst_eq {ls : BitVec 16} {d : Nat} (h : lsMember ls d = true ∨ Config.lsCap ≤ lsSize ls) :
    (alloc ls d).1 = ls := by
  cases hm : lsMember ls d with
  | true => rw [alloc_of_member hm]
  | false => rw [alloc_of_full hm (h.resolve_left (Bool.eq_false_iff.mp hm))]

/-- The clamp answers the largest member not above `d` (R121). -/
theorem le_clampDown {ls : BitVec 16} {d e : Nat} (hle : e ≤ d) (he : lsMember ls e = true) : e ≤ clampDown ls d := by
  induction d with
  | zero => exact hle
  | succ d ih =>
    rw [clampDown]
    split
    · exact hle
    · next hd =>
      have hne : e ≠ d + 1 := by rintro rfl; exact hd he
      exact ih (by omega)

theorem le_alloc_snd {ls : BitVec 16} {d e : Nat} (hle : e ≤ d) (he : lsMember (alloc ls d).1 e = true) :
    e ≤ (alloc ls d).2 := by
  by_cases h : lsMember ls d = true ∨ lsSize ls < Config.lsCap
  · exact hle.trans_eq (alloc_snd_eq h).symm
  · rw [not_or, Bool.not_eq_true, Nat.not_lt] at h
    rw [alloc_of_full h.1 h.2] at he ⊢
    exact le_clampDown hle he

/-- An allocation gains at most the delta asked for (R121). -/
theorem lsMember_of_alloc {ls : BitVec 16} {d v : Nat} (hd : d ≤ 15) (hv : lsMember (alloc ls d).1 v = true) :
    lsMember ls v = true ∨ v = d := by
  by_cases h : lsMember ls d = true ∨ Config.lsCap ≤ lsSize ls
  · exact .inl (alloc_fst_eq h ▸ hv)
  · rw [not_or, Bool.not_eq_true, Nat.not_le] at h
    rw [alloc_of_room h.1 h.2, lsMember_insert ls hd] at hv
    simpa using hv

/-! ## The values outside the LengthSet (R124) -/

/-- The values 0..15 outside the LengthSet, ascending: what `lsComplement` holds as nibbles. -/
def freeValues (ls : BitVec 16) : List Nat := (List.range 16).filter (fun v => !lsMember ls v)

theorem lsComplement_eq_map (ls : BitVec 16) : lsComplement ls = (freeValues ls).map (BitVec.ofNat 4) := rfl

@[simp] theorem mem_freeValues {ls : BitVec 16} {v : Nat} : v ∈ freeValues ls ↔ v < 16 ∧ lsMember ls v = false := by
  simp [freeValues]

theorem freeValues_pairwise_lt (ls : BitVec 16) : (freeValues ls).Pairwise (· < ·) := List.pairwise_lt_range.filter _

/-- The LengthSet and its complement share out the sixteen nibble values (R126). -/
theorem lsSize_add_length_freeValues (ls : BitVec 16) : lsSize ls + (freeValues ls).length = 16 :=
  (List.length_eq_length_filter_add (l := List.range 16) (lsMember ls)).symm

theorem nine_le_length_freeValues {ls : BitVec 16} (h : lengthSetOk ls) : 9 ≤ (freeValues ls).length := by
  obtain ⟨-, -, hsize⟩ := h
  have := lsSize_add_length_freeValues ls
  simp only [Config.lsCap] at hsize
  omega

/-! ## The final ControlFlags (R124, R126) -/

/-- Flag `k` is the free value with index `k`: the complement has all nine, so none is the default. -/
theorem controlFlags_get_toNat {ls : BitVec 16} (h : lengthSetOk ls) (k : Fin 9) :
    ((controlFlags ls).get k).toNat = (freeValues ls)[k.val]'(k.isLt.trans_le (nine_le_length_freeValues h)) := by
  have hk := k.isLt.trans_le (nine_le_length_freeValues h)
  obtain ⟨hlt, -⟩ := mem_freeValues.mp (List.getElem_mem hk)
  rw [controlFlags, Nine.get_ofList, lsComplement_eq_map, List.getD_eq_getElem _ _ (by simpa using hk),
    List.getElem_map, BitVec.toNat_ofNat, Nat.mod_eq_of_lt hlt]

theorem controlFlags_strictMono {ls : BitVec 16} (h : lengthSetOk ls) :
    StrictMono fun k => ((controlFlags ls).get k).toNat := by
  intro j k hjk
  simp only [controlFlags_get_toNat h]
  exact List.pairwise_iff_getElem.mp (freeValues_pairwise_lt ls) _ _ _ _ hjk

theorem controlFlags_not_member {ls : BitVec 16} (h : lengthSetOk ls) (k : Fin 9) :
    lsMember ls ((controlFlags ls).get k).toNat = false := by
  rw [controlFlags_get_toNat h]
  exact (mem_freeValues.mp (List.getElem_mem _)).2

/-- A free value of index below nine is a flag. -/
theorem exists_controlFlag_of_index {ls : BitVec 16} (h : lengthSetOk ls) {i : Nat} (hi : i < (freeValues ls).length)
    (h9 : i < 9) : ∃ k : Fin 9, ((controlFlags ls).get k).toNat = (freeValues ls)[i] :=
  ⟨⟨i, h9⟩, controlFlags_get_toNat h _⟩

/-- A value outside the LengthSet is a flag, or every flag is smaller. -/
theorem exists_controlFlag_or_above {ls : BitVec 16} (h : lengthSetOk ls) {v : Nat} (hv : v ≤ 15)
    (hfree : lsMember ls v = false) :
    (∃ k : Fin 9, ((controlFlags ls).get k).toNat = v) ∨ ∀ k : Fin 9, ((controlFlags ls).get k).toNat < v := by
  obtain ⟨i, hi, rfl⟩ := List.getElem_of_mem (mem_freeValues.mpr ⟨Nat.lt_succ_of_le hv, hfree⟩)
  by_cases h9 : i < 9
  · exact .inl (exists_controlFlag_of_index h hi h9)
  · refine .inr fun k => ?_
    rw [controlFlags_get_toNat h]
    exact List.pairwise_iff_getElem.mp (freeValues_pairwise_lt ls) _ _ _ _ (by omega)

/-- A LengthSet of seven members leaves exactly the nine flags (R126). -/
theorem exists_controlFlag_of_full {ls : BitVec 16} (h : lengthSetOk ls) (hfull : lsSize ls = 7) {v : Nat}
    (hv : v ≤ 15) (hfree : lsMember ls v = false) : ∃ k : Fin 9, ((controlFlags ls).get k).toNat = v := by
  obtain ⟨i, hi, rfl⟩ := List.getElem_of_mem (mem_freeValues.mpr ⟨Nat.lt_succ_of_le hv, hfree⟩)
  have := lsSize_add_length_freeValues ls
  exact exists_controlFlag_of_index h hi (by omega)

/-! ## The flag table that the ControlFlags give (R19, R186, R261) -/

@[simp] theorem flagTableOfNibbles_get_toNat (cf : Nine Nibble) (k : Fin 9) :
    ((flagTableOfNibbles cf).get k).toNat = (cf.get k).toNat := by
  rw [flagTableOfNibbles, Nine.get_map, BitVec.toNat_setWidth_of_le (by decide)]

/-- A table of nibbles is legal where its entries differ: none is above 15 (R186). -/
theorem flagTableOfNibbles_legal {cf : Nine Nibble} (h : Function.Injective fun k => (cf.get k).toNat) :
    legalFlags (flagTableOfNibbles cf) = true := by
  rw [legalFlags, Bool.and_eq_true, decide_eq_true_iff, Nine.all_toList_iff, Nine.nodup_toList_iff]
  constructor
  · intro k
    rw [decide_eq_true_iff, flagTableOfNibbles_get_toNat]
    exact Nat.le_of_lt_succ (cf.get k).isLt
  · intro j k hjk
    have hnat := congrArg BitVec.toNat hjk
    rw [flagTableOfNibbles_get_toNat, flagTableOfNibbles_get_toNat] at hnat
    exact h hnat

theorem flagsValid_iff {t : FlagTable} {ls : BitVec 16} :
    flagsValid t ls = true ↔ legalFlags t = true ∧ ∀ k, lsMember ls (t.get k).toNat = false := by
  simp only [flagsValid, Bool.and_eq_true, Nine.all_toList_iff, Bool.not_eq_true']

theorem controlFlags_legal {ls : BitVec 16} (h : lengthSetOk ls) :
    legalFlags (flagTableOfNibbles (controlFlags ls)) = true :=
  flagTableOfNibbles_legal (controlFlags_strictMono h).injective

theorem controlFlags_flagsValid {ls : BitVec 16} (h : lengthSetOk ls) :
    flagsValid (flagTableOfNibbles (controlFlags ls)) ls = true := by
  refine flagsValid_iff.mpr ⟨controlFlags_legal h, fun k => ?_⟩
  rw [flagTableOfNibbles_get_toNat]
  exact controlFlags_not_member h k

end Sys2Proof.Machine

namespace Sys2Proof.Proofs

open Sys2Proof Sys2Proof.Machine

/-- Settles O39, by the three answers of an allocation; 15 is a member, so it is answered as it is. -/
theorem allocatorClampsDownOnly : Obligations.AllocatorClampsDownOnly := by
  intro ls d h hd
  obtain ⟨hok, hle, hmem, hgrow⟩ := alloc_allocated h hd
  obtain ⟨-, h15, -⟩ := h
  refine ⟨hok, hle, hmem, alloc_snd_eq, fun e => le_alloc_snd, alloc_fst_eq, fun v _ => hgrow v,
    fun v => lsMember_of_alloc hd, ?_⟩
  rintro rfl
  exact alloc_snd_eq (.inl h15)

/-- Settles O40: the flags are the first nine of the ascending list of values outside the LengthSet. -/
theorem controlFlagsAvoidLengthSet : Obligations.ControlFlagsAvoidLengthSet := by
  intro ls h
  refine ⟨fun j k hjk => controlFlags_strictMono h hjk, controlFlags_not_member h,
    fun v => exists_controlFlag_or_above h, fun hfull v hv => ?_, controlFlags_legal h, controlFlags_flagsValid h⟩
  cases hm : lsMember ls v with
  | true => exact .inl rfl
  | false => exact .inr (exists_controlFlag_of_full h hfull hv hm)

end Sys2Proof.Proofs


/-! # The encoder's command, its phases and its parse (43_encoder.md, R140 to R156) -/

namespace Sys2Proof.Machine

/-! ## ENCODE begins (R23, R141) -/

theorem exec_cmdEncode_begins {s : State} (hb : s.busy = false) (hin : s.inLen.toNat ≤ s.cfg.inCap) (e : Bool) :
    exec (.cmdEncode e) s = .next (s.latch 1 e).beginEncode := by
  have hc : startCheck (s.latch 1#2 e) = none := startCheck_none hin fun hmode =>
    absurd (show 1#2 = 0#2 from hmode) (by decide)
  simp only [exec, execCmdEncode, hb, hc]
  rfl

/-! ## The operation chosen, by the choice that applies (R142 to R146) -/

theorem chooseOp_of_match {D : List Byte} {pos off len : Nat} (h : findMatch D pos = some (off, len))
    (ls : BitVec 16) :
    chooseOp D pos ls = (.bref ((alloc ls (len - 3)).2 + 3) off, (alloc ls (len - 3)).1) := by
  simp only [chooseOp, h]
  rfl

theorem chooseOp_of_pattern {D : List Byte} {pos : Nat} (h : findMatch D pos = none) (hin : pos + 2 ≤ D.length)
    {f : Fin 9} {p : Nibble} (hc : classify (byteAt D pos) (byteAt D (pos + 1)) = some (f, p)) (ls : BitVec 16) :
    chooseOp D pos ls = (.nib f p, ls) := by
  by_cases hf : f = 0
  · simp [chooseOp, h, chooseNib0, hin, hc, hf]
  · simp [chooseOp, h, chooseNib0, chooseNib, hin, hc, hf]

theorem chooseOp_of_literal {D : List Byte} {pos : Nat} (h : findMatch D pos = none)
    (hc : D.length < pos + 2 ∨ classify (byteAt D pos) (byteAt D (pos + 1)) = none) (ls : BitVec 16) :
    chooseOp D pos ls = (.lit (byteAt D pos), ls) := by
  rcases hc with hend | hnone
  · simp [chooseOp, h, chooseNib0, chooseNib, chooseLit, Nat.not_le.mpr hend]
  · simp [chooseOp, h, chooseNib0, chooseNib, chooseLit, hnone]

/-! ## What an operation stands for, and the parse of an input (R142) -/

theorem MatchAt.of_le {D : List Byte} {s pos len k : Nat} (h : MatchAt D s pos len) (hk : k ≤ len) :
    MatchAt D s pos k := fun j hj => h j (hj.trans_le hk)

/-- The operation stands for the bytes of `D` from `pos` on: the literal's byte, the pattern's two bytes, or
bytes that equal those `offset` behind. -/
def Op.Spells (D : List Byte) (pos : Nat) (o : Op) : Prop :=
  match o with
  | .lit v => v = byteAt D pos
  | .nib f p => expand f p = (byteAt D pos, byteAt D (pos + 1))
  | .bref length offset => offset ≤ pos ∧ MatchAt D (pos - offset) pos length

/-- The operations stand for the bytes of `D` from `pos` to its end, one after the other. -/
def SpellsFrom (D : List Byte) (pos : Nat) (ops : List Op) : Prop :=
  match ops with
  | [] => pos = D.length
  | o :: rest => o.Spells D pos ∧ SpellsFrom D (pos + o.width) rest

@[simp] theorem opsWidth_cons (o : Op) (ops : List Op) : opsWidth (o :: ops) = o.width + opsWidth ops := rfl

theorem SpellsFrom.width {D : List Byte} {pos : Nat} {ops : List Op} (h : SpellsFrom D pos ops) :
    pos + opsWidth ops = D.length := by
  induction ops generalizing pos with
  | nil => exact h
  | cons o rest ih =>
    obtain ⟨-, hrest⟩ := h
    rw [opsWidth_cons, ← Nat.add_assoc]
    exact ih hrest

theorem Op.Allowed.width_pos {ls : BitVec 16} {o : Op} (h : o.Allowed ls) : 1 ≤ o.width := by
  cases o with
  | lit v => exact Nat.le_refl 1
  | nib f p => exact Nat.le_succ 1
  | bref length offset =>
    obtain ⟨h3, -⟩ := h
    exact Nat.le_trans (by decide) h3

theorem chooseOp_spells {D : List Byte} {pos : Nat} {ls : BitVec 16} (h : lengthSetOk ls) :
    (chooseOp D pos ls).1.Spells D pos := by
  cases hm : findMatch D pos with
  | some m =>
    obtain ⟨off, len⟩ := m
    obtain ⟨h3, h18, -⟩ := findMatch_range hm
    obtain ⟨hwin, -⟩ := findMatch_eq_some hm
    have hle := (alloc_allocated (d := len - 3) h (by simp only at h18; omega)).le
    rw [chooseOp_of_match hm]
    exact ⟨hwin.trans (Nat.min_le_left ..), (matchAt_of_findMatch hm).of_le (by simp only at h3; omega)⟩
  | none =>
    by_cases hend : D.length < pos + 2
    · rw [chooseOp_of_literal hm (.inl hend)]; rfl
    · cases hc : classify (byteAt D pos) (byteAt D (pos + 1)) with
      | none => rw [chooseOp_of_literal hm (.inr hc)]; rfl
      | some m =>
        rw [chooseOp_of_pattern hm (Nat.not_lt.mp hend) hc]
        exact expand_of_classify hc

theorem parseFrom_end {D : List Byte} {pos : Nat} (h : D.length ≤ pos) (k : Nat) (ls : BitVec 16) :
    parseFrom D k pos ls = ([], ls) := by
  cases k with
  | zero => rfl
  | succ k => rw [parseFrom, if_neg (Nat.not_lt.mpr h)]

theorem parseFrom_succ {D : List Byte} {pos : Nat} (h : pos < D.length) (k : Nat) (ls : BitVec 16) :
    parseFrom D (k + 1) pos ls =
      ((chooseOp D pos ls).1 ::
          (parseFrom D k (pos + (chooseOp D pos ls).1.width) (chooseOp D pos ls).2).1,
        (parseFrom D k (pos + (chooseOp D pos ls).1.width) (chooseOp D pos ls).2).2) := by
  rw [parseFrom, if_pos h]

/-- What the parse of `D` from `pos` on answers: operations that stand for the rest of `D` and that the
encoder may hold under the final LengthSet, which keeps its invariant and its members. -/
structure Parsed (D : List Byte) (pos : Nat) (ls : BitVec 16) (r : List Op × BitVec 16) : Prop where
  spells : SpellsFrom D pos r.1
  allowed : ∀ o ∈ r.1, o.Allowed r.2
  lengthSet : lengthSetOk r.2
  grows : ∀ v, lsMember ls v = true → lsMember r.2 v = true

theorem parseFrom_parsed {D : List Byte} {k pos : Nat} {ls : BitVec 16} (h : lengthSetOk ls)
    (hpos : pos ≤ D.length) (hk : D.length - pos ≤ k) : Parsed D pos ls (parseFrom D k pos ls) := by
  induction k generalizing pos ls with
  | zero =>
    rw [parseFrom_end (Nat.le_of_sub_eq_zero (Nat.le_zero.mp hk))]
    exact ⟨Nat.le_antisymm hpos (Nat.le_of_sub_eq_zero (Nat.le_zero.mp hk)), nofun, h, fun _ hv => hv⟩
  | succ k ih =>
    rcases Nat.lt_or_eq_of_le hpos with hlt | rfl
    · obtain ⟨hin, hallowed, hset, hgrows⟩ := chooseOp_chosen h hlt
      have hwidth := hallowed.width_pos
      obtain ⟨hspells', hallowed', hset', hgrows'⟩ := ih hset hin (by omega)
      rw [parseFrom_succ hlt]
      refine ⟨⟨chooseOp_spells h, hspells'⟩, fun o ho => ?_, hset', fun v hv => hgrows' v (hgrows v hv)⟩
      rcases List.mem_cons.mp ho with rfl | ho
      · exact hallowed.mono hgrows'
      · exact hallowed' o ho
    · rw [parseFrom_end (Nat.le_refl _)]
      exact ⟨rfl, nofun, h, fun _ hv => hv⟩

theorem parse_parsed (D : List Byte) : Parsed D 0 Config.lsSeed (parse D) :=
  parseFrom_parsed lengthSetOk_seed (Nat.zero_le _) (Nat.le_refl _)

/-! ## The steps of the three phases (R142, R148 to R150) -/

theorem engineStep_encParse {s : State} {D : List Byte} (hp : s.phase = .encParse) (hD : s.inputBytes = .ok D) :
    engineStep s = .next (parseStep D s) := by
  rw [engineStep_eq hp]
  show encParse s = _
  rw [encParse, hD]

theorem parseStep_push {s : State} (h : s.pos.toNat < s.n.toNat) (D : List Byte) :
    parseStep D s = s.pushOp (chooseOp D s.pos.toNat s.ls).1 (chooseOp D s.pos.toNat s.ls).2 := if_pos h

theorem parseStep_end {s : State} (h : s.n.toNat ≤ s.pos.toNat) (D : List Byte) : parseStep D s = s.endParse :=
  if_neg (Nat.not_lt.mpr h)

theorem engineStep_encCheck_reference {s : State} (hp : s.phase = .encCheck)
    (hm : s.cfg.encoderModel = .reference) : engineStep s = .next (encCheckReference s) := by
  rw [engineStep_eq hp]
  show encCheck s = _
  rw [encCheck, hm]

theorem encCheckReference_oversize {s : State} (h : 65535 < streamSize s.opbuf) :
    encCheckReference s = s.raiseEncode errSizeOverflow := if_pos h

theorem encCheckReference_full {s : State} (h : streamSize s.opbuf ≤ 65535)
    (hcap : s.cfg.outCap < streamSize s.opbuf) : encCheckReference s = s.raiseEncode errOutputOverflow :=
  (if_neg (Nat.not_lt.mpr h)).trans (if_pos hcap)

theorem encCheckReference_fits {s : State} (h : streamSize s.opbuf ≤ 65535)
    (hcap : streamSize s.opbuf ≤ s.cfg.outCap) : encCheckReference s = { s with olen := 0, phase := .encEmit } :=
  (if_neg (Nat.not_lt.mpr h)).trans (if_neg (Nat.not_lt.mpr hcap))

end Sys2Proof.Machine

namespace Sys2Proof.Proofs

open Sys2Proof Sys2Proof.Machine

/-- Settles O26. -/
theorem cmdEncodeStarts : Obligations.CmdEncodeStarts := by
  intro e s hb hin
  rw [startedState_eq_latch]
  exact exec_cmdEncode_begins hb hin e

/-- Settles O42: the parse from the start of the input, by the induction of `parseFrom_parsed`. -/
theorem parseCoversInput : Obligations.ParseCoversInput := by
  intro D
  obtain ⟨hspells, hallowed, hset, -⟩ := parse_parsed D
  exact ⟨(Nat.zero_add _).symm.trans hspells.width, hset, hallowed⟩

/-- Settles O43: each clause is one case of `chooseOp`. -/
theorem parseStepTakesFirstChoice : Obligations.ParseStepTakesFirstChoice := by
  intro s D hs hp hD hpos
  have hstep : step s = .next (s.pushOp (chooseOp D s.pos.toNat s.ls).1 (chooseOp D s.pos.toNat s.ls).2) := by
    rw [step_engine hs, engineStep_encParse hp hD, parseStep_push hpos]
  refine ⟨fun off len hm => ?_, fun hm hin f p hc => ?_, fun hm hc => ?_⟩
  · rw [hstep, chooseOp_of_match hm]; rfl
  · rw [hstep, chooseOp_of_pattern hm hin hc]; rfl
  · rw [hstep, chooseOp_of_literal hm hc]; rfl

/-- Settles O44. -/
theorem encodeCheckRejectsOversize : Obligations.EncodeCheckRejectsOversize := by
  intro s hs
  rw [step_engine hs]
  refine ⟨fun D hp hD hend => ?_, fun hp hm => ?_⟩
  · rw [engineStep_encParse hp hD, parseStep_end (hend ▸ Nat.le_refl _)]; rfl
  · rw [engineStep_encCheck_reference hp hm]
    refine ⟨fun hbig => ?_, fun hsize hfull => ?_, fun hsize hfit => ?_⟩
    · rw [encCheckReference_oversize hbig]; rfl
    · rw [encCheckReference_full hsize hfull]; rfl
    · rw [encCheckReference_fits hsize hfit]

end Sys2Proof.Proofs


/-! # The stream emitted, and the runs of an ENCODE to its end (43_encoder.md, R142 to R157) -/

namespace Sys2Proof.Machine

/-! ## The bytes that emission writes (R151) -/

theorem State.putByte_olen_toNat {s : State} {v : Byte} (h : s.olen.toNat + 1 < 2 ^ 32) :
    (s.putByte v).olen.toNat = s.olen.toNat + 1 := by
  rw [State.putByte_olen]
  bv_omega

/-- Emission leaves every other address alone. -/
theorem read_emitBytes_outside {vs : List Byte} {s : State} (hlen : s.olen.toNat + vs.length < 2 ^ 32) {a : Nat}
    (ha : a < s.olen.toNat ∨ s.olen.toNat + vs.length ≤ a) :
    Memory.read (emitBytes vs s).outBuf a = Memory.read s.outBuf a := by
  induction vs generalizing s with
  | nil => rfl
  | cons v rest ih =>
    rw [List.length_cons] at hlen ha
    have hnext : (s.putByte v).olen.toNat = s.olen.toNat + 1 := State.putByte_olen_toNat (by omega)
    rw [emitBytes, ih (by omega) (by omega)]
    exact Memory.read_write_other _ _ _ _ (by omega)

/-- Emission writes byte `j` of its list at `olen + j`. -/
theorem read_emitBytes_inside {vs : List Byte} {s : State} (hlen : s.olen.toNat + vs.length < 2 ^ 32) {j : Nat}
    (hj : j < vs.length) : Memory.read (emitBytes vs s).outBuf (s.olen.toNat + j) = vs[j]? := by
  induction vs generalizing s j with
  | nil => exact absurd hj (Nat.not_lt_zero j)
  | cons v rest ih =>
    rw [List.length_cons] at hlen hj
    have hnext : (s.putByte v).olen.toNat = s.olen.toNat + 1 := State.putByte_olen_toNat (by omega)
    rw [emitBytes]
    cases j with
    | zero =>
      rw [read_emitBytes_outside (by omega) (by omega)]
      exact Memory.read_write_same _ _ _
    | succ j =>
      have hj := ih (s := s.putByte v) (j := j) (by omega) (by omega)
      rw [hnext, Nat.add_assoc, Nat.add_comm 1 j] at hj
      simpa using hj

/-! ## The FLAGS registers hold the table packed into them (R19) -/

theorem wordByte_wordOfBytes (b0 b1 b2 b3 : Byte) :
    wordByte (wordOfBytes b0 b1 b2 b3) 0 = b0 ∧ wordByte (wordOfBytes b0 b1 b2 b3) 1 = b1 ∧
      wordByte (wordOfBytes b0 b1 b2 b3) 2 = b2 ∧ wordByte (wordOfBytes b0 b1 b2 b3) 3 = b3 :=
  have drop1 {start : Nat} (h : 8 ≤ start) : (wordOfBytes b0 b1 b2 b3).extractLsb' start 8 =
      (b3 ++ b2 ++ b1).extractLsb' (start - 8) 8 := BitVec.extractLsb'_append_eq_of_le h
  have drop2 {start : Nat} (h : 8 ≤ start) : (b3 ++ b2 ++ b1).extractLsb' start 8 =
      (b3 ++ b2).extractLsb' (start - 8) 8 := BitVec.extractLsb'_append_eq_of_le h
  ⟨BitVec.extractLsb'_append_eq_right, (drop1 (by decide)).trans BitVec.extractLsb'_append_eq_right,
   (drop1 (by decide)).trans ((drop2 (by decide)).trans BitVec.extractLsb'_append_eq_right),
   (drop1 (by decide)).trans ((drop2 (by decide)).trans BitVec.extractLsb'_append_eq_left)⟩

theorem wordByte_setWidth (b : Byte) : wordByte (b.setWidth 32) 0 = b :=
  (BitVec.extractLsb'_setWidth_of_le (by decide)).trans BitVec.extractLsb'_eq_self

theorem flagEntries_pack (t : FlagTable) : flagEntries (packFlags0 t) (packFlags1 t) (packFlags2 t) = t := by
  obtain ⟨h0, h1, h2, h3⟩ := wordByte_wordOfBytes t.e0 t.e1 t.e2 t.e3
  obtain ⟨h4, h5, h6, h7⟩ := wordByte_wordOfBytes t.e4 t.e5 t.e6 t.e7
  simp only [flagEntries, packFlags0, packFlags1, packFlags2, h0, h1, h2, h3, h4, h5, h6, h7, wordByte_setWidth]

/-- The table of an ENCODE that takes no match (R124, R157). -/
theorem flagTable_seed : flagTableOfNibbles (controlFlags Config.lsSeed) = tableF9 := by decide

/-! ## What ENC_EMIT leaves (R151, R156) -/

/-- A successful end of ENCODE from `s`: the table and the stream are published, and nothing else that the
host sees has changed. -/
structure Published (s : State) (cf : Nine Nibble) (bytes : List Byte) (t : State) : Prop where
  phase : t.phase = .idle
  status : t.status = 0x00000002#32
  errPos : t.errPos = 0
  outLen : t.outLen = BitVec.ofNat 32 bytes.length
  inPos : t.inPos = s.n
  lset : t.lset = s.lset
  flags : flagEntries t.flags0 t.flags1 t.flags2 = flagTableOfNibbles cf
  stream : ∀ j, j < bytes.length → Memory.read t.outBuf j = bytes[j]?
  above : ∀ a, bytes.length ≤ a → Memory.read t.outBuf a = Memory.read s.outBuf a
  inBuf : t.inBuf = s.inBuf
  ctrl : t.ctrl = s.ctrl
  inLen : t.inLen = s.inLen
  expLen : t.expLen = s.expLen

theorem publish_emitBytes_published {s : State} (h0 : s.olen = 0) {bytes : List Byte} (hlen : bytes.length < 2 ^ 32)
    (cf : Nine Nibble) : Published s cf bytes ((emitBytes bytes s).publish cf bytes.length) := by
  have hstart : s.olen.toNat = 0 := congrArg BitVec.toNat h0
  have hfits : s.olen.toNat + bytes.length < 2 ^ 32 := by omega
  have hstream : ∀ j, j < bytes.length → Memory.read (emitBytes bytes s).outBuf j = bytes[j]? := fun j hj => by
    have hread := read_emitBytes_inside hfits hj
    rwa [hstart, Nat.zero_add] at hread
  have habove : ∀ a, bytes.length ≤ a → Memory.read (emitBytes bytes s).outBuf a = Memory.read s.outBuf a :=
    fun a ha => read_emitBytes_outside hfits (.inr (by omega))
  rw [emitBytes_frame]
  exact ⟨rfl, rfl, rfl, rfl, rfl, rfl, flagEntries_pack _, hstream, habove, rfl, rfl, rfl, rfl⟩

/-- The state that ENC_EMIT ends in. -/
def State.emitted (s : State) : State :=
  (emitBytes (emitStream (flagTableOfNibbles s.cf) s.opbuf) s).publish s.cf
    (emitStream (flagTableOfNibbles s.cf) s.opbuf).length

theorem engineStep_encEmit {s : State} (hp : s.phase = .encEmit) : engineStep s = .next s.emitted := engineStep_eq hp

theorem State.emitted_published {s : State} (h0 : s.olen = 0) (hsize : streamSize s.opbuf ≤ 65535) :
    Published s s.cf (emitStream (flagTableOfNibbles s.cf) s.opbuf) s.emitted :=
  publish_emitBytes_published h0 (by rw [emitStream_length]; omega) s.cf

theorem State.emitted_endsLegally (s : State) : s.emitted.EndsLegally := (publish_emitBytes_frame _ _ _ _).1

/-! ## Runs of the engine -/

theorem runEngine_idle {s : State} (h : s.phase = .idle) (k : Nat) : runEngine k s = .next s := by
  cases k with
  | zero => rfl
  | succ k => rw [runEngine, h]

theorem runEngine_succ {s t : State} (hp : s.phase ≠ .idle) (h : engineStep s = .next t) (k : Nat) :
    runEngine (k + 1) s = runEngine k t := by
  rw [runEngine]
  split
  · next hidle => exact absurd hidle hp
  · rw [h]

theorem State.EndsLegally.busy {t : State} (h : t.EndsLegally) : t.busy = false := by
  obtain ⟨-, w, err, -, hst⟩ := h
  simp [State.busy, hst]

/-- The run ends: within `k` steps the engine is IDLE after one of the two ends of a command. -/
def State.EndsWithin (s : State) (k : Nat) : Prop := ∃ t, runEngine k s = .next t ∧ t.EndsLegally

theorem State.EndsWithin.of_step {s t : State} {k : Nat} (hp : s.phase ≠ .idle) (h : engineStep s = .next t)
    (ht : t.EndsWithin k) : s.EndsWithin (k + 1) := by
  rwa [State.EndsWithin, runEngine_succ hp h]

theorem State.EndsLegally.endsWithin {s : State} (h : s.EndsLegally) (k : Nat) : s.EndsWithin k :=
  ⟨s, runEngine_idle h.1 k, h⟩

/-! ## The parse loop of the engine is the parse of its input (R142, R147, R148) -/

/-- The state after the engine has parsed the rest of its input to `r`. -/
def State.parsedTo (s : State) (r : List Op × BitVec 16) : State :=
  State.endParse { s with opbuf := s.opbuf ++ r.1, ls := r.2, pos := s.n }

theorem State.parsedTo_end {s : State} (h : s.pos = s.n) : s.parsedTo ([], s.ls) = s.endParse := by
  simp only [State.parsedTo, State.endParse, List.append_nil, h]

theorem State.parsedTo_pushOp (s : State) (o : Op) (ls : BitVec 16) (r : List Op × BitVec 16) :
    (s.pushOp o ls).parsedTo r = s.parsedTo (o :: r.1, r.2) := by
  simp only [State.parsedTo, State.pushOp, List.append_assoc]
  rfl

theorem State.pushOp_pos_toNat {s : State} {o : Op} (h : s.pos.toNat + o.width ≤ s.n.toNat) (ls : BitVec 16) :
    (s.pushOp o ls).pos.toNat = s.pos.toNat + o.width := by
  rw [State.pushOp_pos, BitVec.toNat_add, BitVec.toNat_ofNat, Nat.add_mod_mod]
  exact Nat.mod_eq_of_lt (Nat.lt_of_le_of_lt h s.n.isLt)

/-- At the end of the input one step ends the parse. -/
theorem runEngine_encParse_end {D : List Byte} {s : State} (hp : s.phase = .encParse) (hD : s.inputBytes = .ok D)
    (hend : s.pos.toNat = D.length) (k m : Nat) :
    runEngine (m + 1) s = runEngine m (s.parsedTo (parseFrom D k s.pos.toNat s.ls)) := by
  have hpos : s.pos = s.n := BitVec.eq_of_toNat_eq (hend.trans (Memory.readBytes_length hD))
  have hstep := engineStep_encParse hp hD
  rw [parseStep_end (Nat.le_of_eq (congrArg BitVec.toNat hpos.symm))] at hstep
  rw [runEngine_succ (by rw [hp]; nofun) hstep, parseFrom_end (Nat.le_of_eq hend.symm), State.parsedTo_end hpos]

/-- From ENC_PARSE the engine takes at most one step an input byte left, and one to end the parse. -/
theorem runEngine_encParse {D : List Byte} {k : Nat} {s : State} (hp : s.phase = .encParse)
    (hD : s.inputBytes = .ok D) (hset : lengthSetOk s.ls) (hpos : s.pos.toNat ≤ D.length)
    (hk : D.length - s.pos.toNat ≤ k) (m : Nat) :
    ∃ j, runEngine (k + m + 1) s = runEngine (j + m) (s.parsedTo (parseFrom D k s.pos.toNat s.ls)) := by
  induction k generalizing s with
  | zero =>
    exact ⟨0, runEngine_encParse_end hp hD (Nat.le_antisymm hpos (Nat.sub_eq_zero_iff_le.mp (Nat.le_zero.mp hk))) _ _⟩
  | succ k ih =>
    rcases Nat.lt_or_eq_of_le hpos with hlt | heq
    · have hn : D.length = s.n.toNat := Memory.readBytes_length hD
      obtain ⟨hin, hallowed, hset', -⟩ := chooseOp_chosen hset hlt
      have hwidth := hallowed.width_pos
      have hstep := engineStep_encParse hp hD
      rw [parseStep_push (hn ▸ hlt)] at hstep
      have hnext := State.pushOp_pos_toNat (hn ▸ hin) (chooseOp D s.pos.toNat s.ls).2
      obtain ⟨j, hrun⟩ := ih (s := s.pushOp (chooseOp D s.pos.toNat s.ls).1 (chooseOp D s.pos.toNat s.ls).2)
        hp hD hset' (by omega) (by omega)
      rw [hnext, State.pushOp_ls, State.parsedTo_pushOp] at hrun
      rw [Nat.add_right_comm k 1 m, runEngine_succ (by rw [hp]; nofun) hstep, parseFrom_succ hlt]
      exact ⟨j, hrun⟩
    · exact ⟨k + 1, runEngine_encParse_end hp hD heq _ _⟩

/-! ## An ENCODE ends (R142, R149, R259) -/

theorem encEmit_endsWithin {s : State} (hp : s.phase = .encEmit) (k : Nat) : s.EndsWithin (k + 1) :=
  .of_step (by rw [hp]; nofun) (engineStep_encEmit hp) (s.emitted_endsLegally.endsWithin k)

theorem encCheck_answers_of_input {s : State} {D : List Byte} (hD : s.inputBytes = .ok D) :
    ∃ t, encCheck s = .next t := by
  unfold encCheck
  split
  · exact ⟨_, rfl⟩
  · rw [hD]; exact ⟨_, rfl⟩

theorem EncCheckCase.endsWithin {s t : State} (h : EncCheckCase s t) (k : Nat) : t.EndsWithin (k + 1) := by
  cases h with
  | rejects l _ err herr => exact (State.endCommand_endsLegally _ (.raise herr _) _ _).endsWithin _
  | emits => exact encEmit_endsWithin rfl k
  | publishes x cf bytes => exact (publish_emitBytes_frame _ _ _ _).1.endsWithin _

theorem encCheck_endsWithin {s : State} {D : List Byte} (hp : s.phase = .encCheck) (hD : s.inputBytes = .ok D)
    (k : Nat) : s.EndsWithin (k + 2) := by
  obtain ⟨t, ht⟩ := encCheck_answers_of_input hD
  exact .of_step (by rw [hp]; nofun) ((engineStep_eq hp).trans ht) ((encCheck_case ht).endsWithin k)

theorem encParse_endsWithin {s : State} {D : List Byte} (hp : s.phase = .encParse) (hD : s.inputBytes = .ok D)
    (hset : lengthSetOk s.ls) (hpos : s.pos.toNat ≤ s.n.toNat) : s.EndsWithin (s.n.toNat - s.pos.toNat + 3) := by
  have hn : D.length = s.n.toNat := Memory.readBytes_length hD
  obtain ⟨j, hrun⟩ := runEngine_encParse hp hD hset (hn ▸ hpos) (Nat.le_of_eq (by rw [hn])) 2
  rw [State.EndsWithin, hrun]
  exact encCheck_endsWithin (s := s.parsedTo _) rfl hD j

theorem State.InWritten.inputBytes {s : State} (h : s.InWritten s.n) : ∃ D, s.inputBytes = .ok D := by
  cases hD : s.inputBytes with
  | ok D => exact ⟨D, rfl⟩
  | error a =>
    obtain ⟨-, ha, hnone⟩ := Memory.readBytes_error hD
    have hsome := h a (by omega)
    rw [hnone] at hsome
    cases hsome

/-! ## An ENCODE of the reference encoder whose stream fits (R148 to R156) -/

/-- The engine as it enters ENC_EMIT (R150). -/
def State.toEmit (s : State) : State := { s with olen := 0, phase := .encEmit }

@[simp] theorem State.toEmit_phase (s : State) : s.toEmit.phase = .encEmit := rfl

/-- ENC_CHECK passes a stream that fits, and ENC_EMIT ends the command. -/
theorem runEngine_encCheck_fits {s : State} (hp : s.phase = .encCheck) (hm : s.cfg.encoderModel = .reference)
    (hsize : streamSize s.opbuf ≤ 65535) (hcap : streamSize s.opbuf ≤ s.cfg.outCap) (k : Nat) :
    runEngine (k + 2) s = .next s.toEmit.emitted := by
  have hcheck := engineStep_encCheck_reference hp hm
  rw [encCheckReference_fits hsize hcap] at hcheck
  have hemit : engineStep s.toEmit = .next s.toEmit.emitted := engineStep_encEmit s.toEmit_phase
  rw [runEngine_succ (by rw [hp]; nofun) hcheck]
  exact (runEngine_succ (by rw [State.toEmit_phase]; nofun) hemit k).trans (runEngine_idle s.toEmit.emitted_endsLegally.1 k)

/-- The state as it enters ENC_EMIT of an ENCODE begun on the input `D`. -/
def State.encodedTo (s : State) (D : List Byte) : State := (s.beginEncode.parsedTo (parse D)).toEmit

/-- An ENCODE begun on the input `D` parses it, passes the check where the stream fits, and emits it. -/
theorem runEngine_beginEncode {s : State} {D : List Byte} (hm : s.cfg.encoderModel = .reference)
    (hlen : s.il.toNat = D.length) (hD : Memory.readBytes s.inBuf 0 D.length = .ok D)
    (hsize : streamSize (parse D).1 ≤ 65535) (hcap : streamSize (parse D).1 ≤ s.cfg.outCap) :
    runEngine (D.length + 3) s.beginEncode = .next (s.encodedTo D).emitted := by
  have hinput : s.beginEncode.inputBytes = .ok D := by
    show Memory.readBytes s.inBuf 0 s.il.toNat = _
    rw [hlen, hD]
  obtain ⟨j, hrun⟩ := runEngine_encParse (k := D.length) (State.beginEncode_phase s) hinput lengthSetOk_seed
    (Nat.zero_le _) (Nat.le_refl _) 2
  exact hrun.trans (runEngine_encCheck_fits (s := s.beginEncode.parsedTo (parse D)) rfl hm hsize hcap j)

/-- What it publishes is the reference result. -/
theorem State.encodedTo_published (s : State) {D : List Byte} (hsize : streamSize (parse D).1 ≤ 65535) :
    Published (s.encodedTo D) (referenceResult D).1 (referenceResult D).2 (s.encodedTo D).emitted :=
  State.emitted_published rfl hsize

end Sys2Proof.Machine

namespace Sys2Proof.Proofs

open Sys2Proof Sys2Proof.Machine

/-- Settles O45: emission writes the stream from `olen` = 0 on, and `publish` writes the rest. -/
theorem encodeEmitPublishes : Obligations.EncodeEmitPublishes := by
  intro s hs hp h0 hsize
  obtain ⟨hphase, hst, he, hout, hin, hl, hf, hstream, habove, hbuf, hc, hil, hxl⟩ := State.emitted_published h0 hsize
  rw [emitStream_length] at hout hstream habove
  exact ⟨s.emitted, (step_engine hs).trans (engineStep_encEmit hp), hst, hphase, he, hout, hin, hl, hf, hstream,
    habove, hbuf, hc, hil, hxl⟩

/-- Settles O48: the engine's parse loop is `parse`, and then the stream is checked and emitted. -/
theorem encodeRunsToReferenceResult : Obligations.EncodeRunsToReferenceResult := by
  intro e s u D hidle hm hlen hin hD hsize hcap hu
  rw [exec_cmdEncode_begins hidle.1 (hlen ▸ hin)] at hu
  cases hu
  have hrun := runEngine_beginEncode (s := s.latch 1 e) hm hlen hD hsize hcap
  obtain ⟨hphase, hst, he, hout, hpos, hl, hf, hstream, habove, hbuf, -⟩ := (s.latch 1 e).encodedTo_published hsize
  have hout' : ((s.latch 1 e).encodedTo D).emitted.outLen.toNat = (referenceResult D).2.length := by
    rw [hout, BitVec.toNat_ofNat, Nat.mod_eq_of_lt]
    exact (emitStream_length _ _).trans_lt (by omega)
  exact ⟨_, hrun, hphase, hst, hout', hpos, he, hl, hf, hstream, habove, hbuf⟩

/-- Settles O50, phase by phase; the parse loop moves past an input byte at every step. -/
theorem encodeAlwaysEnds : Obligations.EncodeAlwaysEnds := by
  intro s hs he hw
  obtain ⟨D, hD⟩ := hw.inputBytes
  have hends : s.EndsWithin (s.n.toNat - s.pos.toNat + 3) := by
    rcases State.inEncode_phase he with hp | hp | hp
    · exact encParse_endsWithin hp hD (hs.encode he).lengthSet (hs.encode he).pos_le
    · exact encCheck_endsWithin hp hD _
    · exact encEmit_endsWithin hp _
  obtain ⟨t, ht, hlegal⟩ := hends
  exact ⟨t, ht, hlegal.1, hlegal.done, hlegal.busy⟩

/-- Settles O46: the empty input is parsed to no operation and its stream is empty. -/
theorem emptyInputEncodes : Obligations.EmptyInputEncodes := by
  intro e s u hb h0 hm hu
  have hlen : s.inLen.toNat = 0 := congrArg BitVec.toNat h0
  rw [exec_cmdEncode_begins hb (hlen ▸ Nat.zero_le _)] at hu
  cases hu
  exact ⟨_, runEngine_beginEncode (s := s.latch 1 e) (D := []) hm hlen rfl (Nat.zero_le _) (Nat.zero_le _), rfl, rfl,
    rfl, h0, rfl, rfl, congrArg packFlags0 flagTable_seed, congrArg packFlags1 flagTable_seed,
    congrArg packFlags2 flagTable_seed, rfl⟩

end Sys2Proof.Proofs


/-! # The round trip: the decoder follows the encoder's stream (R9, R158) -/

namespace Sys2Proof.Machine

/-! ## The stream by its groups (R60, R61, R151) -/

@[simp] theorem emitStream_nil (ft : FlagTable) : emitStream ft [] = [] := rfl

/-- What is buffered is flushed as one group with the operations that fill it up. -/
theorem emitGroups_eq_flushGroup (ft : FlagTable) {group : List Op} (hg : group.length < Config.group)
    (ops : List Op) : emitGroups ft group ops =
      flushGroup ft ((group ++ ops).take Config.group) ++ emitStream ft ((group ++ ops).drop Config.group) := by
  induction ops generalizing group with
  | nil =>
    rw [List.append_nil, List.take_of_length_le hg.le, List.drop_of_length_le hg.le, emitStream_nil, List.append_nil,
      emitGroups]
  | cons o rest ih =>
    rw [emitGroups, List.append_cons group o rest]
    split
    · next h => exact ih (by simpa using h)
    · next h =>
      have hfull : (group ++ [o]).length = Config.group := by
        rw [List.length_append, List.length_singleton]
        exact Nat.le_antisymm hg (Nat.not_lt.mp h)
      rw [← hfull, List.take_left, List.drop_left]
      rfl

/-- The bytes still to be read where `r` slots of the current group are left for `ops`; `r` = 0 where the
next byte is a control byte. -/
def groupBytes (ft : FlagTable) (r : Nat) (ops : List Op) : List Byte :=
  (ops.take r).flatMap (emitOp ft) ++ emitStream ft (ops.drop r)

@[simp] theorem groupBytes_nil (ft : FlagTable) (r : Nat) : groupBytes ft r [] = [] := by
  simp [groupBytes]

theorem groupBytes_cons (ft : FlagTable) (r : Nat) (o : Op) (ops : List Op) :
    groupBytes ft (r + 1) (o :: ops) = emitOp ft o ++ groupBytes ft r ops := by
  simp [groupBytes]

theorem groupBytes_zero (ft : FlagTable) {ops : List Op} (h : ops ≠ []) :
    groupBytes ft 0 ops = controlByte (ops.take Config.group) :: groupBytes ft Config.group ops := by
  obtain ⟨o, rest, rfl⟩ := List.exists_cons_of_ne_nil h
  exact emitGroups_eq_flushGroup ft (by decide : ([] : List Op).length < Config.group) (o :: rest)

/-- The control bit of a slot says whether its operation is a literal (R61, R155). -/
theorem slotBit_controlByte {ops : List Op} {j : Nat} (hj : j < Config.group) {o : Op} (ho : ops[j]? = some o) :
    slotBit (controlByte (ops.take Config.group)) j = o.isLit := by
  have hbit : ((ops.take Config.group).map Op.isLit).getD j false = o.isLit := by
    simp [List.getD_eq_getElem?_getD, hj, ho]
  rw [← hbit]
  simp only [slotBit, controlByte, BitVec.getLsbD_append]
  simp only [Config.group] at hj ⊢
  interval_cases j <;> simp

/-! ## A byte of the stream at the cursor (R41, R62) -/

/-- The input from the cursor to its end is `bytes`. -/
structure State.Reads (s : State) (bytes : List Byte) : Prop where
  byte : ∀ j, j < bytes.length → Memory.read s.inBuf (s.ip.toNat + j) = bytes[j]?
  fits : s.ip.toNat + bytes.length = s.il.toNat

theorem State.Reads.streamByte_zero {s : State} {b : Byte} {rest : List Byte} (h : s.Reads (b :: rest)) :
    s.streamByte 0 = some b := by
  rw [State.streamByte, show s.ip + 0 = s.ip from BitVec.add_zero s.ip]
  exact h.byte 0 (Nat.succ_pos _)

theorem State.Reads.ip_succ {s : State} {b : Byte} {rest : List Byte} (h : s.Reads (b :: rest)) :
    (s.ip + 1).toNat = s.ip.toNat + 1 := by
  have hfits := h.fits
  rw [List.length_cons] at hfits
  bv_omega

theorem State.Reads.streamByte_one {s : State} {b b2 : Byte} {rest : List Byte} (h : s.Reads (b :: b2 :: rest)) :
    s.streamByte 1 = some b2 := by
  rw [State.streamByte, h.ip_succ]
  exact h.byte 1 (Nat.succ_lt_succ (Nat.succ_pos _))

theorem State.Reads.ip_ne {s : State} {b : Byte} {rest : List Byte} (h : s.Reads (b :: rest)) : s.ip ≠ s.il := by
  have hfits := h.fits
  rw [List.length_cons] at hfits
  bv_omega

theorem State.Reads.ip_succ_ne {s : State} {b b2 : Byte} {rest : List Byte} (h : s.Reads (b :: b2 :: rest)) :
    s.ip + 1 ≠ s.il := by
  have hfits := h.fits
  simp only [List.length_cons] at hfits
  bv_omega

theorem State.Reads.ip_eq {s : State} (h : s.Reads []) : s.ip = s.il := BitVec.eq_of_toNat_eq h.fits

theorem State.Reads.advance {s : State} {bytes rest : List Byte} (h : s.Reads (bytes ++ rest)) :
    (s.advance (BitVec.ofNat 32 bytes.length)).Reads rest := by
  obtain ⟨hbyte, hfits⟩ := h
  rw [List.length_append] at hfits
  have hip : (s.advance (BitVec.ofNat 32 bytes.length)).ip.toNat = s.ip.toNat + bytes.length := by
    rw [State.advance_ip]
    bv_omega
  refine ⟨fun j hj => ?_, by rw [hip, State.advance_il]; omega⟩
  have hread := hbyte (bytes.length + j) (by rw [List.length_append]; omega)
  rwa [List.getElem?_append_right (Nat.le_add_right _ _), Nat.add_sub_cancel_left, ← Nat.add_assoc, ← hip] at hread

theorem fetch_oneByte {s : State} {c : Context} {b : Byte} {rest : List Byte} (h : s.Reads (b :: rest))
    (hlen : opLength c b = 1) : fetch c s = fetchedOf c [b] := by
  simp only [fetch, h.streamByte_zero, if_pos hlen]

theorem fetch_twoBytes {s : State} {c : Context} {b b2 : Byte} {rest : List Byte} (h : s.Reads (b :: b2 :: rest))
    (hlen : opLength c b ≠ 1) : fetch c s = fetchedOf c [b, b2] := by
  simp only [fetch, h.streamByte_zero, if_neg hlen, if_neg h.ip_succ_ne, h.streamByte_one]

theorem fetchedOf_of_decode {c : Context} {bytes rest : List Byte} {i : Instr} (h : decode c bytes = .ok (i, rest)) :
    fetchedOf c bytes = .instr i := by
  rw [fetchedOf, h]

/-! ## An operation's bytes are fetched as its instruction (R62 to R65, R152 to R154) -/

/-- In a legal table every nibble value is found at its own index (R186). -/
theorem flagIndex_of_legal {ft : FlagTable} (h : legalFlags ft = true) (k : Fin 9) :
    flagIndex ft ((ft.get k).setWidth 4) = some k := by
  refine flagIndex_of_nibbleFlagOk ?_
  obtain ⟨hle, -⟩ := Bool.and_eq_true_iff.mp h
  simp only [nibbleFlagOk, Bool.and_eq_true, decide_eq_true_eq]
  exact ⟨of_decide_eq_true ((Nine.all_toList_iff ft _).mp hle k),
    fun j hj heq => hj.ne (legalFlags_get_inj h heq)⟩

/-- A delta of the LengthSet is no flag, so the byte that begins with it is no pattern (R126). -/
theorem flagIndex_of_member {ft : FlagTable} {ls : BitVec 16} (h : flagsValid ft ls = true) {d : Nibble}
    (hd : lsMember ls d.toNat = true) : flagIndex ft d = none := by
  refine flagIndex_eq_none_iff.mpr fun k heq => ?_
  have hfree := (flagsValid_iff.mp h).2 k
  rw [heq, BitVec.toNat_setWidth_of_le (by decide), hd] at hfree
  cases hfree

theorem brefLength_lengthDelta {length : Nat} (h3 : 3 ≤ length) (h18 : length ≤ 18) :
    (lengthDelta length).toNat = length - 3 ∧ brefLength (lengthDelta length) = length := by
  have hdelta : (lengthDelta length).toNat = length - 3 := by
    rw [lengthDelta, BitVec.toNat_ofNat]
    omega
  exact ⟨hdelta, by rw [brefLength, hdelta]; omega⟩

theorem brefOffset_encodedOffset {offset : Nat} (h1 : 1 ≤ offset) (hmax : offset ≤ 4096) :
    brefOffset (encodedOffset offset) = offset := by
  rw [brefOffset, encodedOffset, BitVec.toNat_ofNat]
  omega

theorem emitOp_nib (ft : FlagTable) (f : Fin 9) (p : Nibble) : emitOp ft (.nib f p) = [nibByte ft f p] :=
  encode_nibInstr ft f p

theorem fetch_emitOp {s : State} {ls : BitVec 16} {o : Op} {rest : List Byte} (hflags : flagsValid s.ft ls = true)
    (ho : o.Allowed ls) (hbit : slotBit s.ctrlByte s.slot = o.isLit) (h : s.Reads (emitOp s.ft o ++ rest)) :
    fetch s.slotContext s = .instr o.toInstr := by
  rw [State.slotContext, hbit]
  cases o with
  | lit v => exact (fetch_oneByte h rfl).trans (fetchedOf_of_decode (decode_lit rfl v []))
  | nib f p =>
    have hidx : flagIndex s.ft (hi (nibByte s.ft f p)) = some f := by
      rw [nibByte, hi_joinNibbles]
      exact flagIndex_of_legal (flagsValid_iff.mp hflags).1 f
    have hdec := decode_special_of_index hidx []
    rw [nibByte, lo_joinNibbles] at hdec
    rw [emitOp_nib] at h
    exact (fetch_oneByte h (by simp [opLength, Op.isLit, hidx])).trans (fetchedOf_of_decode hdec)
  | bref length offset =>
    obtain ⟨h3, h18, -, -, hmem⟩ := ho
    rw [← (brefLength_lengthDelta h3 h18).1] at hmem
    have hidx := flagIndex_of_member hflags hmem
    have hdec := decode_special_of_noIndex (ft := s.ft)
      (b := joinNibbles (lengthDelta length) ((encodedOffset offset).extractLsb' 8 4))
      (by rwa [hi_joinNibbles]) ((encodedOffset offset).extractLsb' 0 8) []
    rw [hi_joinNibbles, lo_joinNibbles, brefOffset_parts] at hdec
    exact (fetch_twoBytes h (by simp [opLength, Op.isLit, hidx])).trans (fetchedOf_of_decode hdec)

/-! ## The output so far is the beginning of `D` (R42, R180) -/

/-- OUT holds `D` up to `olen`, has room for the rest of it, and the expected length, where there is one, is
the length of `D`. -/
structure State.Produces (s : State) (D : List Byte) : Prop where
  length_lt : D.length < 2 ^ 32
  expected : s.xv = true → s.xl.toNat = D.length
  room : D.length ≤ s.cfg.outCap
  outLen_eq : s.outLen = s.olen
  written : ∀ a, a < s.olen.toNat → Memory.read s.outBuf a = some (byteAt D a)

/-- The parts of the state by which the decoder finds its next operation. -/
def State.cursor (s : State) : Memory × Word × Word × FlagTable × Byte × Nat :=
  (s.inBuf, s.ip, s.il, s.ft, s.ctrlByte, s.slot)

/-- From `s` to `t` the next `k` bytes of `D` are appended and the cursor stays. -/
structure Appended (D : List Byte) (s : State) (k : Nat) (t : State) : Prop where
  produces : t.Produces D
  olen : t.olen.toNat = s.olen.toNat + k
  cursor : t.cursor = s.cursor

theorem Appended.trans {D : List Byte} {s t u : State} {j k : Nat} (h : Appended D s j t) (h' : Appended D t k u) :
    Appended D s (j + k) u :=
  ⟨h'.produces, by rw [h'.olen, h.olen, Nat.add_assoc], h'.cursor.trans h.cursor⟩

theorem State.Produces.expReached {s : State} {D : List Byte} (h : s.Produces D) (hlt : s.olen.toNat < D.length) :
    s.expReached = false := by
  rw [State.expReached_eq_false_iff]
  rintro ⟨hxv, heq⟩
  have := h.expected hxv
  rw [heq] at hlt
  omega

/-- Append of the next byte of `D`. -/
theorem State.Produces.append {s : State} {D : List Byte} (h : s.Produces D) (hlt : s.olen.toNat < D.length)
    {v : Byte} (hv : v = byteAt D s.olen.toNat) :
    append v s = .go (s.putByte v) ∧ Appended D s 1 (s.putByte v) := by
  have hx := h.expReached hlt
  obtain ⟨hmax, hexp, hroom, -, hwritten⟩ := h
  have hnext : (s.putByte v).olen.toNat = s.olen.toNat + 1 := State.putByte_olen_toNat (by omega)
  refine ⟨append_room hx (by omega), ⟨hmax, hexp, hroom, rfl, fun a ha => ?_⟩, hnext, rfl⟩
  rw [hnext] at ha
  rw [State.putByte_outBuf, Memory.read_write]
  split
  · next heq => rw [hv, heq]
  · exact hwritten a (by omega)

theorem State.Produces.appendPair {s : State} {D : List Byte} (h : s.Produces D) (hin : s.olen.toNat + 2 ≤ D.length)
    {b : Byte × Byte} (hb : b = (byteAt D s.olen.toNat, byteAt D (s.olen.toNat + 1))) :
    ∃ t, appendPair b s = .go t ∧ Appended D s 2 t := by
  obtain ⟨hgo, hfirst⟩ := h.append (by omega) (congrArg Prod.fst hb)
  obtain ⟨hgo', hsecond⟩ := hfirst.produces.append (v := b.2) (by rw [hfirst.olen]; omega)
    (by rw [hfirst.olen]; exact congrArg Prod.snd hb)
  exact ⟨_, by rw [Machine.appendPair, hgo]; exact hgo', hfirst.trans hsecond⟩

/-! ## The copy of a match (R106, R179) -/

/-- A copy from `offset` bytes behind position `p` has appended its first `j` bytes. -/
structure State.Copying (s : State) (D : List Byte) (p offset j : Nat) : Prop where
  produces : s.Produces D
  base : s.copyBase.toNat = p - offset
  offset_eq : s.copyOffset.toNat = offset
  count : s.copyCount.toNat = j
  olen : s.olen.toNat = p + j

theorem State.Copying.copyByte {s : State} {D : List Byte} {p offset j len : Nat} (h : s.Copying D p offset j)
    (h1 : 1 ≤ offset) (hle : offset ≤ p) (hj : j < len) (h18 : len ≤ 18) (hin : p + len ≤ D.length)
    (hmatch : MatchAt D (p - offset) p len) :
    ∃ t, copyByte s = .go t ∧ t.Copying D p offset (j + 1) ∧ t.cursor = s.cursor := by
  obtain ⟨hproduces, hbase, hoffset, hcount, holen⟩ := h
  have hmod : j % offset < offset := Nat.mod_lt _ h1
  have hsource : Memory.read s.outBuf s.copySource = some (byteAt D s.olen.toNat) := by
    rw [State.copySource, hbase, hoffset, hcount, hproduces.written _ (by omega), holen, hmatch.cyclic h1 hle hj]
  obtain ⟨hgo, happended⟩ := hproduces.append (by omega) rfl
  obtain ⟨⟨hmax, hexp, hroom, hout, hwritten⟩, holen', hcursor⟩ := happended
  refine ⟨(s.putByte (byteAt D s.olen.toNat)).countCopy, ?_, ⟨⟨hmax, hexp, hroom, hout, hwritten⟩, hbase, hoffset, ?_,
    ?_⟩, hcursor⟩
  · rw [Machine.copyByte, hsource]
    show (append _ s).andThen _ = _
    rw [hgo]; rfl
  · show (s.copyCount + 1).toNat = j + 1
    bv_omega
  · rw [State.countCopy_olen, holen', holen, Nat.add_assoc]

theorem State.Copying.copyBytes {D : List Byte} {p offset len : Nat} (h1 : 1 ≤ offset) (hle : offset ≤ p)
    (h18 : len ≤ 18) (hin : p + len ≤ D.length) (hmatch : MatchAt D (p - offset) p len) {k j : Nat} (hk : j + k = len)
    {s : State} (h : s.Copying D p offset j) :
    ∃ t, copyBytes k s = .go t ∧ t.Copying D p offset len ∧ t.cursor = s.cursor := by
  induction k generalizing s j with
  | zero => exact ⟨s, rfl, by rwa [← hk, Nat.add_zero], rfl⟩
  | succ k ih =>
    obtain ⟨t, hgo, ht, hcursor⟩ := h.copyByte h1 hle (by omega) h18 hin hmatch
    obtain ⟨u, hgo', hu, hcursor'⟩ := ih (by omega) ht
    exact ⟨u, by rw [copyBytes_succ, hgo]; exact hgo', hu, hcursor'.trans hcursor⟩

theorem State.Produces.beginCopy {s : State} {D : List Byte} (h : s.Produces D) {offset : Nat}
    (hmax : offset ≤ 4096) (hle : offset ≤ s.olen.toNat) (length : Nat) :
    (s.beginCopy offset length).Copying D s.olen.toNat offset 0 := by
  obtain ⟨hlt, hexp, hroom, hout, hwritten⟩ := h
  refine ⟨⟨hlt, hexp, hroom, hout, hwritten⟩, ?_, ?_, rfl, rfl⟩
  · show (s.olen - BitVec.ofNat 32 offset).toNat = s.olen.toNat - offset
    bv_omega
  · show (BitVec.ofNat 13 offset).toNat = offset
    rw [BitVec.toNat_ofNat]
    omega

/-- The whole copy of a match appends the bytes of `D` that it matches. -/
theorem State.Produces.finishCopy {s : State} {D : List Byte} (h : s.Produces D) {offset length : Nat}
    (h1 : 1 ≤ offset) (hmax : offset ≤ 4096) (h18 : length ≤ 18) (hin : s.olen.toNat + length ≤ D.length)
    (hle : offset ≤ s.olen.toNat) (hmatch : MatchAt D (s.olen.toNat - offset) s.olen.toNat length) :
    ∃ t, finishCopy (s.beginCopy offset length) = .next t.nextSlot ∧ Appended D s length t := by
  have hleft : (s.beginCopy offset length).copyLeft = length := by
    show (BitVec.ofNat 5 length).toNat - 0 = length
    rw [BitVec.toNat_ofNat]
    omega
  obtain ⟨t, hgo, hcopied, hcursor⟩ :=
    State.Copying.copyBytes h1 hle h18 hin hmatch (Nat.zero_add length) (h.beginCopy hmax hle length)
  exact ⟨t, by rw [Machine.finishCopy, hleft, hgo]; rfl, hcopied.produces, hcopied.olen, hcursor⟩

/-! ## An operation appends what it stands for (R175, R176, R179) -/

theorem State.Produces.advance {s : State} {D : List Byte} (h : s.Produces D) (k : Word) :
    (s.advance k).Produces D := ⟨h.length_lt, h.expected, h.room, h.outLen_eq, h.written⟩

theorem State.Produces.exec_op {s : State} {D : List Byte} {ls : BitVec 16} {o : Op} (h : s.Produces D)
    (hspells : o.Spells D s.olen.toNat) (hallowed : o.Allowed ls) (hin : s.olen.toNat + o.width ≤ D.length)
    (hsecond : o.isBref = true → s.ip + 1 ≠ s.il) (ft : FlagTable) :
    ∃ t, exec o.toInstr s = .next t.nextSlot ∧
      Appended D (s.advance (BitVec.ofNat 32 (emitOp ft o).length)) o.width t := by
  rw [emitOp_length]
  cases o with
  | lit v =>
    obtain ⟨hgo, happended⟩ := (h.advance 1).append hin hspells
    exact ⟨_, congrArg Flow.endOp hgo, happended⟩
  | nib f p =>
    obtain ⟨t, hgo, happended⟩ := (h.advance 1).appendPair hin hspells
    exact ⟨t, (exec_nibInstr f p s).trans (congrArg Flow.endOp hgo), happended⟩
  | bref length offset =>
    obtain ⟨h3, h18, h1, hmax, -⟩ := hallowed
    obtain ⟨hle, hmatch⟩ := hspells
    obtain ⟨t, hcopy, happended⟩ := (h.advance 2).finishCopy h1 hmax h18 hin hle hmatch
    refine ⟨t, ?_, happended⟩
    have hgood : badOffset offset (s.advance 2) = false := by
      rw [badOffset, Bool.or_eq_false_iff, decide_eq_false_iff_not, decide_eq_false_iff_not]
      exact ⟨by omega, Nat.not_lt.mpr hle⟩
    show execBref (lengthDelta length) (encodedOffset offset) s = _
    simp only [execBref, if_neg (hsecond rfl), brefOffset_encodedOffset h1 hmax, hgood,
      (brefLength_lengthDelta h3 h18).2]
    exact hcopy

/-! ## The decoder between two operations (R172) -/

/-- The engine stands before a control byte, or in a group that has `r` slots left for `ops` and the control
bits of those. -/
inductive State.AtGroup (s : State) (ops : List Op) : Nat → Prop where
  | control (hp : s.phase = .decCtrl) : s.AtGroup ops 0
  | slot (r : Nat) (hp : s.phase = .decSlot) (hslot : s.slot + (r + 1) = Config.group)
      (hbits : ∀ j o, j < r + 1 → ops[j]? = some o → slotBit s.ctrlByte (s.slot + j) = o.isLit) :
      s.AtGroup ops (r + 1)

theorem State.AtGroup.nextSlot {s t : State} {o : Op} {ops : List Op} {r : Nat} (h : s.AtGroup (o :: ops) (r + 1))
    (hslot : t.slot = s.slot) (hctrl : t.ctrlByte = s.ctrlByte) : t.nextSlot.AtGroup ops r := by
  cases h with
  | slot _ _ hs hbits =>
    cases r with
    | zero => exact .control (by rw [State.nextSlot_phase, hslot, hs, if_neg (Nat.lt_irrefl _)])
    | succ r =>
      have hlt : t.slot + 1 < Config.group := by omega
      refine .slot r (by rw [State.nextSlot_phase, if_pos hlt]) (by rw [State.nextSlot_slot, if_pos hlt]; omega)
        fun j q hj hq => ?_
      rw [State.nextSlot_slot, if_pos hlt, State.nextSlot_ctrlByte, hctrl, hslot, Nat.add_assoc, Nat.add_comm 1 j]
      exact hbits (j + 1) q (Nat.succ_lt_succ hj) hq

/-- The decoder has produced `D` up to `olen`, and the operations `ops`, which stand for the rest of `D`, are
the input from its cursor on. -/
structure State.Awaits (s : State) (D : List Byte) (ft : FlagTable) (ls : BitVec 16) (r : Nat) (ops : List Op) :
    Prop where
  table : s.ft = ft
  flags : flagsValid ft ls = true
  produces : s.Produces D
  reads : s.Reads (groupBytes ft r ops)
  spells : SpellsFrom D s.olen.toNat ops
  allowed : ∀ o ∈ ops, o.Allowed ls
  group : s.AtGroup ops r

theorem stopTest_eq_none {s : State} (hx : s.expReached = false) (hip : s.ip ≠ s.il) : s.stopTest = none := by
  simp [State.stopTest, hx, State.inputDone, hip]

theorem decoderStep_decCtrl {s : State} (hp : s.phase = .decCtrl) : decoderStep s = decodeControl s := by
  unfold decoderStep
  rw [hp]

theorem decoderStep_decSlot {s : State} (hp : s.phase = .decSlot) : decoderStep s = decodeSlot s := by
  unfold decoderStep
  rw [hp]

theorem decodeControl_reads {s : State} {b : Byte} {rest : List Byte} (h : s.Reads (b :: rest))
    (hx : s.expReached = false) : decodeControl s = .next (s.openGroup b) := by
  rw [decodeControl, stopTest_eq_none hx h.ip_ne, fetch_oneByte h rfl]
  rfl

theorem decodeSlot_fetched {s : State} {i : Instr} (hx : s.expReached = false) (hip : s.ip ≠ s.il)
    (h : fetch s.slotContext s = .instr i) : decodeSlot s = exec i s.markOp := by
  rw [decodeSlot, stopTest_eq_none hx hip, h]
  rfl

theorem emitOp_eq_cons (ft : FlagTable) (o : Op) :
    ∃ b rest, emitOp ft o = b :: rest ∧ (o.isBref = true → ∃ b2, rest = [b2]) := by
  cases o with
  | lit v => exact ⟨v, [], rfl, nofun⟩
  | nib f p => exact ⟨_, [], emitOp_nib ft f p, nofun⟩
  | bref length offset => exact ⟨_, _, rfl, fun _ => ⟨_, rfl⟩⟩

/-- Before an operation the input is not exhausted; before a BREF it has both its bytes. -/
theorem State.Reads.emitOp {s : State} {ft : FlagTable} {o : Op} {bytes : List Byte}
    (h : s.Reads (emitOp ft o ++ bytes)) : s.ip ≠ s.il ∧ (o.isBref = true → s.ip + 1 ≠ s.il) := by
  obtain ⟨b, rest, hop, hbref⟩ := emitOp_eq_cons ft o
  rw [hop] at h
  refine ⟨h.ip_ne, fun hb => ?_⟩
  obtain ⟨b2, rfl⟩ := hbref hb
  exact h.ip_succ_ne

theorem SpellsFrom.room {D : List Byte} {pos : Nat} {o : Op} {ops : List Op} (h : SpellsFrom D pos (o :: ops)) :
    pos + o.width ≤ D.length := by
  have hwidth := h.width
  rw [opsWidth_cons] at hwidth
  omega

/-- One step decodes the next operation of the group. -/
theorem State.Awaits.slotStep {s : State} {D : List Byte} {ft : FlagTable} {ls : BitVec 16} {r : Nat} {o : Op}
    {ops : List Op} (h : s.Awaits D ft ls (r + 1) (o :: ops)) :
    s.phase ≠ .idle ∧ ∃ t, decoderStep s = .next t ∧ t.Awaits D ft ls r ops := by
  obtain ⟨rfl, hflags, hproduces, hreads, hspells, hallowed, hgroup⟩ := h
  have hop := hallowed o List.mem_cons_self
  have hin := hspells.room
  have hwidth := hop.width_pos
  have hx := hproduces.expReached (by omega)
  obtain ⟨hspells, hrest⟩ := hspells
  rw [groupBytes_cons] at hreads
  obtain ⟨hip, hsecond⟩ := hreads.emitOp
  obtain ⟨hp, hbit⟩ : s.phase = .decSlot ∧ slotBit s.ctrlByte s.slot = o.isLit := by
    cases hgroup with
    | slot _ hp _ hbits => exact ⟨hp, hbits 0 o (Nat.succ_pos r) rfl⟩
  have hmark : s.markOp.Produces D :=
    ⟨hproduces.length_lt, hproduces.expected, hproduces.room, hproduces.outLen_eq, hproduces.written⟩
  obtain ⟨t, hexec, ⟨hlt, hexp, hroom, hout, hwritten⟩, holen, hcursor⟩ := hmark.exec_op hspells hop hin hsecond s.ft
  have hstep := decodeSlot_fetched hx hip (fetch_emitOp hflags hop hbit hreads)
  have hadvance := hreads.advance
  simp only [State.cursor, Prod.mk.injEq] at hcursor
  obtain ⟨hbuf, hip', hil, hft, hctrl, hslot⟩ := hcursor
  refine ⟨by rw [hp]; nofun, _, (decoderStep_decSlot hp).trans (hstep.trans hexec), hft, hflags,
    ⟨hlt, hexp, hroom, hout, hwritten⟩, ?_, ?_, fun q hq => hallowed q (List.mem_cons_of_mem _ hq),
    hgroup.nextSlot hslot hctrl⟩
  · obtain ⟨hbyte, hfits⟩ := hadvance
    refine ⟨?_, ?_⟩
    · rw [State.nextSlot_inBuf, State.nextSlot_ip, hbuf, hip']; exact hbyte
    · rw [State.nextSlot_il, State.nextSlot_ip, hil, hip']; exact hfits
  · rw [State.nextSlot_olen, holen]
    exact hrest

/-- One step reads the control byte of the next group. -/
theorem State.Awaits.controlStep {s : State} {D : List Byte} {ft : FlagTable} {ls : BitVec 16} {o : Op}
    {ops : List Op} (h : s.Awaits D ft ls 0 (o :: ops)) :
    s.phase ≠ .idle ∧ ∃ t, decoderStep s = .next t ∧ t.Awaits D ft ls Config.group (o :: ops) := by
  obtain ⟨htable, hflags, hproduces, hreads, hspells, hallowed, hgroup⟩ := h
  have hin := hspells.room
  have hwidth := (hallowed o List.mem_cons_self).width_pos
  have hx := hproduces.expReached (by omega)
  have hp : s.phase = .decCtrl := by cases hgroup; assumption
  rw [groupBytes_zero ft (List.cons_ne_nil o ops)] at hreads
  have hadvance := State.Reads.advance (bytes := [_]) hreads
  refine ⟨by rw [hp]; nofun, _, (decoderStep_decCtrl hp).trans (decodeControl_reads hreads hx), htable, hflags,
    ⟨hproduces.length_lt, hproduces.expected, hproduces.room, hproduces.outLen_eq, hproduces.written⟩,
    ⟨hadvance.byte, hadvance.fits⟩, hspells, hallowed, .slot 7 rfl rfl fun j q hj hq => ?_⟩
  show slotBit _ (0 + j) = _
  rw [Nat.zero_add]
  exact slotBit_controlByte hj hq

/-! ## The run of the decoder to its end (R181, R182) -/

/-- The decoder has ended without error and without warning, with `D` in OUT. -/
structure State.Returned (t : State) (D : List Byte) : Prop where
  status : t.status = statusEnded false errNone
  outLen : t.outLen.toNat = D.length
  output : ∀ a, a < D.length → Memory.read t.outBuf a = some (byteAt D a)

/-- After the last operation the stop tests end the command. -/
theorem State.Awaits.endStep {s : State} {D : List Byte} {ft : FlagTable} {ls : BitVec 16} {r : Nat}
    (h : s.Awaits D ft ls r []) :
    s.phase ≠ .idle ∧ ∃ t, decoderStep s = .next t ∧ t.phase = .idle ∧ t.Returned D := by
  obtain ⟨-, -, hproduces, hreads, hend, -, hgroup⟩ := h
  obtain ⟨-, hexp, -, hout, hwritten⟩ := hproduces
  have hend : s.olen.toNat = D.length := hend
  rw [groupBytes_nil] at hreads
  have hstop : s.stopTest = some false := by
    have hwarn : s.lengthMismatch = false := by
      cases hxv : s.xv with
      | false => simp [State.lengthMismatch, hxv]
      | true => simp [State.lengthMismatch, hexp hxv, hend]
    simp [State.stopTest, State.inputDone, hreads.ip_eq, hwarn]
  have hreturned : (s.finishDecode false).Returned D := ⟨rfl, hend, fun a ha => hwritten a (hend ▸ ha)⟩
  cases hgroup with
  | control hp =>
    refine ⟨by rw [hp]; nofun, _, ?_, rfl, hreturned⟩
    rw [decoderStep_decCtrl hp, decodeControl, hstop]
  | slot r hp =>
    refine ⟨by rw [hp]; nofun, _, ?_, rfl, hreturned⟩
    rw [decoderStep_decSlot hp, decodeSlot, hstop]

theorem runDecoder_idle {s : State} (h : s.phase = .idle) (k : Nat) : runDecoder k s = .next s := by
  cases k with
  | zero => rfl
  | succ k => rw [runDecoder, h]

theorem runDecoder_succ {s t : State} (hp : s.phase ≠ .idle) (h : decoderStep s = .next t) (k : Nat) :
    runDecoder (k + 1) s = runDecoder k t := by
  rw [runDecoder]
  split
  · next hidle => exact absurd hidle hp
  · rw [h]

/-- The decoder follows the operations to the end of `D`, at most one step a byte of the stream and one to
stop. -/
theorem State.Awaits.run {D : List Byte} {ft : FlagTable} {ls : BitVec 16} {ops : List Op} {s : State} {r k : Nat}
    (h : s.Awaits D ft ls r ops) (hk : (groupBytes ft r ops).length < k) :
    ∃ t, runDecoder k s = .next t ∧ t.Returned D := by
  induction ops generalizing s r k with
  | nil =>
    obtain ⟨hp, t, hstep, hidle, hreturned⟩ := h.endStep
    obtain ⟨k, rfl⟩ : ∃ i, k = i + 1 := ⟨k - 1, by omega⟩
    exact ⟨t, by rw [runDecoder_succ hp hstep, runDecoder_idle hidle], hreturned⟩
  | cons o rest ih =>
    have hslot : ∀ {s : State} {r k : Nat}, s.Awaits D ft ls (r + 1) (o :: rest) →
        (groupBytes ft (r + 1) (o :: rest)).length < k → ∃ t, runDecoder k s = .next t ∧ t.Returned D := by
      intro s r k h hk
      obtain ⟨hp, t, hstep, ht⟩ := h.slotStep
      rw [groupBytes_cons, List.length_append, emitOp_length] at hk
      obtain ⟨k, rfl⟩ : ∃ i, k = i + 1 := ⟨k - 1, by omega⟩
      rw [runDecoder_succ hp hstep]
      exact ih ht (by omega)
    cases r with
    | succ r => exact hslot h hk
    | zero =>
      obtain ⟨hp, t, hstep, ht⟩ := h.controlStep
      rw [groupBytes_zero ft (List.cons_ne_nil o rest), List.length_cons] at hk
      obtain ⟨k, rfl⟩ : ∃ i, k = i + 1 := ⟨k - 1, by omega⟩
      rw [runDecoder_succ hp hstep]
      exact hslot (r := 7) ht (Nat.lt_of_succ_lt_succ hk)

/-! ## The decoder as a function (R8, R9) -/

theorem Memory.read_ofBytes {vs : List Byte} {a j : Nat} (hj : j < vs.length) :
    Memory.read (Memory.ofBytes a vs) (a + j) = vs[j]? := by
  induction vs generalizing a j with
  | nil => exact absurd hj (Nat.not_lt_zero j)
  | cons v rest ih =>
    rw [Memory.ofBytes, Memory.read]
    cases j with
    | zero => simp
    | succ j =>
      rw [if_neg (by omega), show a + (j + 1) = a + 1 + j by omega, ih (Nat.lt_of_succ_lt_succ hj)]
      simp

/-- A run of addresses that hold the bytes of a list is read as the list. -/
theorem Memory.readBytes_of_read {m : Memory} {a : Nat} {vs : List Byte}
    (h : ∀ j, j < vs.length → Memory.read m (a + j) = vs[j]?) : Memory.readBytes m a vs.length = .ok vs := by
  induction vs generalizing a with
  | nil => rfl
  | cons v rest ih =>
    have hfirst : Memory.read m a = some v := h 0 (Nat.succ_pos _)
    have hrest : Memory.readBytes m (a + 1) rest.length = .ok rest := ih fun j hj => by
      rw [Nat.add_assoc, Nat.add_comm 1 j]
      exact h (j + 1) (Nat.succ_lt_succ hj)
    simp only [List.length_cons, Memory.readBytes, hfirst, hrest]

theorem State.Returned.outBytes {t : State} {D : List Byte} (h : t.Returned D) : t.outBytes = some D := by
  have hread : Memory.readBytes t.outBuf 0 D.length = .ok D := Memory.readBytes_of_read fun j hj => by
    rw [Nat.zero_add, h.output j hj, List.getElem?_eq_getElem hj, byteAt, List.getD_eq_getElem _ _ hj]
  rw [State.outBytes, h.outLen, hread]

theorem decodesTo_of_returned {C : List Byte} {ft : FlagTable} {exp : Option Nat} {D : List Byte} {t : State}
    (hrun : runDecoder (C.length + 2) (decodeSetup C ft exp) = .next t) (h : t.Returned D) :
    decodesTo C ft exp D = true := by
  simp [decodesTo, decompress, hrun, State.done, h.status, h.outBytes]

/-- The engine at the start of a DECODE of the stream of `ops`. -/
theorem decodeSetup_awaits {D : List Byte} {ft : FlagTable} {ls : BitVec 16} {ops : List Op}
    (hD : D.length < 2 ^ 32) (hflags : flagsValid ft ls = true) (hspells : SpellsFrom D 0 ops)
    (hallowed : ∀ o ∈ ops, o.Allowed ls) (hsize : (emitStream ft ops).length < 2 ^ 32) {exp : Option Nat}
    (hexp : ∀ n, exp = some n → n = D.length) :
    (decodeSetup (emitStream ft ops) ft exp).Awaits D ft ls 0 ops := by
  have hroom : D.length ≤ 2 ^ 32 - 1 := by omega
  refine ⟨rfl, hflags, ⟨hD, fun hxv => ?_, hroom, rfl, fun a ha => absurd ha (Nat.not_lt_zero a)⟩,
    ⟨fun j hj => Memory.read_ofBytes hj, ?_⟩, hspells, hallowed, .control rfl⟩
  · obtain ⟨n, rfl⟩ := Option.isSome_iff_exists.mp hxv
    rw [← hexp n rfl] at hD ⊢
    exact BitVec.toNat_ofNat .. |>.trans (Nat.mod_eq_of_lt hD)
  · show 0 + (emitStream ft ops).length = (BitVec.ofNat 32 (emitStream ft ops).length).toNat
    rw [Nat.zero_add, BitVec.toNat_ofNat, Nat.mod_eq_of_lt hsize]

theorem decodesTo_emitStream {D : List Byte} {ft : FlagTable} {ls : BitVec 16} {ops : List Op}
    (hD : D.length < 2 ^ 32) (hflags : flagsValid ft ls = true) (hspells : SpellsFrom D 0 ops)
    (hallowed : ∀ o ∈ ops, o.Allowed ls) (hsize : (emitStream ft ops).length < 2 ^ 32) {exp : Option Nat}
    (hexp : ∀ n, exp = some n → n = D.length) : decodesTo (emitStream ft ops) ft exp D = true := by
  obtain ⟨t, hrun, hreturned⟩ := (decodeSetup_awaits hD hflags hspells hallowed hsize hexp).run
    (Nat.lt_add_of_pos_right (Nat.succ_pos 1))
  exact decodesTo_of_returned hrun hreturned

theorem controlFlags_nodup {ls : BitVec 16} (h : lengthSetOk ls) : (controlFlags ls).toList.Nodup :=
  (Nine.nodup_toList_iff _).mpr fun _ _ heq => (controlFlags_strictMono h).injective (congrArg BitVec.toNat heq)

end Sys2Proof.Machine

namespace Sys2Proof.Proofs

open Sys2Proof Sys2Proof.Machine

/-- Settles O47: the decoder reads the emitted operations one after the other, and each appends the bytes that
the parse took it for. -/
theorem referenceEncoderRoundTrip : Obligations.ReferenceEncoderRoundTrip := by
  intro D hD hsize
  obtain ⟨hspells, hallowed, hset, -⟩ := parse_parsed D
  have hlen : (referenceResult D).2.length ≤ 65535 := (emitStream_length _ _).trans_le hsize
  have hdecodes : ∀ exp : Option Nat, (∀ n, exp = some n → n = D.length) →
      decodesTo (referenceResult D).2 (flagTableOfNibbles (referenceResult D).1) exp D = true := fun exp hexp =>
    decodesTo_emitStream hD (controlFlags_flagsValid hset) hspells hallowed (hlen.trans_lt (by decide)) hexp
  simp only [validResult, Bool.and_eq_true, decide_eq_true_eq]
  exact ⟨⟨⟨controlFlags_nodup hset, hlen⟩, hdecodes none nofun⟩, hdecodes _ fun n hn => (Option.some.inj hn).symm⟩

end Sys2Proof.Proofs


/-! # The decoder's step and its one-byte operations (R172 to R176, R181) -/

namespace Sys2Proof.Machine

/-! ## Fetching a slot's operation (R62, R72) -/

/-- What one byte decodes to is fetched from that byte alone. -/
theorem fetch_of_decode_one {s : State} {c : Context} {b : Byte} {i : Instr} {rest : List Byte}
    (hb : s.streamByte 0 = some b) (hlen : opLength c b = 1) (hdec : decode c [b] = .ok (i, rest)) :
    fetch c s = .instr i := by
  simp only [fetch, hb, if_pos hlen, fetchedOf_of_decode hdec]

/-- The operation that a byte begins in a slot is whole with that byte, or takes one byte more (R62). -/
theorem decode_slot_cases (l : Bool) (ft : FlagTable) (b : Byte) :
    (opLength (.slot l ft) b = 1 ∧ ∃ i, ∀ rest, decode (.slot l ft) (b :: rest) = .ok (i, rest)) ∨
      (opLength (.slot l ft) b ≠ 1 ∧ decode (.slot l ft) [b] = .error .missingSecondByte) := by
  cases l with
  | true => exact .inl ⟨rfl, .lit b, fun _ => rfl⟩
  | false =>
    cases hidx : flagIndex ft (hi b) with
    | some k => exact .inl ⟨by simp [opLength, hidx], _, decode_special_of_index hidx⟩
    | none => exact .inr ⟨by simp [opLength, hidx], by simp [decode, decodeSpecial, hidx]⟩

theorem opLength_of_decode_one {l : Bool} {ft : FlagTable} {b : Byte} {r : Instr × List Byte}
    (hdec : decode (.slot l ft) [b] = .ok r) : opLength (.slot l ft) b = 1 := by
  rcases decode_slot_cases l ft b with ⟨hlen, -⟩ | ⟨-, hmiss⟩
  · exact hlen
  · rw [hmiss] at hdec; cases hdec

theorem opLength_of_decode_two {l : Bool} {ft : FlagTable} {b b2 : Byte} {i : Instr}
    (hdec : decode (.slot l ft) [b, b2] = .ok (i, [])) : opLength (.slot l ft) b ≠ 1 := by
  rcases decode_slot_cases l ft b with ⟨-, j, hone⟩ | ⟨hlen, -⟩
  · rw [hone] at hdec; cases hdec
  · exact hlen

theorem opLength_of_missing {l : Bool} {ft : FlagTable} {b : Byte}
    (hdec : decode (.slot l ft) [b] = .error .missingSecondByte) : opLength (.slot l ft) b ≠ 1 := by
  rcases decode_slot_cases l ft b with ⟨-, j, hone⟩ | ⟨hlen, -⟩
  · rw [hone] at hdec; cases hdec
  · exact hlen

/-! ## A step of DEC_CTRL and of DEC_SLOT (R172) -/

/-- On the engine's turn a step is the step of its phase. -/
theorem step_phase {s : State} {p : Phase} (hs : s.schedule = []) (hp : s.phase = p) : step s = phaseStep p s :=
  (step_engine hs).trans (engineStep_eq hp)

theorem decodeControl_of_fetch {s : State} (hstop : s.stopTest = none) {x : Fetched}
    (hx : fetch .control s = x) : decodeControl s = runFetched x s := by
  rw [decodeControl, hstop, hx]

theorem decodeSlot_of_fetch {s : State} (hstop : s.stopTest = none) {x : Fetched}
    (hx : fetch s.slotContext s = x) : decodeSlot s = runFetched x s.markOp := by
  rw [decodeSlot, hstop, hx]

/-- A stop test that is true ends the command, before a control byte and before an operation alike. -/
theorem step_of_stopTest {s : State} {w : Bool} (hs : s.schedule = []) (hp : s.phase = .decCtrl ∨ s.phase = .decSlot)
    (hstop : s.stopTest = some w) : step s = .next (s.finishDecode w) := by
  rcases hp with hp | hp <;> rw [step_phase hs hp, phaseStep]
  · rw [decodeControl, hstop]
  · rw [decodeSlot, hstop]

theorem stopTest_of_expReached {s : State} (hx : s.expReached = true) : s.stopTest = some false := by
  rw [State.stopTest, if_pos hx]

theorem stopTest_of_inputDone {s : State} (hx : s.expReached = false) (hip : s.ip = s.il) :
    s.stopTest = some s.lengthMismatch := by
  simp [State.stopTest, hx, State.inputDone, hip]

theorem State.expReached_iff {s : State} : s.expReached = true ↔ s.xv = true ∧ s.olen = s.xl := by
  simp [State.expReached]

theorem statusEnded_lengthMismatch (s : State) : statusEnded s.lengthMismatch errNone =
    if s.xv = true ∧ s.olen.toNat < s.xl.toNat then 0x00000006#32 else 0x00000002#32 := by
  split
  · next h => rw [show s.lengthMismatch = true by simpa [State.lengthMismatch] using h]; rfl
  · next h => rw [show s.lengthMismatch = false by simpa [State.lengthMismatch] using h]; rfl

/-! ## A nibble pattern cut after its first byte (R176, R180) -/

theorem appendPair_cut (b : Byte × Byte) {s : State} (h0 : s.expReached = false) (hc0 : s.olen.toNat ≠ s.cfg.outCap)
    (h1 : (s.putByte b.1).expReached = true) : appendPair b s = .ended ((s.putByte b.1).finishDecode false) := by
  rw [appendPair, append_room h0 hc0]
  exact append_reached h1

end Sys2Proof.Machine

namespace Sys2Proof.Proofs

open Sys2Proof Sys2Proof.Machine

/-- Settles O8: a control byte is always one byte long. -/
theorem stepRunsControlByte : Obligations.StepRunsControlByte := by
  intro s b i rest hs hp hstop hb hdec
  rw [step_phase hs hp]
  exact decodeControl_of_fetch hstop (fetch_of_decode_one hb rfl hdec)

/-- Settles O9, by the length of the operation that the first byte begins. -/
theorem stepRunsSlotOperation : Obligations.StepRunsSlotOperation := by
  intro s b hs hp hstop hb
  have hrun : ∀ {x : Fetched}, fetch s.slotContext s = x → step s = runFetched x s.markOp := fun hx =>
    (step_phase hs hp).trans (decodeSlot_of_fetch hstop hx)
  refine ⟨fun i hdec => ?_, fun b2 i hip hb2 hdec => ?_, fun hip hdec => ?_⟩
  · exact hrun (fetch_of_decode_one hb (opLength_of_decode_one hdec) hdec)
  · refine hrun (x := .instr i) ?_
    simp only [fetch, hb, State.slotContext, if_neg (opLength_of_decode_two hdec), if_neg hip, hb2,
      fetchedOf_of_decode hdec]
  · refine (hrun (x := .truncated) ?_).trans rfl
    simp only [fetch, hb, State.slotContext, if_neg (opLength_of_missing hdec), if_pos hip]

/-- Settles O11. -/
theorem stopTestsEndDecode : Obligations.StopTestsEndDecode := by
  intro s hs hp
  refine ⟨fun hxv hxl => ?_, fun hx hip => ?_⟩
  · exact step_of_stopTest hs hp (stopTest_of_expReached (State.expReached_iff.mpr ⟨hxv, hxl⟩))
  · rw [← statusEnded_lengthMismatch]
    exact step_of_stopTest hs hp (stopTest_of_inputDone (State.expReached_eq_false_iff.mpr hx) hip)

/-- Settles O12. -/
theorem ctrlOpensGroup : Obligations.CtrlOpensGroup :=
  execCtrl_eq

/-- Settles O13: with room, Append writes its byte and the next slot follows. -/
theorem litAppendsItsByte : Obligations.LitAppendsItsByte := by
  intro v s hx hc
  have hgo : append v (s.advance 1) = .go ((s.advance 1).putByte v) :=
    append_room (State.expReached_eq_false_iff.mpr hx) hc
  have hexec : exec (.lit v) s = .next ((s.advance 1).putByte v).nextSlot := congrArg Flow.endOp hgo
  rw [hexec, State.nextSlot_eq]
  rfl

/-- Settles O15: the second Append finds the expected length reached. -/
theorem nibCutByExpectedLength : Obligations.NibCutByExpectedLength := by
  intro k p s hxv hxl hc
  have h0 : (s.advance 1).expReached = false := State.expReached_eq_false_iff.mpr fun ⟨_, heq⟩ => by
    have heq : s.olen = s.xl := heq
    bv_omega
  have hcut := appendPair_cut (expand k p) h0 hc (State.expReached_iff.mpr ⟨hxv, hxl⟩)
  rw [exec_nibInstr, nibOp, hcut]
  rfl

end Sys2Proof.Proofs


/-! # The back-reference copy: whole, cut by the expected length, or stopped by a full OUT (R177 to R180) -/

namespace Sys2Proof.Machine

/-! ## What the copy has written so far (R179) -/

/-- Append stops at output length `p`: the expected length or the capacity (R180). -/
def State.StopsAt (s : State) (p : Nat) : Prop := (s.xv = true ∧ p = s.xl.toNat) ∨ p = s.cfg.outCap

/-- The first `j` bytes of a copy from `off` behind `olen` are in `m`; no Append of them found a reason to stop. -/
structure State.Copied (s : State) (off j : Nat) (m : Memory) : Prop where
  bytes : ∀ i, i < j →
    Memory.read m (s.olen.toNat + i) = Memory.read s.outBuf (s.olen.toNat - off + i % off)
  others : ∀ a, a < s.olen.toNat ∨ s.olen.toNat + j ≤ a → Memory.read m a = Memory.read s.outBuf a
  noStop : ∀ i, i < j → ¬ s.StopsAt (s.olen.toNat + i)

theorem State.Copied.start (s : State) (off : Nat) : s.Copied off 0 s.outBuf :=
  ⟨fun _ hi => absurd hi (Nat.not_lt_zero _), fun _ _ => rfl, fun _ hi => absurd hi (Nat.not_lt_zero _)⟩

/-- One more byte of the copy. -/
theorem State.Copied.succ {s : State} {off j : Nat} {m : Memory} (h : s.Copied off j m) {v : Byte}
    (hv : Memory.read s.outBuf (s.olen.toNat - off + j % off) = some v) (hstop : ¬ s.StopsAt (s.olen.toNat + j)) :
    s.Copied off (j + 1) (Memory.write m (s.olen.toNat + j) v) := by
  obtain ⟨hbytes, hothers, hno⟩ := h
  refine ⟨fun i hi => ?_, fun a ha => ?_, fun i hi => ?_⟩
  · rcases Nat.lt_succ_iff_lt_or_eq.mp hi with hlt | rfl
    · rw [Memory.read_write_other _ _ _ _ (by omega), hbytes i hlt]
    · rw [Memory.read_write_same, hv]
  · rw [Memory.read_write_other _ _ _ _ (by omega), hothers a (by omega)]
  · rcases Nat.lt_succ_iff_lt_or_eq.mp hi with hlt | rfl
    · exact hno i hlt
    · exact hstop

/-- `s` within the copy of a BREF: `j` bytes are copied and OUT is `m`. -/
def State.midCopy (s : State) (off len j : Nat) (m : Memory) : State :=
  { s.beginCopy off len with
    outBuf := m
    olen := s.olen + BitVec.ofNat 32 j
    outLen := if j = 0 then s.outLen else s.olen + BitVec.ofNat 32 j
    copyCount := BitVec.ofNat 5 j }

theorem State.midCopy_zero (s : State) (off len : Nat) : s.midCopy off len 0 s.outBuf = s.beginCopy off len := by
  simp only [State.midCopy, show s.olen + BitVec.ofNat 32 0 = s.olen from BitVec.add_zero s.olen]
  rfl

/-- Append of the next byte, counted. -/
theorem State.midCopy_succ (s : State) (off len j : Nat) (m : Memory) (v : Byte)
    (hlen : (s.olen + BitVec.ofNat 32 j).toNat = s.olen.toNat + j) :
    ((s.midCopy off len j m).putByte v).countCopy =
      s.midCopy off len (j + 1) (Memory.write m (s.olen.toNat + j) v) := by
  have holen : s.olen + BitVec.ofNat 32 j + 1 = s.olen + BitVec.ofNat 32 (j + 1) := by
    rw [BitVec.add_assoc, BitVec.ofNat_add]
    rfl
  have hcount : BitVec.ofNat 5 j + 1 = BitVec.ofNat 5 (j + 1) := (BitVec.ofNat_add j 1).symm
  simp only [State.midCopy, State.putByte, State.countCopy, holen, hcount, hlen, Nat.succ_ne_zero, if_false]

/-- The copy of a BREF whose offset is admitted (R178), with a stop for Append at some output length of 32 bits
not below `olen`. -/
structure State.MayCopy (s : State) (off len : Nat) : Prop where
  offset_pos : 1 ≤ off
  offset_max : off ≤ 4096
  offset_le : off ≤ s.olen.toNat
  length_max : len ≤ 18
  stop : ∃ p, s.olen.toNat ≤ p ∧ p < 2 ^ 32 ∧ s.StopsAt p

/-- A copy that found no stop has not passed one. -/
theorem State.Copied.le_stop {s : State} {off j p : Nat} {m : Memory} (h : s.Copied off j m)
    (hp : s.StopsAt p) (hle : s.olen.toNat ≤ p) : s.olen.toNat + j ≤ p := by
  by_contra hgt
  refine h.noStop (p - s.olen.toNat) (by omega) ?_
  rwa [Nat.add_sub_cancel' hle]

/-- Before a stop of 32 bits `olen` has not wrapped. -/
theorem State.Copied.olen_toNat {s : State} {off len j : Nat} {m : Memory} (h : s.Copied off j m)
    (hs : s.MayCopy off len) : (s.olen + BitVec.ofNat 32 j).toNat = s.olen.toNat + j := by
  obtain ⟨p, hle, hlt, hp⟩ := hs.stop
  have hj := h.le_stop hp hle
  bv_omega

/-- The next source byte is the one that was there when the copy began. -/
theorem State.Copied.source {s : State} {off len j : Nat} {m : Memory} (h : s.Copied off j m)
    (hs : s.MayCopy off len) (hj : j < len) : Memory.read m (s.midCopy off len j m).copySource =
      Memory.read s.outBuf (s.olen.toNat - off + j % off) := by
  obtain ⟨hpos, hmax, hle, hlen, -⟩ := hs
  have hmod : j % off < off := Nat.mod_lt _ hpos
  have hbase : (s.olen - BitVec.ofNat 32 off).toNat = s.olen.toNat - off := by bv_omega
  have hoffset : (BitVec.ofNat 13 off).toNat = off := by rw [BitVec.toNat_ofNat]; omega
  have hcount : (BitVec.ofNat 5 j).toNat = j := by rw [BitVec.toNat_ofNat]; omega
  have hsource : (s.midCopy off len j m).copySource = s.olen.toNat - off + j % off := by
    show (s.olen - BitVec.ofNat 32 off).toNat + (BitVec.ofNat 5 j).toNat % (BitVec.ofNat 13 off).toNat = _
    rw [hbase, hoffset, hcount]
  rw [hsource]
  exact h.others _ (.inl (by omega))

/-! ## Everything a copy can do (R179, R180) -/

/-- The ends of a copy of `len` bytes: all are copied, or after `j` of them the expected length is reached, OUT is
full, or the source byte has never been written. -/
inductive CopyCase (s : State) (off len : Nat) : Flow → Prop where
  | whole (m : Memory) (h : s.Copied off len m) : CopyCase s off len (.go (s.midCopy off len len m))
  | reached (j : Nat) (m : Memory) (hj : j < len) (h : s.Copied off j m) (hxv : s.xv = true)
      (hxl : s.olen.toNat + j = s.xl.toNat) :
      CopyCase s off len (.ended ((s.midCopy off len j m).finishDecode false))
  | full (j : Nat) (m : Memory) (hj : j < len) (h : s.Copied off j m)
      (hx : ¬ (s.xv = true ∧ s.olen.toNat + j = s.xl.toNat)) (hcap : s.olen.toNat + j = s.cfg.outCap) :
      CopyCase s off len (.ended ((s.midCopy off len j m).raiseDecode errOutputOverflow))
  | unwritten (j : Nat) (hj : j < len) (h : Memory.read s.outBuf (s.olen.toNat - off + j % off) = none) (f : Fault) :
      CopyCase s off len (.fault f)

theorem copyBytes_case_from {s : State} {off len : Nat} (hs : s.MayCopy off len) {k j : Nat} (hk : j + k = len)
    {m : Memory} (h : s.Copied off j m) : CopyCase s off len (copyBytes k (s.midCopy off len j m)) := by
  induction k generalizing j m with
  | zero =>
    obtain rfl : j = len := hk
    exact .whole m h
  | succ k ih =>
    have hj : j < len := by omega
    have holen := h.olen_toNat hs
    have hsource := h.source hs hj
    have hreached : (s.midCopy off len j m).expReached = true ↔ s.xv = true ∧ s.olen.toNat + j = s.xl.toNat := by
      rw [State.expReached_iff, ← holen]
      exact and_congr_right' BitVec.toNat_inj.symm
    rw [copyBytes_succ]
    rcases copyByte_cases (s.midCopy off len j m) with ⟨hnone, e⟩ | ⟨v, hv, e⟩ <;> rw [e]
    · exact .unwritten j hj (hsource.symm.trans hnone) _
    rcases append_cases v (s.midCopy off len j m) with ⟨hx, e⟩ | ⟨hx, hc, e⟩ | ⟨hx, hc, e⟩ <;> rw [e]
    · obtain ⟨hxv, hxl⟩ := hreached.mp hx
      exact .reached j m hj h hxv hxl
    · exact .full j m hj h (fun hr => by rw [hreached.mpr hr] at hx; cases hx) (holen.symm.trans hc)
    · have hstop : ¬ s.StopsAt (s.olen.toNat + j) := by
        rintro (hr | hfull)
        · rw [hreached.mpr hr] at hx; cases hx
        · exact hc (holen.trans hfull)
      have hgo := ih (by omega) (h.succ (hsource.symm.trans hv) hstop)
      rw [← State.midCopy_succ s off len j m v holen] at hgo
      exact hgo

theorem copyBytes_case {s : State} {off len : Nat} (hs : s.MayCopy off len) :
    CopyCase s off len (copyBytes len (s.beginCopy off len)) := by
  rw [← State.midCopy_zero]
  exact copyBytes_case_from hs (Nat.zero_add len) (.start s off)

/-! ## BREF (R177 to R179) -/

theorem brefOffset_pos (x : BitVec 12) : 1 ≤ brefOffset x := by unfold brefOffset; omega

theorem brefOffset_le (x : BitVec 12) : brefOffset x ≤ 4096 := Nat.sub_le _ _

theorem brefLength_le (d : Nibble) : brefLength d ≤ 18 := by unfold brefLength; omega

theorem copyLeft_beginCopy (s : State) (off : Nat) (d : Nibble) :
    (s.beginCopy off (brefLength d)).copyLeft = brefLength d := by
  have hlen := brefLength_le d
  show (BitVec.ofNat 5 (brefLength d)).toNat - 0 = brefLength d
  rw [BitVec.toNat_ofNat]
  omega

/-- A BREF of two bytes with an admitted offset is its copy. -/
theorem exec_bref_copies {d : Nibble} {x : BitVec 12} {s : State} (hip : s.ip + 1 ≠ s.il)
    (hoff : brefOffset x ≤ s.olen.toNat) : exec (.bref d x) s =
      (copyBytes (brefLength d) ((s.advance 2).beginCopy (brefOffset x) (brefLength d))).endOp := by
  have hgood : badOffset (brefOffset x) (s.advance 2) = false := by
    have hpos := brefOffset_pos x
    rw [badOffset, Bool.or_eq_false_iff, decide_eq_false_iff_not, decide_eq_false_iff_not]
    exact ⟨by omega, Nat.not_lt.mpr hoff⟩
  show execBref d x s = _
  simp only [execBref, if_neg hip, hgood, finishCopy, copyLeft_beginCopy, Bool.false_eq_true, if_false]

/-- Every end of a BREF of two bytes with an admitted offset. -/
theorem exec_bref_case {d : Nibble} {x : BitVec 12} {s : State} (hip : s.ip + 1 ≠ s.il)
    (hoff : brefOffset x ≤ s.olen.toNat) {p : Nat} (hle : s.olen.toNat ≤ p) (hp : p < 2 ^ 32) (hstop : s.StopsAt p) :
    ∃ f, exec (.bref d x) s = f.endOp ∧ CopyCase (s.advance 2) (brefOffset x) (brefLength d) f :=
  ⟨_, exec_bref_copies hip hoff,
    copyBytes_case ⟨brefOffset_pos x, brefOffset_le x, hoff, brefLength_le d, p, hle, hp, hstop⟩⟩

/-- Every source byte of the copy lies among the `off` bytes before `olen`. -/
theorem read_source_isSome {m : Memory} {a off : Nat} (hoff : 1 ≤ off)
    (h : ∀ j, j < off → (Memory.read m (a + j)).isSome = true) (j : Nat) : Memory.read m (a + j % off) ≠ none :=
  Option.isSome_iff_ne_none.mp (h _ (Nat.mod_lt j hoff))

/-- With room for the whole copy and no expected length inside it, the copy is whole, or faults at a source byte that
has never been written. -/
theorem exec_bref_whole {d : Nibble} {x : BitVec 12} {s : State} (hip : s.ip + 1 ≠ s.il)
    (hoff : brefOffset x ≤ s.olen.toNat) (hroom : s.olen.toNat + brefLength d ≤ s.cfg.outCap)
    (hcap : s.cfg.outCap < 2 ^ 32) (hexp : s.xv = true → s.olen.toNat + brefLength d ≤ s.xl.toNat) :
    (∃ m, (s.advance 2).Copied (brefOffset x) (brefLength d) m ∧ exec (.bref d x) s =
      .next ((s.advance 2).midCopy (brefOffset x) (brefLength d) (brefLength d) m).nextSlot) ∨
    ∃ j f, Memory.read s.outBuf (s.olen.toNat - brefOffset x + j % brefOffset x) = none ∧
      exec (.bref d x) s = .fault f := by
  obtain ⟨f, hf, hcase⟩ := exec_bref_case (d := d) hip hoff (by omega) hcap (.inr rfl)
  rw [hf]
  cases hcase with
  | whole m h => exact .inl ⟨m, h, rfl⟩
  | reached j m hj h hxv hxl =>
    have hle := hexp hxv
    rw [State.advance_olen, State.advance_xl] at hxl
    omega
  | full j m hj h hx hfull =>
    rw [State.advance_olen, State.advance_cfg] at hfull
    omega
  | unwritten j hj h f => exact .inr ⟨j, f, h, rfl⟩

end Sys2Proof.Machine

namespace Sys2Proof.Proofs

open Sys2Proof Sys2Proof.Machine

/-- Settles O16: neither stop lies inside the copy, and its source is written. -/
theorem brefCopiesCyclically : Obligations.BrefCopiesCyclically := by
  intro d x s hip hoff hroom hcap hexp hsrc
  rcases exec_bref_whole hip hoff hroom hcap hexp with ⟨m, h, he⟩ | ⟨j, f, hnone, -⟩
  · refine ⟨_, he, h.bytes, h.others, ?_⟩
    have hlen : brefLength d ≠ 0 := Nat.succ_ne_zero _
    rw [State.nextSlot_eq]
    simp only [State.midCopy, if_neg hlen]
    rfl
  · exact absurd hnone (read_source_isSome (brefOffset_pos x) hsrc j)

/-- Settles O17: the source of byte `j` is the byte `offset` places before it, one turn of the cycle earlier. -/
theorem brefEqualsOverlappingCopy : Obligations.BrefEqualsOverlappingCopy := by
  intro d x s t hip hoff hroom hcap hexp ht j hj
  have hpos := brefOffset_pos x
  rcases exec_bref_whole hip hoff hroom hcap hexp with ⟨m, h, he⟩ | ⟨j, f, -, he⟩ <;> rw [he] at ht <;> cases ht
  show Memory.read m _ = Memory.read m _
  have hbytes : ∀ i, i < brefLength d → Memory.read m (s.olen.toNat + i) =
      Memory.read s.outBuf (s.olen.toNat - brefOffset x + i % brefOffset x) := h.bytes
  rw [hbytes j hj]
  rcases Nat.lt_or_ge j (brefOffset x) with hlt | hge
  · rw [h.others _ (.inl (by rw [State.advance_olen]; omega)), Nat.mod_eq_of_lt hlt]
    congr 1
    omega
  · rw [Nat.add_sub_assoc hge, hbytes _ (by omega), Nat.mod_eq_sub_mod hge]

/-- Settles O18: the copy passes no stop, so it ends at the expected length. -/
theorem brefCutByExpectedLength : Obligations.BrefCutByExpectedLength := by
  intro d x s hip hoff hxv hle hcut hcap hsrc
  have hstop : (s.advance 2).StopsAt s.xl.toNat := .inl ⟨hxv, rfl⟩
  obtain ⟨f, hf, hcase⟩ := exec_bref_case (d := d) hip hoff hle s.xl.isLt hstop
  rw [hf]
  cases hcase with
  | whole m h => exact absurd (h.le_stop hstop hle) (Nat.not_le.mpr hcut)
  | reached j m hj h _ hxl =>
    have hxl : s.olen.toNat + j = s.xl.toNat := hxl
    have hout : s.olen + BitVec.ofNat 32 j = s.xl := by bv_omega
    exact ⟨_, rfl, rfl, rfl, rfl, hout, rfl, fun i hi => h.bytes i (by omega),
      fun a ha => h.others a (hxl.symm ▸ ha)⟩
  | full j m hj h hx hfull =>
    have hfull : s.olen.toNat + j = s.cfg.outCap := hfull
    have hj : s.olen.toNat + j ≤ s.xl.toNat := h.le_stop hstop hle
    exact absurd ⟨hxv, Nat.le_antisymm hj (hfull ▸ hcap)⟩ hx
  | unwritten j _ hnone => exact absurd hnone (read_source_isSome (brefOffset_pos x) hsrc j)

/-- Settles O19: the copy passes no stop, so it ends at the capacity. -/
theorem brefOverflowKeepsCopiedBytes : Obligations.BrefOverflowKeepsCopiedBytes := by
  intro d x s hip hoff hle hcut hcap hexp hsrc
  have hstop : (s.advance 2).StopsAt s.cfg.outCap := .inr rfl
  obtain ⟨f, hf, hcase⟩ := exec_bref_case (d := d) hip hoff hle hcap hstop
  rw [hf]
  cases hcase with
  | whole m h => exact absurd (h.le_stop hstop hle) (Nat.not_le.mpr hcut)
  | reached j m hj h hxv hxl =>
    have hxl : s.olen.toNat + j = s.xl.toNat := hxl
    have hj : s.olen.toNat + j ≤ s.cfg.outCap := h.le_stop hstop hle
    exact absurd (hexp hxv) (Nat.not_lt.mpr (hxl ▸ hj))
  | full j m hj h hx hfull =>
    have hfull : s.olen.toNat + j = s.cfg.outCap := hfull
    have hout : s.olen + BitVec.ofNat 32 j = BitVec.ofNat 32 s.cfg.outCap := by
      rw [← hfull, BitVec.ofNat_add, BitVec.ofNat_toNat, BitVec.setWidth_eq]
    exact ⟨_, rfl, rfl, rfl, rfl, hout, rfl, fun i hi => h.bytes i (by omega),
      fun a ha => h.others a (hfull.symm ▸ ha)⟩
  | unwritten j _ hnone => exact absurd hnone (read_source_isSome (brefOffset_pos x) hsrc j)

end Sys2Proof.Proofs


/-! # What a stream operation leaves unchanged, and the end of every DECODE (R172 to R183) -/

namespace Sys2Proof.Machine

/-! ## The frame of a stream operation (R41, R42, R172 to R180) -/

/-- `s` with everything that a stream operation may change taken from `t`. -/
def State.withOperationOf (s t : State) : State :=
  { s with
    ip := t.ip, olen := t.olen, outLen := t.outLen, outBuf := t.outBuf, ctrlByte := t.ctrlByte, slot := t.slot,
    phase := t.phase, copyBase := t.copyBase, copyOffset := t.copyOffset, copyLength := t.copyLength,
    copyCount := t.copyCount, status := t.status, errPos := t.errPos, inPos := t.inPos }

/-- From `s` an operation came to `t`: its bytes are read and at most `n` bytes appended. -/
structure OperationFrame (s : State) (n : Nat) (t : State) : Prop where
  frame : t = s.withOperationOf t
  ip : t.ip = s.ip + 1 ∨ t.ip = s.ip + 2
  olen_ge : s.olen.toNat ≤ t.olen.toNat
  olen_le : t.olen.toNat ≤ s.olen.toNat + n
  cap : t.olen.toNat ≤ s.cfg.outCap
  outLen : t.outLen = t.olen ∨ t.outLen = s.outLen ∧ t.olen = s.olen
  others : ∀ a, a < s.olen.toNat ∨ t.olen.toNat ≤ a → Memory.read t.outBuf a = Memory.read s.outBuf a

/-- STATUS, ERR_POS and IN_POS are as they were. -/
def SameEndRegisters (s t : State) : Prop := t.status = s.status ∧ t.errPos = s.errPos ∧ t.inPos = s.inPos

/-- Inside the operation the registers of a command's end are untouched. -/
def InOperation (s : State) (n : Nat) (t : State) : Prop := OperationFrame s n t ∧ SameEndRegisters s t

/-- After the operation they are untouched unless the command has ended. -/
def AfterOperation (s : State) (n : Nat) (t : State) : Prop :=
  OperationFrame s n t ∧ (t.phase = .idle ∨ SameEndRegisters s t)

theorem OperationFrame.mono {s t : State} {n k : Nat} (h : OperationFrame s n t) (hk : n ≤ k) :
    OperationFrame s k t := { h with olen_le := h.olen_le.trans (Nat.add_le_add_left hk _) }

theorem InOperation.mono {s t : State} {n k : Nat} (h : InOperation s n t) (hk : n ≤ k) : InOperation s k t :=
  ⟨h.1.mono hk, h.2⟩

theorem OperationFrame.read {s : State} (hcap : s.olen.toNat ≤ s.cfg.outCap) {k : Word} (hk : k = 1 ∨ k = 2) :
    OperationFrame s 0 (s.advance k) :=
  ⟨rfl, hk.imp (congrArg (s.ip + ·)) (congrArg (s.ip + ·)), Nat.le_refl _, Nat.le_refl _, hcap, .inr ⟨rfl, rfl⟩,
    fun _ _ => rfl⟩

theorem InOperation.read {s : State} (hcap : s.olen.toNat ≤ s.cfg.outCap) {k : Word} (hk : k = 1 ∨ k = 2) :
    InOperation s 0 (s.advance k) := ⟨.read hcap hk, rfl, rfl, rfl⟩

theorem InOperation.beginCopy {s t : State} {n : Nat} (h : InOperation s n t) (off len : Nat) :
    InOperation s n (t.beginCopy off len) :=
  ⟨{ h.1 with frame := by rw [h.1.frame]; rfl }, h.2⟩

theorem InOperation.countCopy {s t : State} {n : Nat} (h : InOperation s n t) : InOperation s n t.countCopy :=
  ⟨{ h.1 with frame := by rw [h.1.frame]; rfl }, h.2⟩

theorem InOperation.nextSlot {s t : State} {n : Nat} (h : InOperation s n t) : AfterOperation s n t.nextSlot :=
  ⟨{ h.1 with frame := by rw [h.1.frame]; rfl }, .inr h.2⟩

theorem InOperation.endCommand {s t : State} {n : Nat} (h : InOperation s n t) (w : Bool) (err : BitVec 4)
    (p : Word) : AfterOperation s n (t.endCommand w err p t.olen t.ip) :=
  ⟨{ h.1 with frame := by rw [h.1.frame]; rfl, outLen := .inl rfl }, .inl rfl⟩

section
variable {s : State} (hcap : s.cfg.outCap < 2 ^ 32)
include hcap

theorem InOperation.putByte {t : State} {n : Nat} (h : InOperation s n t) (v : Byte)
    (hfull : t.olen.toNat ≠ t.cfg.outCap) : InOperation s (n + 1) (t.putByte v) := by
  obtain ⟨⟨hframe, hip, hge, hle, hmax, -, hothers⟩, hend⟩ := h
  have hcfg : t.cfg = s.cfg := by rw [hframe]; rfl
  have hnext : (t.putByte v).olen.toNat = t.olen.toNat + 1 :=
    State.putByte_olen_toNat (by rw [hcfg] at hfull; omega)
  refine ⟨⟨by rw [hframe]; rfl, hip, by omega, by omega, by rw [hcfg] at hfull; omega, .inl rfl, fun a ha => ?_⟩, hend⟩
  rw [hnext] at ha
  rw [State.putByte_outBuf, Memory.read_write_other _ _ _ _ (by omega)]
  exact hothers a (by omega)

theorem InOperation.append {t : State} {n m : Nat} (h : InOperation s n t) (v : Byte) (hm : n + 1 ≤ m) :
    (append v t).Post (InOperation s (n + 1)) (AfterOperation s m) := by
  have hended := h.mono ((Nat.le_succ n).trans hm)
  rcases append_cases v t with ⟨-, e⟩ | ⟨-, -, e⟩ | ⟨-, hfull, e⟩ <;> rw [e]
  · exact hended.endCommand _ _ _
  · exact hended.endCommand _ _ _
  · exact h.putByte hcap v hfull

theorem InOperation.appendPair {t : State} {n m : Nat} (h : InOperation s n t) (b : Byte × Byte) (hm : n + 2 ≤ m) :
    (appendPair b t).Post (InOperation s (n + 2)) (AfterOperation s m) :=
  (h.append hcap b.1 ((Nat.le_succ _).trans hm)).andThen fun _ hu => hu.append hcap b.2 hm

theorem InOperation.copyBytes {t : State} {n m : Nat} (k : Nat) (h : InOperation s n t) (hm : n + k ≤ m) :
    (copyBytes k t).Post (InOperation s (n + k)) (AfterOperation s m) := by
  induction k generalizing n t with
  | zero => exact h
  | succ k ih =>
    rw [copyBytes_succ]
    rcases copyByte_cases t with ⟨-, e⟩ | ⟨v, -, e⟩ <;> rw [e]
    · trivial
    have hbyte : ((Machine.append v t).andThen fun u => .go u.countCopy).Post (InOperation s (n + 1))
        (AfterOperation s m) :=
      Flow.Post.andThen (h.append hcap v (by omega)) fun _ hu => hu.countCopy
    refine hbyte.andThen fun u hu => ?_
    rw [Nat.add_comm k 1, ← Nat.add_assoc] at hm ⊢
    exact ih hu hm

theorem execBref_afterOperation (hle : s.olen.toNat ≤ s.cfg.outCap) {d : Nibble} {x : BitVec 12} {t : State}
    (ht : execBref d x s = .next t) : AfterOperation s (brefLength d) t := by
  have hone := (InOperation.read hle (.inl rfl)).mono (Nat.zero_le (brefLength d))
  have htwo := InOperation.read hle (k := 2) (.inr rfl)
  simp only [execBref] at ht
  split_ifs at ht
  · cases ht; exact hone.endCommand _ _ _
  · cases ht; exact (htwo.mono (Nat.zero_le _)).endCommand _ _ _
  · rw [finishCopy, copyLeft_beginCopy] at ht
    have hcopy := (htwo.beginCopy (brefOffset x) (brefLength d)).copyBytes hcap (brefLength d)
      (Nat.zero_add _).le
    rw [Nat.zero_add] at hcopy
    exact hcopy.endOp (fun _ => InOperation.nextSlot) ht

theorem SlotOperation.afterOperation (hle : s.olen.toNat ≤ s.cfg.outCap) {i : Instr} (hi : SlotOperation i)
    {t : State} (ht : exec i s = .next t) : AfterOperation s (storeLimit i) t := by
  have hone := InOperation.read hle (k := 1) (.inl rfl)
  cases hi with
  | lit v => exact (hone.append hcap v (Nat.le_refl _)).endOp (fun _ => InOperation.nextSlot) ht
  | nib k p =>
    rw [exec_nibInstr] at ht
    have hlimit : storeLimit (nibInstr k p) = 2 := by
      match k with
      | 0 | 1 | 2 | 3 | 4 | 5 | 6 | 7 | 8 => rfl
    rw [hlimit]
    exact (hone.appendPair hcap _ (Nat.le_refl _)).endOp (fun _ => InOperation.nextSlot) ht
  | bref d x => exact execBref_afterOperation hcap hle ht

end

theorem openGroup_afterOperation {s : State} (hle : s.olen.toNat ≤ s.cfg.outCap) (c : Byte) :
    AfterOperation s 0 (s.openGroup c) := by
  obtain ⟨⟨hframe, hip, hge, hlimit, hmax, hout, hothers⟩, hend⟩ := InOperation.read hle (k := 1) (.inl rfl)
  exact ⟨⟨rfl, hip, hge, hlimit, hmax, hout, hothers⟩, .inr hend⟩

/-- A stream operation is a control byte or a slot's operation. -/
theorem isStreamOp_cases {i : Instr} (h : isStreamOp i = true) : (∃ c, i = .ctrl c) ∨ SlotOperation i := by
  cases i with
  | ctrl c => exact .inl ⟨c, rfl⟩
  | lit v => exact .inr (.lit v)
  | nib0 p => exact .inr (.nib 0 p)
  | nib1 p => exact .inr (.nib 1 p)
  | nib2 p => exact .inr (.nib 2 p)
  | nib3 p => exact .inr (.nib 3 p)
  | nib4 p => exact .inr (.nib 4 p)
  | nib5 p => exact .inr (.nib 5 p)
  | nib6 p => exact .inr (.nib 6 p)
  | nib7 p => exact .inr (.nib 7 p)
  | nib8 p => exact .inr (.nib 8 p)
  | bref d x => exact .inr (.bref d x)
  | cmdDecode e | cmdEncode e | cmdReserved m e => cases h

theorem exec_afterOperation {i : Instr} {s t : State} (hi : isStreamOp i = true)
    (hle : s.olen.toNat ≤ s.cfg.outCap) (hcap : s.cfg.outCap < 2 ^ 32) (ht : exec i s = .next t) :
    AfterOperation s (storeLimit i) t := by
  rcases isStreamOp_cases hi with ⟨c, rfl⟩ | hslot
  · cases ht; exact openGroup_afterOperation hle c
  · exact hslot.afterOperation hcap hle ht

end Sys2Proof.Machine

namespace Sys2Proof.Proofs

open Sys2Proof Sys2Proof.Machine

/-- Settles O24, operation by operation: each Append stores one byte at `olen` and nowhere else. -/
theorem streamOperationFrame : Obligations.StreamOperationFrame := by
  intro i s t hi hle hcap ht
  obtain ⟨⟨hframe, hip, hge, hlimit, hmax, hout, hothers⟩, hend⟩ := exec_afterOperation hi hle hcap ht
  exact ⟨hframe, hend, hip, hge, hlimit, hmax, hout, hothers⟩

end Sys2Proof.Proofs


/-! # Every DECODE ends: each step but a copy's last reads a stream byte (R183) -/

namespace Sys2Proof.Machine

/-! ## Everything a step of DEC_CTRL and of DEC_SLOT can do (R172) -/

theorem decodeControl_next {s t : State} (h : decodeControl s = .next t) :
    (∃ w, t = s.finishDecode w) ∨ ∃ b, t = s.openGroup b := by
  unfold decodeControl at h
  split at h
  · cases h; exact .inl ⟨_, rfl⟩
  · rcases fetch_control_cases s with ⟨f, e⟩ | ⟨b, e⟩ <;> rw [e] at h <;> cases h
    exact .inr ⟨b, rfl⟩

theorem decodeSlot_next {s t : State} (h : decodeSlot s = .next t) :
    (∃ w, t = s.finishDecode w) ∨ (∃ i, SlotOperation i ∧ exec i s.markOp = .next t) ∨
      truncatedBref s.markOp = .next t := by
  unfold decodeSlot at h
  split at h
  · cases h; exact .inl ⟨_, rfl⟩
  · cases e : fetch s.slotContext s <;> rw [e] at h
    case instr i =>
      obtain ⟨bytes, rest, hdec⟩ := fetch_instr e
      exact .inr (.inl ⟨i, decode_slotOperation hdec, h⟩)
    case truncated => exact .inr (.inr h)
    case fault f => cases h

/-- The engine stands before a control byte or before an operation of a slot. -/
def State.Between (s : State) : Prop := s.phase = .decCtrl ∨ s.phase = .decSlot

theorem State.Between.ne_idle {s : State} (h : s.Between) : s.phase ≠ .idle := by
  rcases h with h | h <;> rw [h] <;> nofun

theorem State.Between.inDecode {s : State} (h : s.Between) : s.inDecode = true := by
  rcases h with h | h <;> simp [State.inDecode, h]

theorem State.nextSlot_between (s : State) : s.nextSlot.Between := by
  rw [State.Between, State.nextSlot_phase]
  split
  · exact .inr rfl
  · exact .inl rfl

/-- A step between two operations ends the command, or reads one byte or two. -/
theorem decodeStep_ip {s t : State} (hs : s.OperationBounds) (hp : s.Between) (ht : engineStep s = .next t) :
    t.EndsLegally ∨ t.ip = s.ip + 1 ∨ t.ip = s.ip + 2 := by
  rcases hp with hp | hp <;> rw [engineStep_eq hp] at ht
  · rcases decodeControl_next ht with ⟨w, rfl⟩ | ⟨b, rfl⟩
    · exact .inl (State.endCommand_endsLegally _ (.finish w) _ _)
    · exact .inr (.inl rfl)
  · rcases decodeSlot_next ht with ⟨w, rfl⟩ | ⟨i, hi, ht⟩ | ht
    · exact .inl (State.endCommand_endsLegally _ (.finish w) _ _)
    · exact .inr (hi.afterOperation (s := s.markOp) (Config.wf_outCap hs.config) hs.olen_le ht).1.ip
    · cases ht; exact .inl (State.endCommand_endsLegally _ (.raise (by decide) _) _ _)

/-! ## The cursor never moves back (R20) -/

/-- Inside an operation the cursor is at or after `p`. -/
structure State.ReadFrom (p : Nat) (s : State) : Prop where
  bounds : s.OperationBounds
  ip_ge : p ≤ s.ip.toNat

/-- After a step the command has ended, or the engine stands between two operations at or after `p`. -/
def State.EndsOrReadsFrom (p : Nat) (s : State) : Prop := s.EndsLegally ∨ s.Between ∧ p ≤ s.ip.toNat

theorem State.ReadFrom.readOne {p : Nat} {s : State} (h : s.ReadFrom p) (hip : s.ip ≠ s.il) :
    (s.advance 1).ReadFrom p := by
  obtain ⟨hb, hge⟩ := h
  have hle := hb.ip_le
  refine ⟨hb.readOne hip, ?_⟩
  rw [State.advance_ip]
  bv_omega

theorem State.ReadFrom.readTwo {p : Nat} {s : State} (h : s.ReadFrom p) (hip : s.ip ≠ s.il)
    (hip1 : s.ip + 1 ≠ s.il) : (s.advance 2).ReadFrom p := by
  obtain ⟨hb, hge⟩ := h
  have hle := hb.ip_le
  refine ⟨hb.readTwo hip hip1, ?_⟩
  rw [State.advance_ip]
  bv_omega

theorem readFrom_rules (p : Nat) : OperationRules (State.ReadFrom p) (State.EndsOrReadsFrom p) where
  markOp h := ⟨operationBounds_rules.markOp h.bounds, h.ip_ge⟩
  readOne h hip := h.readOne hip
  readTwo h hip hip1 := h.readTwo hip hip1
  putByte v h hx hcap := ⟨h.bounds.putByte v hx hcap, h.ip_ge⟩
  beginCopy o l h := ⟨operationBounds_rules.beginCopy o l h.bounds, h.ip_ge⟩
  countCopy h := ⟨operationBounds_rules.countCopy h.bounds, h.ip_ge⟩
  openGroup _ h hip := .inr ⟨.inr rfl, (h.readOne hip).ip_ge⟩
  nextSlot h := .inr ⟨State.nextSlot_between _, h.ip_ge⟩
  endCommand _ hend := .inl (State.endCommand_endsLegally _ hend _ _)

theorem decodeStep_endsOrReadsFrom {s t : State} (hs : s.EngineBounds) (hd : s.inDecode = true)
    (ht : engineStep s = .next t) : t.EndsOrReadsFrom s.ip.toNat :=
  (readFrom_rules _).decodeStep ⟨hs.operation hd, Nat.le_refl _⟩ hd ht

/-- A step between two operations ends the command or moves the cursor on. -/
theorem decodeStep_ip_lt {s t : State} (hs : s.EngineBounds) (hp : s.Between) (ht : engineStep s = .next t) :
    t.EndsLegally ∨ t.Between ∧ s.ip.toNat < t.ip.toNat := by
  rcases decodeStep_endsOrReadsFrom hs hp.inDecode ht with hend | ⟨hbetween, hge⟩
  · exact .inl hend
  rcases decodeStep_ip (hs.operation hp.inDecode) hp ht with hend | hip | hip
  · exact .inl hend
  · exact .inr ⟨hbetween, by bv_omega⟩
  · exact .inr ⟨hbetween, by bv_omega⟩

/-! ## A DECODE whose input is written does not fault (R53) -/

theorem fetch_ne_fault {c : Context} {s : State} (hw : s.InWritten s.il) (hle : s.ip.toNat ≤ s.il.toNat)
    (hip : s.ip ≠ s.il) (f : Fault) : fetch c s ≠ .fault f := by
  have hbyte : ∀ k : Word, (s.ip + k).toNat < s.il.toNat → s.streamByte k ≠ none := fun k hk =>
    Option.isSome_iff_ne_none.mp (hw _ hk)
  intro h
  unfold fetch at h
  split at h
  · next hnone => exact hbyte 0 (by bv_omega) hnone
  · split_ifs at h with hlen hip1
    · exact fetchedOf_ne_fault _ _ _ h
    · split at h
      · next hnone => exact hbyte 1 (by bv_omega) hnone
      · exact fetchedOf_ne_fault _ _ _ h

theorem decodeStep_answers {s : State} (hs : s.EngineBounds) (hd : s.inDecode = true) (hw : s.InWritten s.il) :
    ∃ t, engineStep s = .next t := by
  have hop := hs.operation hd
  have hfetch : ∀ {c f}, s.stopTest = none → fetch c s ≠ .fault f := fun hstop =>
    fetch_ne_fault hw hop.ip_le (State.stopTest_none hstop).2 _
  rcases State.inDecode_phase hd with hp | hp | hp <;> rw [engineStep_eq hp, phaseStep]
  · cases hstop : s.stopTest with
    | some w => exact ⟨_, by rw [decodeControl, hstop]⟩
    | none =>
      rcases fetch_control_cases s with ⟨f, e⟩ | ⟨b, e⟩
      · exact absurd e (hfetch hstop)
      · exact ⟨_, decodeControl_of_fetch hstop e⟩
  · cases hstop : s.stopTest with
    | some w => exact ⟨_, by rw [decodeSlot, hstop]⟩
    | none =>
      cases e : fetch s.slotContext s <;> rw [decodeSlot_of_fetch hstop e]
      case instr i =>
        obtain ⟨bytes, rest, hdec⟩ := fetch_instr e
        exact slotOperation_answers (operationBounds_rules.markOp hop) (State.stopTest_none hstop).2
          (decode_slotOperation hdec)
      case truncated => exact ⟨_, rfl⟩
      case fault f => exact absurd e (hfetch hstop)
  · obtain ⟨hpos, hle⟩ := (hs.decode hd).copy_source hp
    exact finishCopy_answers ⟨hop, hpos, hle⟩

/-! ## The run to the end of a DECODE (R183) -/

/-- What a step keeps of the input of a DECODE. -/
theorem decodeStep_input {s t : State} (hd : s.inDecode = true) (ht : engineStep s = .next t)
    (hw : s.InWritten s.il) : t.il = s.il ∧ t.InWritten t.il := by
  have hhost := (decodeStep_keeps hd ht).1
  simp only [State.hostSide, Prod.mk.injEq] at hhost
  obtain ⟨hbuf, -, -, -, -, -, -, -, -, -, hil, -⟩ := hhost
  refine ⟨hil, ?_⟩
  rw [State.InWritten, hbuf, hil]
  exact hw

theorem State.Between.endsWithin {s : State} {k : Nat} (hp : s.Between) (hs : s.EngineBounds)
    (hw : s.InWritten s.il) (hk : s.il.toNat - s.ip.toNat < k) : s.EndsWithin k := by
  induction k generalizing s with
  | zero => exact absurd hk (Nat.not_lt_zero _)
  | succ k ih =>
    obtain ⟨t, ht⟩ := decodeStep_answers hs hp.inDecode hw
    refine .of_step hp.ne_idle ht ?_
    rcases decodeStep_ip_lt hs hp ht with hend | ⟨hbetween, hlt⟩
    · exact hend.endsWithin k
    · have ht' := engineStep_bounds hs ht
      obtain ⟨hil, hw'⟩ := decodeStep_input hp.inDecode ht hw
      have hip : t.ip.toNat ≤ s.il.toNat := hil ▸ (ht'.operation hbetween.inDecode).ip_le
      exact ih hbetween ht' hw' (by rw [hil]; omega)

/-- A copy in progress takes one step more. -/
theorem decode_endsWithin {s : State} (hs : s.EngineBounds) (hd : s.inDecode = true) (hw : s.InWritten s.il) :
    s.EndsWithin (s.il.toNat - s.ip.toNat + 2) := by
  obtain ⟨t, ht⟩ := decodeStep_answers hs hd hw
  have hp : s.phase ≠ .idle := fun hp => by simp [State.inDecode, hp] at hd
  refine .of_step hp ht ?_
  rcases decodeStep_endsOrReadsFrom hs hd ht with hend | ⟨hbetween, hge⟩
  · exact hend.endsWithin _
  · obtain ⟨hil, hw'⟩ := decodeStep_input hd ht hw
    exact hbetween.endsWithin (engineStep_bounds hs ht) hw' (by rw [hil]; omega)

end Sys2Proof.Machine

namespace Sys2Proof.Proofs

open Sys2Proof Sys2Proof.Machine

/-- Settles O49: between two operations every step moves the cursor on, and at its end the input is exhausted. -/
theorem decodeAlwaysEnds : Obligations.DecodeAlwaysEnds := by
  intro s hs hd hw
  obtain ⟨t, ht, hend⟩ := decode_endsWithin hs hd hw
  exact ⟨t, ht, hend.1, hend.done, hend.busy⟩

end Sys2Proof.Proofs


/-! # A DECODE depends on its inputs alone (R185, R260) -/

namespace Sys2Proof.Machine

/-! ## Two decoders that agree on what a DECODE reads (R171 to R182) -/

/-- `s` with everything that a DECODE never reads, and everything that it writes before it reads it, taken from `t`;
the parameters and the buffers too, of which `Agree` says how far they agree. -/
def State.withRestOf (s t : State) : State :=
  { s with
    cfg := t.cfg, lset := t.lset, inBuf := t.inBuf, outBuf := t.outBuf, ctrlByte := t.ctrlByte, slot := t.slot,
    opstart := t.opstart, copyBase := t.copyBase, copyOffset := t.copyOffset, copyLength := t.copyLength,
    copyCount := t.copyCount, pos := t.pos, n := t.n, ls := t.ls, opbuf := t.opbuf, cf := t.cf,
    schedule := t.schedule, readData := t.readData, draws := t.draws, encodes := t.encodes }

/-- What keeps the reads of a DECODE below the input's length and below `olen` (R20, R43, R180), and OUT_LEN equal to
`olen`. -/
def State.Inside (s : State) : Prop :=
  s.ip.toNat ≤ s.il.toNat ∧ s.olen.toNat ≤ s.cfg.outCap ∧ s.cfg.outCap < 2 ^ 32 ∧ s.outLen = s.olen

/-- The copy registers. -/
def State.copyRegisters (s : State) : Word × BitVec 13 × BitVec 5 × BitVec 5 :=
  (s.copyBase, s.copyOffset, s.copyLength, s.copyCount)

/-- The copy registers agree, and the copy's source lies below `olen` (R179). -/
def SameCopy (s t : State) : Prop :=
  t.copyRegisters = s.copyRegisters ∧ 1 ≤ s.copyOffset.toNat ∧ s.copyBase.toNat + s.copyOffset.toNat ≤ s.olen.toNat

/-- Two decoders that go the same way: from depth 1 on they are in the same slot of the same group, from depth 2 on
in the same operation, from depth 3 on in the same copy. `L` says whether their LSET agree. -/
structure Agree (L : Prop) (depth : Nat) (s t : State) : Prop where
  inside : s.Inside
  rest : t = s.withRestOf t
  outCap : t.cfg.outCap = s.cfg.outCap
  lset : L → t.lset = s.lset
  input : ∀ a, a < s.il.toNat → Memory.read t.inBuf a = Memory.read s.inBuf a
  output : ∀ a, a < s.olen.toNat → Memory.read t.outBuf a = Memory.read s.outBuf a
  group : 1 ≤ depth → t.ctrlByte = s.ctrlByte ∧ t.slot = s.slot
  opstart : 2 ≤ depth → t.opstart = s.opstart
  copy : 3 ≤ depth → SameCopy s t

/-- Between two steps: IDLE, or in the same phase of the main loop. -/
inductive AgreeBetween (L : Prop) (s t : State) : Prop where
  | idle (hp : s.phase = .idle) (h : Agree L 0 s t)
  | control (hp : s.phase = .decCtrl) (h : Agree L 0 s t)
  | slot (hp : s.phase = .decSlot) (h : Agree L 1 s t)

section
variable {L : Prop} {depth : Nat} {s t : State}

/-- What is read of the common part alone is the same. -/
theorem Agree.same {α : Type} (h : Agree L depth s t) (f : State → α) (hf : ∀ r, f (s.withRestOf r) = f s) :
    f t = f s :=
  (congrArg f h.rest).trans (hf t)

theorem Agree.weaken (h : Agree L depth s t) {d : Nat} (hd : d ≤ depth) : Agree L d s t :=
  { h with
    group := fun h1 => h.group (h1.trans hd)
    opstart := fun h2 => h.opstart (h2.trans hd)
    copy := fun h3 => h.copy (h3.trans hd) }

/-! ## The updates of a decoder operation keep the agreement -/

theorem State.Inside.readOne (h : s.Inside) (hip : s.ip ≠ s.il) : (s.advance 1).Inside := by
  obtain ⟨hle, holen, hcap, hout⟩ := h
  refine ⟨?_, holen, hcap, hout⟩
  rw [State.advance_ip, State.advance_il]
  bv_omega

theorem State.Inside.readTwo (h : s.Inside) (hip : s.ip ≠ s.il) (hip1 : s.ip + 1 ≠ s.il) :
    (s.advance 2).Inside := by
  obtain ⟨hle, holen, hcap, hout⟩ := h
  refine ⟨?_, holen, hcap, hout⟩
  rw [State.advance_ip, State.advance_il]
  bv_omega

theorem Agree.advance (h : Agree L depth s t) {k : Word} (hk : (s.advance k).Inside) :
    Agree L depth (s.advance k) (t.advance k) :=
  { h with inside := hk, rest := by rw [h.rest]; rfl }

theorem Agree.markOp (h : Agree L 1 s t) : Agree L 2 s.markOp t.markOp :=
  { h with
    rest := by rw [h.rest]; rfl
    group := fun _ => h.group (Nat.le_refl 1)
    opstart := fun _ => h.same State.ip fun _ => rfl
    copy := fun h3 => absurd h3 (by decide) }

theorem Agree.putByte (h : Agree L depth s t) (v : Byte) (hfull : s.olen.toNat ≠ s.cfg.outCap) :
    Agree L depth (s.putByte v) (t.putByte v) := by
  obtain ⟨hle, holen, hcap, -⟩ := h.inside
  have hnext : (s.putByte v).olen.toNat = s.olen.toNat + 1 := State.putByte_olen_toNat (by omega)
  have hsame : t.olen = s.olen := h.same State.olen fun _ => rfl
  refine { h with
    inside := ⟨hle, by rw [hnext, State.putByte_cfg]; omega, hcap, rfl⟩
    rest := by rw [h.rest]; rfl
    output := fun a ha => ?_
    copy := fun h3 => ?_ }
  · rw [State.putByte_outBuf, State.putByte_outBuf, hsame, Memory.read_write, Memory.read_write]
    split
    · rfl
    · exact h.output a (by omega)
  · obtain ⟨hregs, hpos, hsource⟩ := h.copy h3
    exact ⟨hregs, hpos, by rw [hnext]; exact Nat.le_succ_of_le hsource⟩

theorem Agree.beginCopy (h : Agree L 2 s t) {off : Nat} (hpos : 1 ≤ off) (hmax : off ≤ 4096)
    (hle : off ≤ s.olen.toNat) (len : Nat) : Agree L 3 (s.beginCopy off len) (t.beginCopy off len) := by
  have hsame : t.olen = s.olen := h.same State.olen fun _ => rfl
  have hoffset : (BitVec.ofNat 13 off).toNat = off := by rw [BitVec.toNat_ofNat]; omega
  refine { h with
    rest := by rw [h.rest]; rfl
    group := fun _ => h.group (by decide)
    opstart := fun _ => h.opstart (Nat.le_refl 2)
    copy := fun _ => ⟨by simp [State.copyRegisters, hsame], ?_, ?_⟩ }
  · rw [State.beginCopy_copyOffset, hoffset]; exact hpos
  · rw [State.beginCopy_copyOffset, hoffset, State.beginCopy_copyBase, State.beginCopy_olen]
    bv_omega

theorem Agree.countCopy (h : Agree L 3 s t) : Agree L 3 s.countCopy t.countCopy := by
  obtain ⟨hregs, hpos, hsource⟩ := h.copy (Nat.le_refl 3)
  simp only [State.copyRegisters, Prod.mk.injEq] at hregs
  obtain ⟨hbase, hoffset, hlength, hcount⟩ := hregs
  exact { h with
    rest := by rw [h.rest]; rfl
    copy := fun _ => ⟨by simp [State.copyRegisters, hbase, hoffset, hlength, hcount], hpos, hsource⟩ }

theorem Agree.openGroup (h : Agree L 0 s t) (hip : s.ip ≠ s.il) (c : Byte) :
    AgreeBetween L (s.openGroup c) (t.openGroup c) :=
  .slot rfl { h with
    inside := h.inside.readOne hip
    rest := by rw [h.rest]; rfl
    group := fun _ => ⟨rfl, rfl⟩
    opstart := fun h2 => absurd h2 (by decide)
    copy := fun h3 => absurd h3 (by decide) }

theorem Agree.nextSlot (h : Agree L 2 s t) : AgreeBetween L s.nextSlot t.nextSlot := by
  obtain ⟨hctrl, hslot⟩ := h.group (by decide)
  have hnext : Agree L 1 s.nextSlot t.nextSlot := { h with
    rest := by simp only [State.nextSlot, hslot]; rw [h.rest]; rfl
    group := fun _ => ⟨hctrl, by rw [State.nextSlot_slot, State.nextSlot_slot, hslot]⟩
    opstart := fun h2 => absurd h2 (by decide)
    copy := fun h3 => absurd h3 (by decide) }
  rcases s.nextSlot_between with hp | hp
  · exact .control hp (hnext.weaken (by decide))
  · exact .slot hp hnext

/-- The two ends of a command, where ERR_POS is the same. -/
theorem Agree.endCommand (h : Agree L depth s t) (w : Bool) (err : BitVec 4) {p q : Word} (hpq : q = p) :
    AgreeBetween L (s.endCommand w err p s.olen s.ip) (t.endCommand w err q t.olen t.ip) := by
  obtain ⟨hip, holen, hcap, -⟩ := h.inside
  exact .idle rfl { h.weaken (Nat.zero_le depth) with
    inside := ⟨hip, holen, hcap, rfl⟩
    rest := by rw [h.rest, hpq]; rfl
    copy := fun h3 => absurd h3 (by decide) }

/-! ## What the agreement makes them read alike -/

theorem Agree.expReached (h : Agree L depth s t) : t.expReached = s.expReached := h.same _ fun _ => rfl

theorem Agree.full_iff (h : Agree L depth s t) : t.olen.toNat = t.cfg.outCap ↔ s.olen.toNat = s.cfg.outCap := by
  rw [h.same State.olen fun _ => rfl, h.outCap]

theorem Agree.streamByte (h : Agree L depth s t) {k : Word} (hk : (s.ip + k).toNat < s.il.toNat) :
    t.streamByte k = s.streamByte k := by
  rw [State.streamByte, State.streamByte, h.same State.ip fun _ => rfl]
  exact h.input _ hk

theorem Agree.fetch (h : Agree L depth s t) (hip : s.ip ≠ s.il) (c : Context) : fetch c t = fetch c s := by
  have hle := h.inside.1
  have hsame : t.ip = s.ip := h.same State.ip fun _ => rfl
  have hil : t.il = s.il := h.same State.il fun _ => rfl
  have hfirst : t.streamByte 0 = s.streamByte 0 := h.streamByte (by bv_omega)
  by_cases hip1 : s.ip + 1 = s.il
  · simp only [Machine.fetch, hfirst, hsame, hil, if_pos hip1]
  · have hsecond : t.streamByte 1 = s.streamByte 1 := h.streamByte (by bv_omega)
    simp only [Machine.fetch, hfirst, hsecond, hsame, hil]

theorem Agree.slotContext (h : Agree L 1 s t) : t.slotContext = s.slotContext := by
  obtain ⟨hctrl, hslot⟩ := h.group (Nat.le_refl 1)
  rw [State.slotContext, State.slotContext, hctrl, hslot, h.same State.ft fun _ => rfl]

/-- The copies read the same source byte. -/
theorem Agree.source (h : Agree L 3 s t) :
    t.copySource = s.copySource ∧ Memory.read t.outBuf t.copySource = Memory.read s.outBuf s.copySource := by
  obtain ⟨hregs, hpos, hsource⟩ := h.copy (Nat.le_refl 3)
  simp only [State.copyRegisters, Prod.mk.injEq] at hregs
  obtain ⟨hbase, hoffset, -, hcount⟩ := hregs
  have hsame : t.copySource = s.copySource := by rw [State.copySource, State.copySource, hbase, hoffset, hcount]
  refine ⟨hsame, ?_⟩
  rw [hsame]
  exact h.output _ (Nat.lt_of_lt_of_le (Nat.add_lt_add_left (Nat.mod_lt _ hpos) _) hsource)

end

/-! ## Two runs of one operation -/

/-- Where `x` goes on or ends, so does `y`, and the states they leave are related by `R` or by `Q`. -/
inductive Flow.Related (R Q : State → State → Prop) : Flow → Flow → Prop where
  | go {s t : State} (h : R s t) : Flow.Related R Q (.go s) (.go t)
  | ended {s t : State} (h : Q s t) : Flow.Related R Q (.ended s) (.ended t)
  | fault (f : Fault) (y : Flow) : Flow.Related R Q (.fault f) y

/-- Where `x` answers a next state, so does `y`, and the two are related by `Q`. -/
def AnswersRelated (Q : State → State → Prop) (x y : Result) : Prop :=
  ∀ s, x = .next s → ∃ t, y = .next t ∧ Q s t

theorem AnswersRelated.next {Q : State → State → Prop} {s t : State} (h : Q s t) :
    AnswersRelated Q (.next s) (.next t) := fun _ hs => by cases hs; exact ⟨t, rfl, h⟩

theorem AnswersRelated.fault {Q : State → State → Prop} (f : Fault) (y : Result) :
    AnswersRelated Q (.fault f) y := nofun

theorem Flow.Related.andThen {R R' Q : State → State → Prop} {x y : Flow} {f g : State → Flow}
    (h : Flow.Related R Q x y) (hf : ∀ s t, R s t → Flow.Related R' Q (f s) (g t)) :
    Flow.Related R' Q (x.andThen f) (y.andThen g) := by
  cases h with
  | go h => exact hf _ _ h
  | ended h => exact .ended h
  | fault f y => exact .fault f _

theorem Flow.Related.endOp {R Q : State → State → Prop} {x y : Flow} (h : Flow.Related R Q x y)
    (hn : ∀ s t, R s t → Q s.nextSlot t.nextSlot) : AnswersRelated Q x.endOp y.endOp := by
  cases h with
  | go h => exact .next (hn _ _ h)
  | ended h => exact .next h
  | fault f y => exact .fault f _

section
variable {L : Prop} {depth : Nat} {s t : State}

theorem Agree.append (h : Agree L depth s t) (hop : 2 ≤ depth) (v : Byte) :
    Flow.Related (Agree L depth) (AgreeBetween L) (append v s) (append v t) := by
  rcases append_cases v s with ⟨hx, e⟩ | ⟨hx, hc, e⟩ | ⟨hx, hc, e⟩ <;> rw [e]
  · rw [append_reached (h.expReached.trans hx)]
    exact .ended (h.endCommand _ _ rfl)
  · rw [append_full (h.expReached.trans hx) (h.full_iff.mpr hc)]
    exact .ended (h.endCommand _ _ (h.opstart hop))
  · rw [append_room (h.expReached.trans hx) (mt h.full_iff.mp hc)]
    exact .go (h.putByte v hc)

theorem Agree.appendPair (h : Agree L 2 s t) (b : Byte × Byte) :
    Flow.Related (Agree L 2) (AgreeBetween L) (appendPair b s) (appendPair b t) :=
  (h.append (Nat.le_refl 2) b.1).andThen fun _ _ h' => h'.append (Nat.le_refl 2) b.2

theorem Agree.copyByte (h : Agree L 3 s t) :
    Flow.Related (Agree L 3) (AgreeBetween L) (copyByte s) (copyByte t) := by
  obtain ⟨-, hread⟩ := h.source
  rcases copyByte_cases s with ⟨-, e⟩ | ⟨v, hv, e⟩ <;> rw [e]
  · exact .fault _ _
  · have e' : Machine.copyByte t = (Machine.append v t).andThen fun u => .go u.countCopy := by
      rw [Machine.copyByte, hread, hv]
    rw [e']
    exact (h.append (by decide) v).andThen fun _ _ h' => .go h'.countCopy

theorem Agree.copyBytes (k : Nat) (h : Agree L 3 s t) :
    Flow.Related (Agree L 3) (AgreeBetween L) (copyBytes k s) (copyBytes k t) := by
  induction k generalizing s t with
  | zero => exact .go h
  | succ k ih => exact h.copyByte.andThen fun _ _ h' => ih h'

theorem Agree.truncatedBref (h : Agree L 2 s t) (hip : s.ip ≠ s.il) :
    AnswersRelated (AgreeBetween L) (truncatedBref s) (truncatedBref t) :=
  .next ((h.advance (h.inside.readOne hip)).endCommand _ _ (h.opstart (Nat.le_refl 2)))

theorem Agree.execBref (h : Agree L 2 s t) (hip : s.ip ≠ s.il) (d : Nibble) (x : BitVec 12) :
    AnswersRelated (AgreeBetween L) (execBref d x s) (execBref d x t) := by
  have hbad : badOffset (brefOffset x) (t.advance 2) = badOffset (brefOffset x) (s.advance 2) := by
    rw [badOffset, badOffset, State.advance_olen, State.advance_olen, h.same State.olen fun _ => rfl]
  simp only [Machine.execBref, hbad, h.same State.ip fun _ => rfl, h.same State.il fun _ => rfl]
  by_cases hip1 : s.ip + 1 = s.il
  · rw [if_pos hip1, if_pos hip1]
    exact h.truncatedBref hip
  have htwo := h.advance (h.inside.readTwo hip hip1)
  rw [if_neg hip1, if_neg hip1]
  by_cases hoff : badOffset (brefOffset x) (s.advance 2) = true
  · rw [if_pos hoff, if_pos hoff]
    exact .next (htwo.endCommand _ _ (h.opstart (Nat.le_refl 2)))
  · rw [if_neg hoff, if_neg hoff, finishCopy, finishCopy, copyLeft_beginCopy, copyLeft_beginCopy]
    have hle : brefOffset x ≤ (s.advance 2).olen.toNat := by
      by_contra hlt
      exact hoff (by rw [badOffset, decide_eq_true (Nat.not_le.mp hlt), Bool.or_true])
    exact ((htwo.beginCopy (brefOffset_pos x) (brefOffset_le x) hle _).copyBytes _).endOp
      fun _ _ h' => (h'.weaken (by decide)).nextSlot

theorem Agree.slotOperation (h : Agree L 2 s t) (hip : s.ip ≠ s.il) {i : Instr} (hi : SlotOperation i) :
    AnswersRelated (AgreeBetween L) (exec i s) (exec i t) := by
  have hone := h.advance (h.inside.readOne hip)
  cases hi with
  | lit v => exact (hone.append (Nat.le_refl 2) v).endOp fun _ _ => Agree.nextSlot
  | nib k p =>
    rw [exec_nibInstr, exec_nibInstr]
    exact (hone.appendPair _).endOp fun _ _ => Agree.nextSlot
  | bref d x => exact h.execBref hip d x

/-! ## Two runs of the decoder (R172) -/

theorem Agree.finishDecode (h : Agree L depth s t) (w : Bool) :
    AnswersRelated (AgreeBetween L) (.next (s.finishDecode w)) (.next (t.finishDecode w)) :=
  .next (h.endCommand _ _ rfl)

theorem Agree.decodeControl (h : Agree L 0 s t) :
    AnswersRelated (AgreeBetween L) (decodeControl s) (decodeControl t) := by
  have hstop : t.stopTest = s.stopTest := h.same State.stopTest fun _ => rfl
  rw [Machine.decodeControl, Machine.decodeControl, hstop]
  cases hs : s.stopTest with
  | some w => exact h.finishDecode w
  | none =>
    obtain ⟨-, hip⟩ := State.stopTest_none hs
    rw [h.fetch hip]
    rcases fetch_control_cases s with ⟨f, e⟩ | ⟨b, e⟩ <;> rw [e]
    · exact .fault f _
    · exact .next (h.openGroup hip b)

theorem Agree.decodeSlot (h : Agree L 1 s t) :
    AnswersRelated (AgreeBetween L) (decodeSlot s) (decodeSlot t) := by
  have hstop : t.stopTest = s.stopTest := h.same State.stopTest fun _ => rfl
  rw [Machine.decodeSlot, Machine.decodeSlot, hstop]
  cases hs : s.stopTest with
  | some w => exact h.finishDecode w
  | none =>
    obtain ⟨-, hip⟩ := State.stopTest_none hs
    rw [h.slotContext, h.fetch hip]
    cases e : Machine.fetch s.slotContext s with
    | instr i =>
      obtain ⟨bytes, rest, hdec⟩ := fetch_instr e
      exact h.markOp.slotOperation hip (decode_slotOperation hdec)
    | truncated => exact h.markOp.truncatedBref hip
    | fault f => exact .fault f _

theorem AgreeBetween.phase (h : AgreeBetween L s t) : t.phase = s.phase := by
  cases h with
  | idle _ h | control _ h | slot _ h => exact h.same State.phase fun _ => rfl

theorem AgreeBetween.engineStep (h : AgreeBetween L s t) :
    AnswersRelated (AgreeBetween L) (engineStep s) (engineStep t) := by
  have hphase := h.phase
  cases h with
  | idle hp h =>
    rw [engineStep_idle hp, engineStep_idle (hphase.trans hp)]
    exact .next (.idle hp h)
  | control hp h =>
    rw [engineStep_eq hp, engineStep_eq (hphase.trans hp)]
    exact h.decodeControl
  | slot hp h =>
    rw [engineStep_eq hp, engineStep_eq (hphase.trans hp)]
    exact h.decodeSlot

/-- A run of at least one step takes that step. -/
theorem runEngine_succ_next {k : Nat} {u : State} (hp : s.phase ≠ .idle) (h : runEngine (k + 1) s = .next u) :
    ∃ v, engineStep s = .next v ∧ runEngine k v = .next u := by
  rw [runEngine] at h
  split at h
  · next hidle => exact absurd hidle hp
  · split at h
    · next v e => exact ⟨v, e, h⟩
    · cases h
    · cases h

theorem AgreeBetween.runEngine (k : Nat) (h : AgreeBetween L s t) :
    AnswersRelated (AgreeBetween L) (runEngine k s) (runEngine k t) := by
  induction k generalizing s t with
  | zero => exact .next h
  | succ k ih =>
    by_cases hp : s.phase = .idle
    · rw [runEngine_idle hp, runEngine_idle (h.phase.trans hp)]
      exact .next h
    intro u hu
    obtain ⟨v, hv, hu⟩ := runEngine_succ_next hp hu
    obtain ⟨w, hw, hvw⟩ := h.engineStep v hv
    rw [runEngine_succ (h.phase.trans_ne hp) hw]
    exact ih hvw u hu

/-! ## What the agreement shows the host (R260) -/

theorem Agree.sameDecodeOutcome (h : Agree L depth s t) : sameDecodeOutcome s t := by
  obtain ⟨-, -, -, hout⟩ := h.inside
  refine ⟨(h.same State.status fun _ => rfl).symm, (h.same State.outLen fun _ => rfl).symm,
    (h.same State.inPos fun _ => rfl).symm, (h.same State.errPos fun _ => rfl).symm, fun a ha => ?_⟩
  rw [hout] at ha
  exact (h.output a ha).symm

theorem Agree.sameOutcome (h : Agree L depth s t) (hL : L) : sameOutcome s t :=
  ⟨h.sameDecodeOutcome, (h.lset hL).symm, (h.same State.flags0 fun _ => rfl).symm,
    (h.same State.flags1 fun _ => rfl).symm, (h.same State.flags2 fun _ => rfl).symm⟩

theorem AgreeBetween.outcome (h : AgreeBetween L s t) : sameDecodeOutcome s t ∧ (L → sameOutcome s t) := by
  cases h with
  | idle _ h | control _ h | slot _ h => exact ⟨h.sameDecodeOutcome, h.sameOutcome⟩

end

/-! ## START of a DECODE (R23, R171, R230) -/

theorem exec_cmdDecode_rejects {s : State} {e : Bool} {err : BitVec 4} (hb : s.busy = false)
    (hc : startCheck (s.latch 0#2 e) = some err) : exec (.cmdDecode e) s = .next ((s.latch 0#2 e).raiseStart err) := by
  simp only [exec, execCmdDecode, hb, hc]
  rfl

theorem exec_cmdDecode_begins {s : State} {e : Bool} (hb : s.busy = false)
    (hc : startCheck (s.latch 0#2 e) = none) : exec (.cmdDecode e) s = .next (s.latch 0#2 e).beginDecode := by
  simp only [exec, execCmdDecode, hb, hc]
  rfl

/-- Two IDLE states with the same inputs of a DECODE: the host's registers, OUT_CAP, STRICT_FLAGS, the answer to
IN_LEN > IN_CAP, and the IN bytes below IN_LEN. -/
structure SameDecodeInputs (s t : State) : Prop where
  registers : t.inLen = s.inLen ∧ t.expLen = s.expLen ∧ t.flags0 = s.flags0 ∧ t.flags1 = s.flags1 ∧
    t.flags2 = s.flags2
  idle : t.phase = s.phase
  outCap : t.cfg.outCap = s.cfg.outCap
  strict : t.cfg.strictFlags = s.cfg.strictFlags
  tooLong : t.cfg.inCap < t.inLen.toNat ↔ s.cfg.inCap < s.inLen.toNat
  input : ∀ a, a < s.inLen.toNat → Memory.read t.inBuf a = Memory.read s.inBuf a

theorem SameDecodeInputs.startCheck {s t : State} (h : SameDecodeInputs s t) (e : Bool) :
    startCheck (t.latch 0#2 e) = startCheck (s.latch 0#2 e) := by
  obtain ⟨-, -, h0, h1, h2⟩ := h.registers
  refine if_congr h.tooLong rfl ?_
  simp only [State.latch_cfg, State.latch_mode, State.latch_ft, h.strict, h0, h1, h2]

theorem SameDecodeInputs.beginDecode {s t : State} (h : SameDecodeInputs s t) (hcap : s.cfg.outCap < 2 ^ 32)
    (e : Bool) : AgreeBetween (s.lset = t.lset) (s.latch 0#2 e).beginDecode (t.latch 0#2 e).beginDecode := by
  obtain ⟨hin, hexp, h0, h1, h2⟩ := h.registers
  refine .control rfl ⟨⟨Nat.zero_le _, Nat.zero_le _, hcap, rfl⟩, ?_, h.outCap, Eq.symm, h.input,
    fun a ha => absurd ha (Nat.not_lt_zero a), fun h1 => absurd h1 (by decide), fun h2 => absurd h2 (by decide),
    fun h3 => absurd h3 (by decide)⟩
  simp only [State.beginDecode, State.latch, State.withRestOf, hin, hexp, h0, h1, h2]

/-- An error found at START shows the registers it has written, and no OUT byte. -/
theorem SameDecodeInputs.raiseStart {s t : State} (h : SameDecodeInputs s t) (e : Bool) (err : BitVec 4) :
    sameDecodeOutcome ((s.latch 0#2 e).raiseStart err) ((t.latch 0#2 e).raiseStart err) ∧
      (s.lset = t.lset → sameOutcome ((s.latch 0#2 e).raiseStart err) ((t.latch 0#2 e).raiseStart err)) := by
  obtain ⟨-, -, h0, h1, h2⟩ := h.registers
  have hout : sameDecodeOutcome ((s.latch 0#2 e).raiseStart err) ((t.latch 0#2 e).raiseStart err) :=
    ⟨rfl, rfl, rfl, rfl, fun a ha => absurd ha (Nat.not_lt_zero a)⟩
  exact ⟨hout, fun hlset => ⟨hout, hlset, h0.symm, h1.symm, h2.symm⟩⟩

end Sys2Proof.Machine

namespace Sys2Proof.Proofs

open Sys2Proof Sys2Proof.Machine

/-- Settles O51: both pass the start checks or neither does, and two decoders that agree on what is read take the
same steps. -/
theorem decodeOutcomeIsDeterminedByItsInputs : Obligations.DecodeOutcomeIsDeterminedByItsInputs := by
  intro e s1 s2 u1 u2 t1 k hidle1 hidle2 hlong hcap hcap32 hstrict hin hexp hf0 hf1 hf2 hbuf hu1 hu2 ht1
  have hsame : SameDecodeInputs s1 s2 :=
    ⟨⟨hin.symm, hexp.symm, hf0.symm, hf1.symm, hf2.symm⟩, hidle2.2.trans hidle1.2.symm, hcap.symm, hstrict.symm,
      hlong.symm, fun a ha => (hbuf a ha).symm⟩
  have hcheck := hsame.startCheck e
  cases hc : startCheck (s1.latch 0#2 e) with
  | some err =>
    rw [exec_cmdDecode_rejects hidle1.1 hc] at hu1
    rw [exec_cmdDecode_rejects hidle2.1 (hcheck.trans hc)] at hu2
    cases hu1
    cases hu2
    rw [runEngine_idle rfl] at ht1
    cases ht1
    exact ⟨_, runEngine_idle rfl k, rfl, hsame.raiseStart e err⟩
  | none =>
    rw [exec_cmdDecode_begins hidle1.1 hc] at hu1
    rw [exec_cmdDecode_begins hidle2.1 (hcheck.trans hc)] at hu2
    cases hu1
    cases hu2
    obtain ⟨t2, ht2, hagree⟩ := (hsame.beginDecode hcap32 e).runEngine k t1 ht1
    exact ⟨t2, ht2, hagree.phase.symm, hagree.outcome⟩

end Sys2Proof.Proofs

/-! # The host's container framing: what `serialize` writes, `deserialize` reads back (45_container_host.md) -/

namespace Sys2Proof

@[simp] theorem Nine.ofList_toList {α : Type} (d : α) (t : Nine α) : Nine.ofList d t.toList = t := rfl

@[simp] theorem Nine.toList_length {α : Type} (t : Nine α) : t.toList.length = 9 := rfl

end Sys2Proof

namespace Sys2Proof.Machine

/-! ## Little-endian fields (R203) -/

@[simp] theorem leBytes_length (k x : Nat) : (leBytes k x).length = k := by
  induction k generalizing x with
  | zero => rfl
  | succ k ih => rw [leBytes, List.length_cons, ih]

theorem leValue_leBytes (k x : Nat) : leValue (leBytes k x) = x % 256 ^ k := by
  induction k generalizing x with
  | zero => exact (Nat.mod_one x).symm
  | succ k ih => rw [leBytes, leValue, ih, BitVec.toNat_ofNat, pow_succ' 256, Nat.mod_mul]

theorem leValue_leBytes_of_lt {k x : Nat} (h : x < 256 ^ k) : leValue (leBytes k x) = x := by
  rw [leValue_leBytes, Nat.mod_eq_of_lt h]

/-! ## The fields of a buffer -/

/-- The bytes between what stands before a field and what stands after it are the field. -/
theorem slice_append_append {before field : List Byte} {a b : Nat} (ha : before.length = a)
    (hb : a + field.length = b) (after : List Byte) : slice (before ++ (field ++ after)) a b = field := by
  rw [slice, List.drop_left' ha, List.take_left' (Nat.eq_sub_of_add_eq' hb)]

/-! ## The parts of `deserialize` (R204, R205) -/

theorem Variant.magic_length {cfg : Config} (h : cfg.wf = true) (k : Variant) : (k.magic cfg).length = 5 := by
  simp only [Config.wf, Bool.and_eq_true, decide_eq_true_eq] at h
  obtain ⟨⟨⟨-, hA⟩, hB⟩, -⟩ := h
  cases k with
  | a => exact hA
  | b => exact hB

/-- The two magics differ, so each names its variant. -/
theorem variantOf_of_magic {cfg : Config} (h : cfg.wf = true) {k : Variant} {buf : List Byte}
    (hmagic : slice buf 0 5 = k.magic cfg) : variantOf cfg buf = some k := by
  have hne : cfg.magicA ≠ cfg.magicB := of_decide_eq_true (Bool.and_eq_true_iff.mp h).2
  rw [variantOf, hmagic]
  cases k with
  | a => exact if_pos rfl
  | b => exact (if_neg hne.symm).trans (if_pos rfl)

theorem Variant.headerSize_eq (k : Variant) : k.headerSize = 16 + k.sizeBytes := by
  cases k <;> rfl

/-- A buffer of a known variant whose container length lies between the header's size and the buffer's passes
every check. -/
theorem deserialize_eq_ok {cfg : Config} {k : Variant} {buf : List Byte} {CL : Nat}
    (hvariant : variantOf cfg buf = some k) (hCL : leValue (slice buf 5 7) = CL) (hheader : k.headerSize ≤ CL)
    (hbuf : CL ≤ buf.length) :
    deserialize cfg buf = .ok { flags := Nine.ofList 0 (slice buf 7 16), payload := slice buf k.headerSize CL,
                                expectedLen := sizeField k buf } := by
  have hsize := k.headerSize_eq
  simp only [deserialize, hvariant, hCL]
  rw [if_neg (by omega), if_neg (by omega), if_neg (by omega), if_neg (by omega)]

/-! ## What `serialize` answers (R207, R208) -/

/-- A header: magic, container length, flag entries, decompressed size. -/
def headerBytes (cfg : Config) (k : Variant) (flags : FlagTable) (CL size : Nat) : List Byte :=
  k.magic cfg ++ leBytes 2 CL ++ flags.toList ++ leBytes k.sizeBytes size

/-- The bytes of a container: the header, then the payload. -/
def containerBytes (cfg : Config) (k : Variant) (flags : FlagTable) (C : List Byte) (size : Nat) : List Byte :=
  headerBytes cfg k flags (k.headerSize + C.length) size ++ C

theorem headerBytes_length {cfg : Config} (h : cfg.wf = true) (k : Variant) (flags : FlagTable) (CL size : Nat) :
    (headerBytes cfg k flags CL size).length = k.headerSize := by
  simp only [headerBytes, List.length_append, k.magic_length h, leBytes_length, Nine.toList_length,
    k.headerSize_eq]

section
variable {cfg : Config} {k : Variant} {flags : FlagTable} {C : List Byte} {size : Nat}

theorem serialize_eq_ok_iff {buf : List Byte} : serialize cfg k flags C size = .ok buf ↔
    k.headerSize + C.length ≤ 65535 ∧ size < 256 ^ k.sizeBytes ∧ containerBytes cfg k flags C size = buf := by
  simp only [serialize, containerBytes, headerBytes]
  split_ifs with hCL hsize
  · simp [Nat.not_le.mpr hCL]
  · simp [Nat.not_lt.mpr hsize]
  · simp [Nat.not_lt.mp hCL, Nat.not_le.mp hsize]

theorem serialize_eq_sizeOverflow_iff : serialize cfg k flags C size = .error .sizeOverflow ↔
    65535 < k.headerSize + C.length ∨ 256 ^ k.sizeBytes ≤ size := by
  simp only [serialize]
  split_ifs with hCL hsize
  · simp [hCL]
  · simp [hsize]
  · simp [hCL, hsize]

theorem containerBytes_length (h : cfg.wf = true) :
    (containerBytes cfg k flags C size).length = k.headerSize + C.length := by
  rw [containerBytes, List.length_append, headerBytes_length h]

/-! ## The fields of a container (R201, R202) -/

theorem containerBytes_magic (h : cfg.wf = true) (tail : List Byte) :
    slice (containerBytes cfg k flags C size ++ tail) 0 5 = k.magic cfg := by
  simp only [containerBytes, headerBytes, List.append_assoc]
  exact slice_append_append (before := []) rfl (by simp [k.magic_length h]) _

theorem containerBytes_lengthField (h : cfg.wf = true) (tail : List Byte) :
    slice (containerBytes cfg k flags C size ++ tail) 5 7 = leBytes 2 (k.headerSize + C.length) := by
  simp only [containerBytes, headerBytes, List.append_assoc]
  exact slice_append_append (k.magic_length h) (by simp) _

theorem containerBytes_flags (h : cfg.wf = true) (tail : List Byte) :
    slice (containerBytes cfg k flags C size ++ tail) 7 16 = flags.toList := by
  simp only [containerBytes, headerBytes, List.append_assoc]
  rw [← List.append_assoc]
  exact slice_append_append (by simp [k.magic_length h]) (by simp) _

theorem containerBytes_sizeField (h : cfg.wf = true) (tail : List Byte) :
    slice (containerBytes cfg k flags C size ++ tail) 16 k.headerSize = leBytes k.sizeBytes size := by
  rw [containerBytes, headerBytes, List.append_assoc, List.append_assoc]
  exact slice_append_append (by simp [k.magic_length h]) (by simp [k.headerSize_eq]) _

theorem containerBytes_payload (h : cfg.wf = true) (tail : List Byte) :
    slice (containerBytes cfg k flags C size ++ tail) k.headerSize (k.headerSize + C.length) = C := by
  rw [containerBytes, List.append_assoc]
  exact slice_append_append (headerBytes_length h k flags _ size) rfl _

theorem deserialize_containerBytes (h : cfg.wf = true) (hCL : k.headerSize + C.length ≤ 65535)
    (hsize : size < 256 ^ k.sizeBytes) (tail : List Byte) :
    deserialize cfg (containerBytes cfg k flags C size ++ tail) =
      .ok { flags := flags, payload := C, expectedLen := size } := by
  have hfield : leValue (slice (containerBytes cfg k flags C size ++ tail) 5 7) = k.headerSize + C.length := by
    rw [containerBytes_lengthField h, leValue_leBytes_of_lt (by omega)]
  rw [deserialize_eq_ok (variantOf_of_magic h (containerBytes_magic h tail)) hfield (Nat.le_add_right _ _)
      (by rw [List.length_append, containerBytes_length h]; exact Nat.le_add_right _ _),
    containerBytes_flags h, Nine.ofList_toList, containerBytes_payload h, sizeField, containerBytes_sizeField h,
    leValue_leBytes_of_lt hsize]

end

end Sys2Proof.Machine

namespace Sys2Proof.Proofs

open Sys2Proof Sys2Proof.Machine

/-- Settles O59: a container's fields stand where `deserialize` reads them, and `serialize` answers only when each
number fits its field. -/
theorem deserializeOfSerialize : Obligations.DeserializeOfSerialize := by
  intro cfg k flags C tail buf size hcfg hbuf
  obtain ⟨hCL, hsize, rfl⟩ := serialize_eq_ok_iff.mp hbuf
  exact deserialize_containerBytes hcfg hCL hsize tail

/-- Settles O60: `serialize` refuses a size from `256 ^ sizeBytes` on, which is 65536 in Variant A and
2^32 in Variant B. -/
theorem serializeLimits : Obligations.SerializeLimits := by
  intro cfg flags C size
  refine ⟨serialize_eq_sizeOverflow_iff, serialize_eq_sizeOverflow_iff, fun k buf hcfg hbuf => ?_⟩
  obtain ⟨-, -, rfl⟩ := serialize_eq_ok_iff.mp hbuf
  exact containerBytes_length hcfg

end Sys2Proof.Proofs

/-! # The errors of DECODE and of START, and the order of their tests (60_exceptions.md) -/

namespace Sys2Proof.Machine

/-! ## BREF without its second byte or with an invalid offset (R222, R223) -/

theorem exec_bref_truncated {s : State} (hip : s.ip + 1 = s.il) (d : Nibble) (x : BitVec 12) :
    exec (.bref d x) s = .next ((s.advance 1).raiseDecode errTruncatedInput) := if_pos hip

theorem badOffset_iff {offset : Nat} {s : State} :
    badOffset offset s = true ↔ offset = 0 ∨ s.olen.toNat < offset := by
  rw [badOffset, Bool.or_eq_true, decide_eq_true_iff, decide_eq_true_iff]

theorem exec_bref_badOffset {s : State} (hip : s.ip + 1 ≠ s.il) (d : Nibble) {x : BitVec 12}
    (hbad : badOffset (brefOffset x) (s.advance 2) = true) :
    exec (.bref d x) s = .next ((s.advance 2).raiseDecode errInvalidBackref) :=
  (if_neg hip).trans (if_pos hbad)

/-! ## An Append that ends the command (R180, R229) -/

/-- Where no byte can be appended, LIT and NIB alike end at their first Append. -/
theorem exec_lit_nib_of_append_ended {s t : State} (hend : ∀ b, append b (s.advance 1) = .ended t) (v : Byte)
    (k : Fin 9) (p : Nibble) : exec (.lit v) s = .next t ∧ exec (nibInstr k p) s = exec (.lit v) s := by
  have hlit : exec (.lit v) s = .next t := congrArg Flow.endOp (hend v)
  refine ⟨hlit, ?_⟩
  rw [hlit, exec_nibInstr, nibOp, appendPair, hend]
  rfl

/-- With room for one byte, a pattern keeps its first byte and finds OUT full at its second. -/
theorem appendPair_second_full (b : Byte × Byte) {s : State} (h0 : s.expReached = false)
    (hc0 : s.olen.toNat ≠ s.cfg.outCap) (h1 : (s.putByte b.1).expReached = false)
    (hc1 : (s.olen + 1).toNat = s.cfg.outCap) :
    appendPair b s = .ended ((s.putByte b.1).raiseDecode errOutputOverflow) := by
  rw [appendPair, append_room h0 hc0]
  exact append_full h1 hc1

/-! ## The errors found at START (R225, R226, R228, R230) -/

theorem startCheck_flags {s : State} (hin : s.il.toNat ≤ s.cfg.inCap) (hm : s.mode = 0#2)
    (hstrict : s.cfg.strictFlags = true) (hft : legalFlags s.ft = false) : startCheck s = some errBadFlagTable :=
  (if_neg (Nat.not_lt.mpr hin)).trans (if_pos ⟨hm, hstrict, hft⟩)

/-- An error found at START sets STATUS and ends the command; the positions are 0 already (R23). -/
theorem next_raiseStart_latch (m : BitVec 2) (e : Bool) (s : State) (err : BitVec 4) :
    (.next ((s.latch m e).raiseStart err) : Result) =
      .next { startedState m e s with status := statusEnded false err, phase := .idle } := by
  rw [startedState_eq_latch]
  rfl

theorem exec_cmdEncode_rejects {s : State} {e : Bool} {err : BitVec 4} (hb : s.busy = false)
    (hc : startCheck (s.latch 1#2 e) = some err) :
    exec (.cmdEncode e) s = .next ((s.latch 1#2 e).raiseStart err) := by
  simp only [exec, execCmdEncode, hb, hc]
  rfl

theorem exec_cmdReserved_rejects {s : State} (hb : s.busy = false) (m : BitVec 2) (e : Bool) :
    exec (.cmdReserved m e) s = .next ((s.latch m e).raiseStart errBadCommand) :=
  if_neg (Bool.not_eq_true _ ▸ hb)

end Sys2Proof.Machine

namespace Sys2Proof.Proofs

open Sys2Proof Sys2Proof.Machine

/-- Settles O20: the first byte is read, so the cursor stands at the input's end. -/
theorem brefTruncatedInput : Obligations.BrefTruncatedInput := by
  intro d x s hip
  have hcursor : s.advance 1 = { s with ip := s.il } := congrArg (fun a => { s with ip := a }) hip
  rw [exec_bref_truncated hip, hcursor]
  rfl

/-- Settles O21. -/
theorem brefInvalidOffset : Obligations.BrefInvalidOffset := by
  intro d x s hip hoff
  exact exec_bref_badOffset (s := { s with opstart := s.ip }) hip d (badOffset_iff.mpr hoff)

/-- Settles O22: the first Append, or a pattern's second, finds OUT full. -/
theorem appendOverflow : Obligations.AppendOverflow := by
  intro v k p s
  refine ⟨fun hx hc => ?_, fun hx0 hx1 hc0 hc1 => ?_⟩
  · exact exec_lit_nib_of_append_ended (fun _ => append_full (State.expReached_eq_false_iff.mpr hx) hc) v k p
  · have hfull := appendPair_second_full (expand k p) (s := s.advance 1) (State.expReached_eq_false_iff.mpr hx0) hc0
      (State.expReached_eq_false_iff.mpr hx1) hc1
    rw [exec_nibInstr, nibOp, hfull]
    rfl

/-- Settles O23: the first Append tests the expected length first. -/
theorem expectedLengthBeforeOverflow : Obligations.ExpectedLengthBeforeOverflow := by
  intro v k p s hxv hxl
  exact exec_lit_nib_of_append_ended (fun _ => append_reached (State.expReached_iff.mpr ⟨hxv, hxl⟩)) v k p

/-- Settles O27. -/
theorem cmdReservedRaisesBadCommand : Obligations.CmdReservedRaisesBadCommand := by
  intro m e s _ hb
  exact (exec_cmdReserved_rejects hb m e).trans (next_raiseStart_latch m e s errBadCommand)

/-- Settles O28: the start checks run in the order of R230, and CMD.RESERVED runs none of them. -/
theorem startErrorPriority : Obligations.StartErrorPriority := by
  intro e s hb
  refine ⟨fun hin => ⟨?_, ?_, fun m hm => cmdReservedRaisesBadCommand m e s hm hb⟩, fun hin hstrict hft => ?_⟩
  · have hcheck : startCheck (s.latch 0#2 e) = some errInputOverflow := startCheck_input hin
    exact (exec_cmdDecode_rejects hb hcheck).trans (next_raiseStart_latch 0 e s errInputOverflow)
  · have hcheck : startCheck (s.latch 1#2 e) = some errInputOverflow := startCheck_input hin
    exact (exec_cmdEncode_rejects hb hcheck).trans (next_raiseStart_latch 1 e s errInputOverflow)
  · rw [startedState_eq_latch] at hft
    have hcheck : startCheck (s.latch 0#2 e) = some errBadFlagTable := startCheck_flags hin rfl hstrict hft
    exact (exec_cmdDecode_rejects hb hcheck).trans (next_raiseStart_latch 0 e s errBadFlagTable)

end Sys2Proof.Proofs


/-! # What the decoder reads, the encoder writes back (30_encoding.md) -/

namespace Sys2Proof

/-! ## NIB and BREF from the search of the flag table (R62, R64, R65) -/

theorem nibbleFlagOk_of_flagIndex {ft : FlagTable} {h : Nibble} {k : Fin 9} (hk : flagIndex ft h = some k) :
    nibbleFlagOk ft k = true := by
  obtain ⟨hget, hleast⟩ := flagIndex_eq_some_iff.mp hk
  have hle : (h.setWidth 8).toNat ≤ 15 := by
    rw [BitVec.toNat_setWidth_of_le (by decide)]
    omega
  simpa only [nibbleFlagOk, hget, Bool.and_eq_true, decide_eq_true_eq] using And.intro hle hleast

theorem deltaOk_of_flagIndex {ft : FlagTable} {d : Nibble} (h : flagIndex ft d = none) : deltaOk ft d = true :=
  decide_eq_true (flagIndex_none h)

theorem wellFormed_nibInstr (c : Context) (k : Fin 9) (p : Nibble) :
    wellFormed c (nibInstr k p) = c.admitsNib k := by
  match k with
  | 0 | 1 | 2 | 3 | 4 | 5 | 6 | 7 | 8 => rfl

/-- The index found holds the byte's own high nibble, so the NIB's byte is the byte it was read from. -/
theorem nibByte_of_flagIndex {ft : FlagTable} {b : Byte} {k : Fin 9} (hk : flagIndex ft (hi b) = some k) :
    nibByte ft k (lo b) = b := by
  rw [nibByte, flagIndex_get hk, BitVec.setWidth_setWidth_of_le _ (by decide), BitVec.setWidth_eq, joinNibbles_hi_lo]

theorem brefBytes_hi_lo (b b2 : Byte) : brefBytes (hi b) (lo b ++ b2) = [b, b2] := by
  have hhigh : (lo b ++ b2).extractLsb' 8 4 = lo b := BitVec.extractLsb'_append_eq_left
  have hlow : (lo b ++ b2).extractLsb' 0 8 = b2 := BitVec.extractLsb'_append_eq_right
  rw [brefBytes, hhigh, hlow, joinNibbles_hi_lo]

/-! ## The instruction read, context by context (R61, R62) -/

theorem decode_special_encodes {ft : FlagTable} {bytes rest : List Byte} {i : Instr}
    (h : decode (.slot false ft) bytes = .ok (i, rest)) :
    wellFormed (.slot false ft) i = true ∧ encode ft i ++ rest = bytes := by
  cases bytes with
  | nil => cases h
  | cons b tail =>
    cases hidx : flagIndex ft (hi b) with
    | some k =>
      rw [decode_special_of_index hidx] at h
      cases h
      rw [wellFormed_nibInstr, Machine.encode_nibInstr, nibByte_of_flagIndex hidx]
      exact ⟨nibbleFlagOk_of_flagIndex hidx, rfl⟩
    | none =>
      cases tail with
      | nil => rw [decode_special_truncated hidx] at h; cases h
      | cons b2 tail =>
        rw [decode_special_of_noIndex hidx] at h
        cases h
        exact ⟨deltaOk_of_flagIndex hidx, congrArg (· ++ _) (brefBytes_hi_lo b b2)⟩

theorem decode_stream_encodes {c : Context} {bytes rest : List Byte} {i : Instr} (hc : c ≠ .command)
    (h : decode c bytes = .ok (i, rest)) : wellFormed c i = true ∧ encode c.table i ++ rest = bytes := by
  match c, bytes with
  | .command, _ => exact absurd rfl hc
  | .control, [] | .slot true _, [] => cases h
  | .control, b :: _ | .slot true _, b :: _ => cases h; exact ⟨rfl, rfl⟩
  | .slot false _, _ => exact decode_special_encodes h

end Sys2Proof

namespace Sys2Proof.Proofs

open Sys2Proof Sys2Proof.Machine

/-- Settles O3, by the context and, in a special slot, by the search of the flag table. -/
theorem encodeOfDecodedStreamBytes : Obligations.EncodeOfDecodedStreamBytes :=
  fun _ _ _ _ hc h => decode_stream_encodes hc h

end Sys2Proof.Proofs
